-- ==== Sys2Proof/Word.lean ====
section
/-! DEFINITION. The word types of the block: operand and result words, command words (10_state.md R25). -/

namespace Sys2Proof

/-- A 32-bit operand or result word (00_scope.md R14, R19). -/
abbrev Word := BitVec 32

/-- The 8-bit command word on port `op` (30_encoding.md R50). -/
abbrev Command := BitVec 8

end Sys2Proof
end

