-- ==== Sys2Proof/Machine/Operands.lean ====
section
/-! DEFINITION. Reading an operand word: its fields (00_scope.md R14), its class and real value (R15), the binary32
literals of the rules (R16) and the domains of the public functions (R10). -/

namespace Sys2Proof.Machine

/-! ## Fields (R14) -/

/-- `S(w)`, the sign bit, bit 31. -/
def signBit (w : Word) : Bool := w.msb

/-- `E(w)`, the exponent field, bits 30:23, biased by 127. -/
def expField (w : Word) : BitVec 8 := w.extractLsb' 23 8

/-- `M(w)`, the mantissa field, bits 22:0. -/
def mantField (w : Word) : BitVec 23 := w.extractLsb' 0 23

/-- The concatenation `{sign, exponent, mantissa}` as one word (R14). -/
def joinFields (s : BitVec 1) (e : BitVec 8) (m : BitVec 23) : Word := s ++ e ++ m

/-! ## Classes and values (R15) -/

/-- The classes of R15's table. -/
inductive WordClass where
  | zero | subnormal | normal | infinity | nan
  deriving DecidableEq, Repr

/-- R15's table: the class of a word, from its exponent and mantissa fields. -/
def classOf (w : Word) : WordClass :=
  if expField w = 0#8 then (if mantField w = 0#23 then .zero else .subnormal)
  else if expField w = 255#8 then (if mantField w = 0#23 then .infinity else .nan)
  else .normal

def isZero (w : Word) : Bool := classOf w == .zero
def isSubnormal (w : Word) : Bool := classOf w == .subnormal
def isNormal (w : Word) : Bool := classOf w == .normal
def isInf (w : Word) : Bool := classOf w == .infinity
def isNaN (w : Word) : Bool := classOf w == .nan

/-- A quiet NaN: mantissa bit 22 set (R15). -/
def isQuietNaN (w : Word) : Bool := isNaN w && (mantField w).getLsbD 22

/-- "finite" means zero, subnormal or normal (R15). -/
def isFinite (w : Word) : Bool := isZero w || isSubnormal w || isNormal w

/-- The magnitude of a finite word in units of 2^-149, the smallest subnormal: `M` for zeros and subnormals,
`(2^23 + M) * 2^(E - 1)` for normals. It is `|val(w)| * 2^149` (R15), an exact integer. -/
def magUnits (w : Word) : Nat :=
  if expField w = 0#8 then (mantField w).toNat
  else (2 ^ 23 + (mantField w).toNat) * 2 ^ ((expField w).toNat - 1)

/-- The signed value of a finite word in units of 2^-149. -/
def valUnits (w : Word) : Int :=
  if signBit w then -(magUnits w : Int) else (magUnits w : Int)

/-- `val(w)`, the real value of a finite word, as R15's table writes it. It is meaningless for infinities and NaNs,
which have no value; the arithmetic uses `valUnits` (`Laws/Operands.lean`: `val_eq_valUnits`). -/
def val (w : Word) : ℚ :=
  (if signBit w then -1 else 1) *
    (if expField w = 0#8 then ((mantField w).toNat : ℚ) * (2 : ℚ) ^ (-149 : ℤ)
     else ((2 ^ 23 + (mantField w).toNat : ℕ) : ℚ) * (2 : ℚ) ^ ((expField w).toNat - 150 : ℤ))

/-! ## Literal words (R16) -/

def one : Word := 0x3F800000#32
def negOne : Word := 0xBF800000#32
def negZero : Word := 0x80000000#32
def two : Word := 0x40000000#32
def three : Word := 0x40400000#32
def ten : Word := 0x41200000#32
def sixteen : Word := 0x41800000#32
def negThreeHalves : Word := 0xBFC00000#32
def c383 : Word := 0x43BF8000#32

/-- The zero word with sign bit `neg`. -/
def zeroWord (neg : Bool) : Word := joinFields (BitVec.ofBool neg) 0#8 0#23

/-- The infinity word with sign bit `neg` (R92). -/
def infWord (neg : Bool) : Word := joinFields (BitVec.ofBool neg) 255#8 0#23

/-! ## Domains of the public functions (R10) -/

/-- Strictly positive, finite, normal: the domain of `LOG2`, `CBRT` and `CBRTA`. -/
def isPositiveNormal (w : Word) : Bool := !signBit w && isNormal w

/-- Zero or normal, finite: the domain of `SIN` and `COS`. -/
def isZeroOrNormal (w : Word) : Bool := isZero w || isNormal w

/-- Zero or normal with -126 <= value < 128: the domain of `EXP2`. -/
def inExp2Domain (w : Word) : Bool :=
  isZeroOrNormal w && decide (-(126 * 2 ^ 149) ≤ valUnits w) && decide (valUnits w < 128 * 2 ^ 149)

/-- `odd(m)`, the parity of a binary32 integer, on the word (45_sincos.md R155): no integer conversion is made. -/
def odd (m : Word) : Bool :=
  if isZero m || isInf m || isNaN m then false
  else if 150 < (expField m).toNat then false
  else if (expField m).toNat < 127 then false
  else (2 ^ 23 + (mantField m).toNat).testBit (150 - (expField m).toNat)

end Sys2Proof.Machine
end

