-- ==== Sys2Proof/Machine/Rounding.lean ====
section
/-! DEFINITION. The encoding of a representable number and the block's one rounding (41_fusedstep.md R91, R92). Reals
are exact: a magnitude is a natural number of units of 2^-149, or a quotient of two naturals. -/

namespace Sys2Proof.Machine

/-- `enc(v, s)` for the representable number of magnitude `u * 2^-149` (R91): the word with sign `neg`. A zero keeps
the sign bit it is given. -/
def enc (neg : Bool) (u : Nat) : Word :=
  if u < 2 ^ 23 then joinFields (BitVec.ofBool neg) 0#8 (BitVec.ofNat 23 u)
  else
    let k := Nat.log2 u - 23
    joinFields (BitVec.ofBool neg) (BitVec.ofNat 8 (k + 1)) (BitVec.ofNat 23 (u / 2 ^ k - 2 ^ 23))

/-- The integer nearest to `n / d`; when `n / d` is exactly halfway between two integers, the even one (R92's `f`). -/
def nearestEven (n d : Nat) : Nat :=
  if 2 * (n % d) < d then n / d
  else if d < 2 * (n % d) then n / d + 1
  else if n / d % 2 = 0 then n / d else n / d + 1

/-- R92's exponent of the spacing near a nonzero `|x| = n / d * 2^-149`, as `q + 149`: with `e = floor(log2 |x|)`,
`q = max(e, -126) - 23`. The subtraction of naturals stops at 0, which is the `max`. -/
def spacing (n d : Nat) : Nat := Nat.log2 (n / d) - 23

/-- `rnd(x)` of R92 for `|x| = num / den > 0` with sign `neg`: round to nearest, ties to even, to infinity when the
rounded magnitude reaches 2^128 (`2^149 * 2^128` units), gradual underflow below 2^-126. -/
def rnd (neg : Bool) (num den : Nat) : Word :=
  let n := num * 2 ^ 149
  let k := spacing n den
  let f := nearestEven n (den * 2 ^ k)
  if 2 ^ 149 * 2 ^ 128 ≤ f * 2 ^ k then infWord neg else enc neg (f * 2 ^ k)

end Sys2Proof.Machine
end

