-- ==== Sys2Proof/Machine/Arithmetic.lean ====
section
/-! DEFINITION. The integer operators on words (40_bitdecomposition.md R76) and the binary32 arithmetic functions
(41_fusedstep.md R93 to R99), each a function from words to a word. Where a rule says "a NaN", the word is the
transaction's `Cfg.NANGEN(op, operands)` (R100), passed as the argument `nan`. -/

namespace Sys2Proof.Machine

/-! ## Integer operators (R76) -/

/-- `x << 8`, the high bits lost. -/
def shl8 (x : Word) : Word := x <<< 8

/-- `x >> 8`, logical. -/
def shr8 (x : Word) : Word := x >>> 8

/-- `x udiv 3`, unsigned floor division by the constant 3. -/
def udiv3 (x : Word) : Word := x / 3#32

/-! ## Sign operations (R98, R99) -/

/-- `fabs(x)`: bit 31 cleared, nothing else changed (R98). -/
def fabs (x : Word) : Word := x &&& 0x7FFFFFFF#32

/-- `fneg(x)`: bit 31 flipped, nothing else changed (R99). -/
def fneg (x : Word) : Word := x ^^^ 0x80000000#32

/-! ## The fused multiply-add (R93) -/

/-- R93 case 5, all operands finite: the exact `val(a) * val(b) + val(c)`, in units of 2^-298, rounded once; an exact
zero has the product's sign when product and addend are zeros of one sign, and is `+0` otherwise. -/
def fmaFinite (a b c : Word) : Word :=
  let p := valUnits a * valUnits b
  let x := p + valUnits c * 2 ^ 149
  if x ≠ 0 then rnd (decide (x < 0)) x.natAbs (2 ^ 149 * 2 ^ 149)
  else if p = 0 ∧ (signBit a ^^ signBit b) = signBit c then zeroWord (signBit c)
  else zeroWord false

/-- `fma(a, b, c)`, the cases of R93 in their order. -/
def fma (nan a b c : Word) : Word :=
  if isNaN a || isNaN b || isNaN c then nan
  else if (isInf a && isZero b) || (isZero a && isInf b) then nan
  else if isInf a || isInf b then
    if isInf c && signBit c != (signBit a ^^ signBit b) then nan
    else infWord (signBit a ^^ signBit b)
  else if isInf c then c
  else fmaFinite a b c

/-- `fadd(x, y) = fma(x, 1.0, y)` (R94). -/
def fadd (nan x y : Word) : Word := fma nan x one y

/-- `fsub(x, y) = fma(y, -1.0, x)`, x minus y (R94). -/
def fsub (nan x y : Word) : Word := fma nan y negOne x

/-- `fmul(x, y) = fma(x, y, -0.0)` (R94). -/
def fmul (nan x y : Word) : Word := fma nan x y negZero

/-! ## Division, floor, round (R95 to R97) -/

/-- `fdiv(x, y)`, the cases of R95 in their order. -/
def fdiv (nan x y : Word) : Word :=
  let s := signBit x ^^ signBit y
  if isNaN x || isNaN y then nan
  else if isInf x then (if isInf y then nan else infWord s)
  else if isInf y then zeroWord s
  else if isZero y then (if isZero x then nan else infWord s)
  else if isZero x then zeroWord s
  else rnd s (magUnits x) (magUnits y)

/-- `ffloor(x)` (R96): the largest integer not above `val(x)`, encoded; zeros and infinities unchanged. -/
def ffloor (nan x : Word) : Word :=
  if isNaN x then nan
  else if isInf x || isZero x then x
  else enc (signBit x) ((valUnits x / 2 ^ 149).natAbs * 2 ^ 149)

/-- `fround(x)` (R97): magnitude `floor(|val(x)| + 1/2)`, sign of `x` kept also when the magnitude is 0; ties go away
from zero. -/
def fround (nan x : Word) : Word :=
  if isNaN x then nan
  else if isInf x || isZero x then x
  else enc (signBit x) ((magUnits x + 2 ^ 148) / 2 ^ 149 * 2 ^ 149)

/-! ## Decimal literals of the assembler (30_encoding.md R57) -/

/-- The binary32 word nearest to `digits / 10^scale` with the written sign, ties to even (R57). DESIGN CHOICE, unsafe (log
entry 19): R57 does not say what a literal beyond the binary32 range stands for, nor which zero one that is too small
stands for; the rounding of R92 is taken, so from 2^128 - 2^103 on it is an infinity, and up to 2^-150 a zero, both with
the written sign. -/
def floatLiteral (neg : Bool) (digits scale : Nat) : Word :=
  if digits = 0 then zeroWord neg else rnd neg digits (10 ^ scale)

/-! ## The polynomial evaluator (43_log2.md R125) -/

/-- `horner(L, t)`: a chain of fused steps, leading coefficient first; index 0 of the list is the constant term. No
coefficient list of a valid `Cfg` is empty; an empty one gives `+0` (log entry 10). -/
def horner (nan t : Word) : List Word → Word
  | [] => 0#32
  | [c] => c
  | c :: rest => fma nan (horner nan t rest) t c

end Sys2Proof.Machine
end

