-- ==== Sys2Proof/Config.lean ====
section
/-! DEFINITION. The constant store `Cfg` (00_scope.md R8, 10_state.md R24) and the block's own store, which the spec
leaves open: an uninterpreted constant that meets R8's constraints by construction. -/

namespace Sys2Proof

/-- The immutable configuration record of 00_scope.md R8, field by field. Every operation that needs a constant takes
a `Cfg` as an argument; R8's constraints are `Cfg.Valid` (WellFormed.lean). -/
structure Cfg where
  /-- `LOG2_P`: cofactor polynomial of the log2 numerator, index 0 the constant term (R126). -/
  log2P : List Word
  /-- `LOG2_Q`: denominator polynomial of log2, index 0 the constant term (R127). -/
  log2Q : List Word
  /-- `EXP2_C`: index k is the coefficient of frac^k (R140). -/
  exp2C : List Word
  /-- `SIN_C`: index k is the coefficient of y^(2k+1) (R152). -/
  sinC : List Word
  /-- `RTAU` (R150). -/
  rtau : Word
  /-- `TAU_HI` (R150). -/
  tauHi : Word
  /-- `TAU_LO`, added back by the sine formula (R150, R156). -/
  tauLo : Word
  /-- `RPI` (R150). -/
  rpi : Word
  /-- `PI_HI` (R150). -/
  piHi : Word
  /-- `PI_LO`, added back by the sine formula (R150, R156). -/
  piLo : Word
  /-- `INVHALF_HI` (R151). -/
  invHalfHi : Word
  /-- `INVHALF_LO` (R151). -/
  invHalfLo : Word
  /-- `HALF_HI` (R151). -/
  halfHi : Word
  /-- `HALF_LO`, subtracted by the cosine stages (R151, R156). -/
  halfLo : Word
  /-- `QUARTER_HI` (R151). -/
  quarterHi : Word
  /-- `QUARTER_LO`, subtracted by the cosine stages (R151, R156). -/
  quarterLo : Word
  /-- `CBRT_MAGIC` (R75). -/
  cbrtMagic : Word
  /-- `CBRT_ITERS`, 1 or 2 (R171). -/
  cbrtIters : Nat
  /-- `NANGEN`: the NaN word of a transaction, from its command word and the operand words it reads (R100). -/
  nangen : Command → List Word → Word
  /-- `OOD`: the result of a public function outside its domain (R12). -/
  ood : Command → Word → Word

/-- The parts of a finite binary32 word: exponent field 0 to 254 (00_scope.md R15). A `Store` is built of them so that
R8's "every entry finite" holds by construction. -/
structure FiniteParts where
  neg : Bool
  expo : Fin 255
  mant : BitVec 23
  deriving Inhabited, DecidableEq, Repr

/-- The word with these parts. -/
def FiniteParts.word (p : FiniteParts) : Word :=
  BitVec.ofBool p.neg ++ BitVec.ofNat 8 p.expo.val ++ p.mant

/-- The coefficients of a log2 polynomial, whose degree is 2 or 3 (R8, R131): the fourth coefficient may be absent. -/
structure Log2Coeffs where
  c0 : FiniteParts
  c1 : FiniteParts
  c2 : FiniteParts
  c3 : Option FiniteParts
  deriving Inhabited

/-- The list of words, index 0 the constant term. -/
def Log2Coeffs.words (p : Log2Coeffs) : List Word :=
  [p.c0.word, p.c1.word, p.c2.word] ++ (p.c3.map FiniteParts.word).toList

/-- Everything the spec leaves open in `Cfg`, in a form in which every value meets R8's constraints: finite constants,
list lengths, `EXP2_C[0] = 1.0`, one or two iterations, quiet NaNs. `Laws/Config.lean` proves that `Store.toCfg`
reaches exactly the valid configurations. -/
structure Store where
  log2P : Log2Coeffs
  log2Q : Log2Coeffs
  exp2C1 : FiniteParts
  exp2C2 : FiniteParts
  exp2C3 : FiniteParts
  exp2C4 : FiniteParts
  exp2C5 : FiniteParts
  sinC0 : FiniteParts
  sinC1 : FiniteParts
  sinC2 : FiniteParts
  sinC3 : FiniteParts
  sinC4 : FiniteParts
  sinC5 : FiniteParts
  rtau : FiniteParts
  tauHi : FiniteParts
  tauLo : FiniteParts
  rpi : FiniteParts
  piHi : FiniteParts
  piLo : FiniteParts
  invHalfHi : FiniteParts
  invHalfLo : FiniteParts
  halfHi : FiniteParts
  halfLo : FiniteParts
  quarterHi : FiniteParts
  quarterLo : FiniteParts
  cbrtMagic : Word
  /-- `true` for two iterations, `false` for one. -/
  cbrtTwice : Bool
  /-- Sign and the 22 payload bits below the quiet bit of the NaN word (R100). -/
  nanBits : Command → List Word → Bool × BitVec 22
  ood : Command → Word → Word
  deriving Inhabited

/-- The quiet NaN word with this sign and payload: exponent field 255, mantissa bit 22 set (R100). -/
def quietNaN (sign : Bool) (payload : BitVec 22) : Word :=
  BitVec.ofBool sign ++ (255#8 ++ (1#1 ++ payload))

/-- The configuration a store stands for. -/
def Store.toCfg (k : Store) : Cfg where
  log2P := k.log2P.words
  log2Q := k.log2Q.words
  exp2C := 0x3F800000#32 ::
    [k.exp2C1, k.exp2C2, k.exp2C3, k.exp2C4, k.exp2C5].map FiniteParts.word
  sinC := [k.sinC0, k.sinC1, k.sinC2, k.sinC3, k.sinC4, k.sinC5].map FiniteParts.word
  rtau := k.rtau.word
  tauHi := k.tauHi.word
  tauLo := k.tauLo.word
  rpi := k.rpi.word
  piHi := k.piHi.word
  piLo := k.piLo.word
  invHalfHi := k.invHalfHi.word
  invHalfLo := k.invHalfLo.word
  halfHi := k.halfHi.word
  halfLo := k.halfLo.word
  quarterHi := k.quarterHi.word
  quarterLo := k.quarterLo.word
  cbrtMagic := k.cbrtMagic
  cbrtIters := if k.cbrtTwice then 2 else 1
  nangen := fun op ws => quietNaN (k.nanBits op ws).1 (k.nanBits op ws).2
  ood := k.ood

/-- The block's own constant store. No value is given and none can be proved: every claim about the block holds for
whatever the constants are (92_eei_decisions.md D34; log entries 5, 6, 7). -/
opaque Config.store : Store

/-- The configuration the block runs with. -/
def Config.cfg : Cfg := Config.store.toCfg

end Sys2Proof
end

