-- ==== Sys2Proof/Syntax.lean ====
section
/-! DEFINITION. The 29 operations of the opcode table (30_encoding.md R52). A command word has no operand field
(R50, R53), so no constructor has an argument: operands are read from the ports. -/

namespace Sys2Proof

/-- The operations of the block, one constructor per row of spec/opcode_table.json, in the table's order. -/
inductive Instr where
  | decomp | compose | mant1 | expf | pow2i | cbseed
  | fma | div | floor | round | fabs
  | mulsign
  | plog2n | plog2d | log2
  | pexp2 | exp2
  | redsin | redcos | psin | sin | cos
  | halley | cbrt | cbrta
  | dfmul | dfmuls | dfqts | dfdiv
  deriving DecidableEq, Repr

end Sys2Proof
end

