-- ==== Sys2Proof/Decode.lean ====
section
/-! DEFINITION. The command word's two fields, the decoder and the encoder (30_encoding.md R50, R52, R54). -/

namespace Sys2Proof

/-- Field `fam`, bits 7:4 of the command word (R50). -/
def famField (w : Command) : Nat := (w.extractLsb' 4 4).toNat

/-- Field `idx`, bits 3:0 of the command word (R50). -/
def idxField (w : Command) : Nat := (w.extractLsb' 0 4).toNat

/-- The opcode map of R52 by family and index. A command word outside it is reserved (R54) and decodes to nothing;
`step` then refuses it under the name `reservedCommand`. -/
def decode (w : Command) : Option Instr :=
  match famField w, idxField w with
  | 0, 0 => some .decomp
  | 0, 1 => some .compose
  | 0, 2 => some .mant1
  | 0, 3 => some .expf
  | 0, 4 => some .pow2i
  | 0, 5 => some .cbseed
  | 1, 0 => some .fma
  | 1, 1 => some .div
  | 1, 2 => some .floor
  | 1, 3 => some .round
  | 1, 4 => some .fabs
  | 2, 0 => some .mulsign
  | 3, 0 => some .plog2n
  | 3, 1 => some .plog2d
  | 3, 2 => some .log2
  | 4, 0 => some .pexp2
  | 4, 1 => some .exp2
  | 5, 0 => some .redsin
  | 5, 1 => some .redcos
  | 5, 2 => some .psin
  | 5, 3 => some .sin
  | 5, 4 => some .cos
  | 6, 0 => some .halley
  | 6, 1 => some .cbrt
  | 6, 2 => some .cbrta
  | 7, 0 => some .dfmul
  | 7, 1 => some .dfmuls
  | 7, 2 => some .dfqts
  | 7, 3 => some .dfdiv
  | _, _ => none

/-- The command word of an operation: the `code` column of R52's table. -/
def encode (i : Instr) : Command :=
  match i with
  | .decomp => 0x00#8
  | .compose => 0x01#8
  | .mant1 => 0x02#8
  | .expf => 0x03#8
  | .pow2i => 0x04#8
  | .cbseed => 0x05#8
  | .fma => 0x10#8
  | .div => 0x11#8
  | .floor => 0x12#8
  | .round => 0x13#8
  | .fabs => 0x14#8
  | .mulsign => 0x20#8
  | .plog2n => 0x30#8
  | .plog2d => 0x31#8
  | .log2 => 0x32#8
  | .pexp2 => 0x40#8
  | .exp2 => 0x41#8
  | .redsin => 0x50#8
  | .redcos => 0x51#8
  | .psin => 0x52#8
  | .sin => 0x53#8
  | .cos => 0x54#8
  | .halley => 0x60#8
  | .cbrt => 0x61#8
  | .cbrta => 0x62#8
  | .dfmul => 0x70#8
  | .dfmuls => 0x71#8
  | .dfqts => 0x72#8
  | .dfdiv => 0x73#8

/-- The command word in the `nbits` lowest bits of `w`, bit 0 the least significant. -/
def commandOfTable (nbits w : Nat) : Command := BitVec.ofNat 8 (w % 2 ^ nbits)

/-- The operation the decoder reads from a table word (spec/opcode_table.json's numbering): the block has one length,
8 bits (R50), so a word with a bit set above bit 7 is no command word. -/
def decodeTableWord (nbits w : Nat) : Option Instr :=
  if w % 2 ^ nbits < 2 ^ 8 then decode (commandOfTable nbits w) else none

end Sys2Proof
end

