-- ==== Sys2Proof/Machine/State.lean ====
section
/-! DEFINITION. The machine's state: the ports, and nothing else (10_state.md R20 to R29). -/

namespace Sys2Proof.Machine

/-- The words on the four operand ports, as one value (R25). -/
structure Ports where
  a : Word
  b : Word
  c : Word
  d : Word
  deriving DecidableEq, Repr

/-- The words on the three result ports of a completed transaction (R25). -/
structure Results where
  r0 : Word
  r1 : Word
  r2 : Word
  deriving DecidableEq, Repr

/-- The block's ports (R25). There is no register, program counter, flag, control register, memory or hidden state
(R20 to R23, R27, R28); the constant store is configuration (R24). -/
structure State where
  /-- Port `op`: the command word the host presents. -/
  op : Command
  /-- Port `a`. -/
  a : Word
  /-- Port `b`. -/
  b : Word
  /-- Port `c`. -/
  c : Word
  /-- Port `d`. -/
  d : Word
  /-- The result ports: no value until a transaction has returned (R29; log entry 3). -/
  out : Option Results
  deriving DecidableEq, Repr

/-- Reasons a step can fault. There is none: the set of exception causes is empty (60_exceptions.md R200), so the type
has no constructor and no step can fault. -/
inductive Fault where
  deriving DecidableEq, Repr

/-- Reasons a step is refused. -/
inductive Refusal where
  /-- An instruction that has no meaning in the model yet, raised by `exec`'s arm for it. No arm of this model uses it.
  Safe: the model stops where the block goes on. -/
  | notModelled (mnemonic : String)
  /-- The command word is one of the 227 reserved codes, raised by `step`: "the model gives a transaction with a
  reserved code no meaning" (30_encoding.md R54; 93_implementation_defined.md U1). Safe: the block returns unspecified
  words and goes on; the model claims nothing about them. -/
  | reservedCommand (op : Command)
  deriving DecidableEq, Repr

/-- What a meaning answers: the host's outcome over this machine's types. -/
abbrev Answer := Host.Outcome State Fault Refusal

/-- The machine right after reset: the result ports have no value (R29); the input ports, which the host drives and to
which the spec gives no value, are zero (DESIGN CHOICE, log entry 2). The constant store is not affected (R220). -/
def State.reset : State where
  op := 0#8
  a := 0#32
  b := 0#32
  c := 0#32
  d := 0#32
  out := none

end Sys2Proof.Machine
end

