-- ==== Sys2Proof/Machine/Ops.lean ====
section
/-! DEFINITION. The named operations over the ports: presenting a transaction, reading the operand ports, driving the
result ports (10_state.md R25; 30_encoding.md R51, R59), and the NaN word of a transaction (41_fusedstep.md R100).
The block takes no exception (60_exceptions.md R200, R204, R205), so there is no operation for one. -/

namespace Sys2Proof.Machine

/-- The operand ports as one value. -/
def State.ports (s : State) : Ports := ⟨s.a, s.b, s.c, s.d⟩

/-- The host presents a transaction: it drives the command port and the operand ports (60_exceptions.md R212). -/
def State.present (s : State) (op : Command) (p : Ports) : State :=
  { s with op := op, a := p.a, b := p.b, c := p.c, d := p.d }

/-- The transaction returns: the result ports take its words, the input ports stay as the host drives them (R224). -/
def State.answer (s : State) (r : Results) : Answer := .next { s with out := some r }

/-- Results of a format that drives `r0` only: an undriven result port returns zero (R59). -/
def drive1 (r0 : Word) : Results := ⟨r0, 0#32, 0#32⟩

/-- Results of a format that drives `r0` and `r1` (R59). -/
def drive2 (r0 r1 : Word) : Results := ⟨r0, r1, 0#32⟩

/-- Results of a format that drives all three result ports. -/
def drive3 (r0 r1 r2 : Word) : Results := ⟨r0, r1, r2⟩

/-- `Cfg.NANGEN(op, operands)`: the NaN word of a transaction of operation `i`, from its command word and the operand
words it reads, in port order (R100; log entry 6). -/
def nanOf (k : Cfg) (i : Instr) (operands : List Word) : Word := k.nangen (encode i) operands

/-- `Cfg.OOD(op, a)`: the result of public function `i` outside its domain (00_scope.md R12). -/
def oodOf (k : Cfg) (i : Instr) (x : Word) : Word := k.ood (encode i) x

end Sys2Proof.Machine
end

