-- ==== Sys2Proof/Machine/SignTransfer.lean ====
section
/-! DEFINITION. SignTransfer (42_signtransfer.md): MULSIGN. -/

namespace Sys2Proof.Machine

/-- `mulsign(x, y)` (R120): `x` with its sign bit exclusive-ored with `y`'s (90_conflicts.md C1). -/
def mulsign (x y : Word) : Word := x ^^^ (y &&& 0x80000000#32)

/-- `MULSIGN` (0x20, F21), R121. -/
def mulsignTx (_k : Cfg) (p : Ports) : Results := drive1 (mulsign p.a p.b)

/-- Meaning of `MULSIGN`. -/
def execMulsign (s : State) : Answer := s.answer (mulsignTx Config.cfg s.ports)

end Sys2Proof.Machine
end

