-- ==== Sys2Proof/Machine/AngleReduction.lean ====
section
/-! DEFINITION. AngleReduction and SinePolynomial (45_sincos.md): REDSIN, REDCOS, PSIN, SIN, COS. -/

namespace Sys2Proof.Machine

/-- One residual of the sine reduction (R150): `(x - k * high) + k * low` with `k` the nearest whole number of periods,
one fused step per multiply-add. The low part is added back (R156). -/
def sineResidual (nan recip high low x : Word) : Word :=
  let k := fround nan (fmul nan x recip)
  fma nan k low (fma nan (fneg k) high x)

/-- `z`, the residual modulo the period, sign-preserving (R150). -/
def redsinZ (k : Cfg) (nan x : Word) : Word := sineResidual nan k.rtau k.tauHi k.tauLo x

/-- `y`, the magnitude of the residual modulo the half period (R150). -/
def redsinY (k : Cfg) (nan x : Word) : Word := fabs (sineResidual nan k.rpi k.piHi k.piLo x)

/-- `m`, the index of the half period that holds `x` (R151). -/
def halfPeriodIndex (k : Cfg) (nan x : Word) : Word :=
  ffloor nan (fma nan x k.invHalfHi (fmul nan x k.invHalfLo))

/-- The sign selector `s` of a half-period index: 1.0 for odd, -1.0 for even (R151, R155). -/
def paritySign (m : Word) : Word := if odd m then one else negOne

/-- The reduced argument of the cosine for half-period index `m` (R151): the three compensated stages `high`,
`errorOfHigh` and `low`, subtracted in sequence. -/
def cosineStages (k : Cfg) (nan m x : Word) : Word :=
  let high := fma nan m k.halfHi k.quarterHi
  let g := fma nan m k.halfHi (fneg high)
  let eoh := fadd nan g k.quarterHi
  let low := fma nan m k.halfLo k.quarterLo
  fsub nan (fsub nan (fsub nan x high) eoh) low

/-- `x3`, the reduced argument of the cosine (R151). -/
def redcosX (k : Cfg) (nan x : Word) : Word := cosineStages k nan (halfPeriodIndex k nan x) x

/-- `s`, the sign selector of the cosine (R151). -/
def redcosS (k : Cfg) (nan x : Word) : Word := paritySign (halfPeriodIndex k nan x)

/-- The shared odd polynomial core: the even polynomial in `y^2` times `y` (R152). -/
def psin (k : Cfg) (nan y : Word) : Word := fmul nan (horner nan (fmul nan y y) k.sinC) y

/-- The in-domain sine (R153). -/
def sin (k : Cfg) (nan x : Word) : Word := mulsign (psin k nan (redsinY k nan x)) (redsinZ k nan x)

/-- The in-domain cosine (R154). -/
def cos (k : Cfg) (nan x : Word) : Word := psin k nan (fmul nan (redcosX k nan x) (redcosS k nan x))

/-- `REDSIN` (0x50, F12), R150. -/
def redsinTx (k : Cfg) (p : Ports) : Results :=
  let nan := nanOf k .redsin [p.a]
  drive2 (redsinZ k nan p.a) (redsinY k nan p.a)

/-- `REDCOS` (0x51, F12), R151. -/
def redcosTx (k : Cfg) (p : Ports) : Results :=
  let nan := nanOf k .redcos [p.a]
  drive2 (redcosX k nan p.a) (redcosS k nan p.a)

/-- `PSIN` (0x52, F11), R152. -/
def psinTx (k : Cfg) (p : Ports) : Results := drive1 (psin k (nanOf k .psin [p.a]) p.a)

/-- `SIN` (0x53, F11), R153. -/
def sinTx (k : Cfg) (p : Ports) : Results :=
  drive1 (if isZeroOrNormal p.a then sin k (nanOf k .sin [p.a]) p.a else oodOf k .sin p.a)

/-- `COS` (0x54, F11), R154. -/
def cosTx (k : Cfg) (p : Ports) : Results :=
  drive1 (if isZeroOrNormal p.a then cos k (nanOf k .cos [p.a]) p.a else oodOf k .cos p.a)

/-- Meaning of `REDSIN`. -/
def execRedsin (s : State) : Answer := s.answer (redsinTx Config.cfg s.ports)

/-- Meaning of `REDCOS`. -/
def execRedcos (s : State) : Answer := s.answer (redcosTx Config.cfg s.ports)

/-- Meaning of `PSIN`. -/
def execPsin (s : State) : Answer := s.answer (psinTx Config.cfg s.ports)

/-- Meaning of `SIN`. -/
def execSin (s : State) : Answer := s.answer (sinTx Config.cfg s.ports)

/-- Meaning of `COS`. -/
def execCos (s : State) : Answer := s.answer (cosTx Config.cfg s.ports)

end Sys2Proof.Machine
end

