-- ==== Sys2Proof/Machine/BitDecomposition.lean ====
section
/-! DEFINITION. BitDecomposition (40_bitdecomposition.md): DECOMP, COMPOSE, MANT1, EXPF, POW2I, CBSEED. For each
operation: its function on words, its transaction (the result words, from a configuration and the operand ports) and
its meaning, which drives the result ports with that transaction under the block's own configuration. -/

namespace Sys2Proof.Machine

/-! ## Functions on words -/

/-- The join `{ a[0], b[7:0], c[22:0] }` of R71: upper bits of the three operands are ignored. -/
def compose (a b c : Word) : Word := joinFields (a.extractLsb' 0 1) (b.extractLsb' 0 8) (c.extractLsb' 0 23)

/-- The mantissa normaliser (R72): the exponent field is overwritten with that of 1.0, sign and mantissa are kept. -/
def mant1 (a : Word) : Word := (a &&& 0x807FFFFF#32) ||| 0x3F800000#32

/-- The synthetic float of value `256 + E(a)` (R73). -/
def expWord (a : Word) : Word := 0x43800000#32 ||| (shr8 a &&& 0x007F8000#32)

/-- The exponent reader (R73): `256 + E(a)` minus 383. -/
def expf (nan a : Word) : Word := fsub nan (expWord a) c383

/-- The power-of-two builder (R74): add 383, shift into the exponent field, mask. -/
def pow2i (nan a : Word) : Word := shl8 (fadd nan a c383) &&& 0x7F800000#32

/-- The cube-root seed (R75): unsigned division by 3 plus the magic constant, modulo 2^32. -/
def cbseed (k : Cfg) (a : Word) : Word := udiv3 a + k.cbrtMagic

/-! ## Transactions -/

/-- `DECOMP` (0x00, F13), R70: sign, exponent field and mantissa field, zero-extended. -/
def decompTx (_k : Cfg) (p : Ports) : Results :=
  drive3 ((BitVec.ofBool (signBit p.a)).setWidth 32) ((expField p.a).setWidth 32) ((mantField p.a).setWidth 32)

/-- `COMPOSE` (0x01, F31), R71. -/
def composeTx (_k : Cfg) (p : Ports) : Results := drive1 (compose p.a p.b p.c)

/-- `MANT1` (0x02, F11), R72. -/
def mant1Tx (_k : Cfg) (p : Ports) : Results := drive1 (mant1 p.a)

/-- `EXPF` (0x03, F11), R73. -/
def expfTx (k : Cfg) (p : Ports) : Results := drive1 (expf (nanOf k .expf [p.a]) p.a)

/-- `POW2I` (0x04, F11), R74. -/
def pow2iTx (k : Cfg) (p : Ports) : Results := drive1 (pow2i (nanOf k .pow2i [p.a]) p.a)

/-- `CBSEED` (0x05, F11), R75. -/
def cbseedTx (k : Cfg) (p : Ports) : Results := drive1 (cbseed k p.a)

/-! ## Meanings -/

/-- Meaning of `DECOMP`. -/
def execDecomp (s : State) : Answer := s.answer (decompTx Config.cfg s.ports)

/-- Meaning of `COMPOSE`. -/
def execCompose (s : State) : Answer := s.answer (composeTx Config.cfg s.ports)

/-- Meaning of `MANT1`. -/
def execMant1 (s : State) : Answer := s.answer (mant1Tx Config.cfg s.ports)

/-- Meaning of `EXPF`. -/
def execExpf (s : State) : Answer := s.answer (expfTx Config.cfg s.ports)

/-- Meaning of `POW2I`. -/
def execPow2i (s : State) : Answer := s.answer (pow2iTx Config.cfg s.ports)

/-- Meaning of `CBSEED`. -/
def execCbseed (s : State) : Answer := s.answer (cbseedTx Config.cfg s.ports)

end Sys2Proof.Machine
end

