-- ==== Sys2Proof/Machine/DoubleFloat.lean ====
section
/-! DEFINITION. DoubleFloatArithmetic (47_doublefloat.md): DFMUL, DFMULS, DFQTS, DFDIV. A pair is two words, high
first (R189); no operation checks that a pair is well formed. -/

namespace Sys2Proof.Machine

/-- `multiply(a, b)` (R185): the rounded product and its error. -/
def dfmul (nan a b : Word) : Word × Word :=
  let p := fmul nan a b
  (p, fma nan a b (fneg p))

/-- `multiplyByScalar((h, l), r)` (R186), with no final renormalisation. -/
def dfmuls (nan h l r : Word) : Word × Word :=
  let p := fmul nan h r
  let e := fma nan h r (fneg p)
  (p, fma nan l r e)

/-- `quickTwoSum((h, l), r)` (R187); the precondition `|h| >= |r|` is not checked. -/
def dfqts (nan h l r : Word) : Word × Word :=
  let s := fadd nan h r
  let bb := fsub nan s h
  let err := fsub nan r bb
  (s, fadd nan err l)

/-- `divide((nh, nl), (dh, dl))` (R188): a first quotient by the reciprocal of `dh`, corrected once. -/
def dfdiv (nan nh nl dh dl : Word) : Word :=
  let rc := fdiv nan one dh
  let q0 := fmul nan nh rc
  let r1 := fma nan (fneg q0) dh nh
  let r2 := fma nan (fneg q0) dl r1
  let r3 := fadd nan r2 nl
  fma nan r3 rc q0

/-- `DFMUL` (0x70, F22), R185. -/
def dfmulTx (k : Cfg) (p : Ports) : Results :=
  let q := dfmul (nanOf k .dfmul [p.a, p.b]) p.a p.b
  drive2 q.1 q.2

/-- `DFMULS` (0x71, F32), R186: the pair on `a`, `b`, the scalar on `c`. -/
def dfmulsTx (k : Cfg) (p : Ports) : Results :=
  let q := dfmuls (nanOf k .dfmuls [p.a, p.b, p.c]) p.a p.b p.c
  drive2 q.1 q.2

/-- `DFQTS` (0x72, F32), R187: the pair on `a`, `b`, the scalar on `c`. -/
def dfqtsTx (k : Cfg) (p : Ports) : Results :=
  let q := dfqts (nanOf k .dfqts [p.a, p.b, p.c]) p.a p.b p.c
  drive2 q.1 q.2

/-- `DFDIV` (0x73, F41), R188: the numerator pair on `a`, `b`, the denominator pair on `c`, `d`. -/
def dfdivTx (k : Cfg) (p : Ports) : Results :=
  drive1 (dfdiv (nanOf k .dfdiv [p.a, p.b, p.c, p.d]) p.a p.b p.c p.d)

/-- Meaning of `DFMUL`. -/
def execDfmul (s : State) : Answer := s.answer (dfmulTx Config.cfg s.ports)

/-- Meaning of `DFMULS`. -/
def execDfmuls (s : State) : Answer := s.answer (dfmulsTx Config.cfg s.ports)

/-- Meaning of `DFQTS`. -/
def execDfqts (s : State) : Answer := s.answer (dfqtsTx Config.cfg s.ports)

/-- Meaning of `DFDIV`. -/
def execDfdiv (s : State) : Answer := s.answer (dfdivTx Config.cfg s.ports)

end Sys2Proof.Machine
end

