-- ==== Sys2Proof/Machine/CubeRoot.lean ====
section
/-! DEFINITION. CubeRootApproximation and the refinement step (46_cbrt.md): HALLEY, CBRT, CBRTA. -/

namespace Sys2Proof.Machine

/-- The denominator of the refinement (R170), from `c = s^3` and `x`: `(10 s^3 + 16 x) s^3 + x^2`. -/
def halleyDenominator (nan c x : Word) : Word :=
  fma nan (fma nan ten c (fmul nan sixteen x)) c (fmul nan x x)

/-- The numerator of the refinement (R170): `(3 s (2 s^3 + x)) (s^3 - x)`. -/
def halleyNumerator (nan s c x : Word) : Word :=
  fmul nan (fmul nan (fmul nan three s) (fma nan two c x)) (fsub nan c x)

/-- The rounded cube `s^3` of the refinement, two roundings (R170). -/
def halleyCube (nan s : Word) : Word := fmul nan (fmul nan s s) s

/-- One application of the closed-form refinement (R170). The printed formula is normative, whatever its name
(R173, 90_conflicts.md C7). -/
def halley (nan s x : Word) : Word :=
  let c := halleyCube nan s
  fsub nan s (fdiv nan (halleyNumerator nan s c x) (halleyDenominator nan c x))

/-- `HALLEY(s, x)` repeated `n` times (R171). -/
def halleyIter (nan x : Word) : Nat → Word → Word
  | 0, s => s
  | n + 1, s => halleyIter nan x n (halley nan s x)

/-- The in-domain cube root (R171): seed, then `CBRT_ITERS` refinements. -/
def cbrt (k : Cfg) (nan x : Word) : Word := halleyIter nan x k.cbrtIters (cbseed k x)

/-- The correction of `cbrt_accurate` from an estimate `s` (R172): the pair holds `2 s^3` (90_conflicts.md C3). -/
def cbrtCorrection (nan s x : Word) : Word :=
  let pe := dfmul nan s s
  let P := dfmuls nan pe.1 pe.2 (fmul nan two s)
  let D := dfqts nan P.1 P.2 x
  let N := dfmuls nan P.1 P.2 (fmul nan negThreeHalves s)
  fma nan two s (dfdiv nan N.1 N.2 D.1 D.2)

/-- The in-domain accurate cube root (R172). -/
def cbrta (k : Cfg) (nan x : Word) : Word := cbrtCorrection nan (cbrt k nan x) x

/-- `HALLEY` (0x60, F21), R170: the estimate on `a`, the radicand on `b`. -/
def halleyTx (k : Cfg) (p : Ports) : Results := drive1 (halley (nanOf k .halley [p.a, p.b]) p.a p.b)

/-- `CBRT` (0x61, F11), R171. -/
def cbrtTx (k : Cfg) (p : Ports) : Results :=
  drive1 (if isPositiveNormal p.a then cbrt k (nanOf k .cbrt [p.a]) p.a else oodOf k .cbrt p.a)

/-- `CBRTA` (0x62, F11), R172. -/
def cbrtaTx (k : Cfg) (p : Ports) : Results :=
  drive1 (if isPositiveNormal p.a then cbrta k (nanOf k .cbrta [p.a]) p.a else oodOf k .cbrta p.a)

/-- Meaning of `HALLEY`. -/
def execHalley (s : State) : Answer := s.answer (halleyTx Config.cfg s.ports)

/-- Meaning of `CBRT`. -/
def execCbrt (s : State) : Answer := s.answer (cbrtTx Config.cfg s.ports)

/-- Meaning of `CBRTA`. -/
def execCbrta (s : State) : Answer := s.answer (cbrtaTx Config.cfg s.ports)

end Sys2Proof.Machine
end

