-- ==== Sys2Proof/Machine/Exp2.lean ====
section
/-! DEFINITION. Exp2Approximation (44_exp2.md): PEXP2, EXP2. -/

namespace Sys2Proof.Machine

/-- The polynomial approximation of 2^f (R140). -/
def pexp2 (k : Cfg) (nan f : Word) : Word := horner nan f k.exp2C

/-- The in-domain exponential (R141): the power-of-two builder gets `floor(x)` (90_conflicts.md C4). -/
def exp2 (k : Cfg) (nan x : Word) : Word :=
  let i := ffloor nan x
  fmul nan (pow2i nan i) (pexp2 k nan (fsub nan x i))

/-- `PEXP2` (0x40, F11), R140. -/
def pexp2Tx (k : Cfg) (p : Ports) : Results := drive1 (pexp2 k (nanOf k .pexp2 [p.a]) p.a)

/-- `EXP2` (0x41, F11), R141. -/
def exp2Tx (k : Cfg) (p : Ports) : Results :=
  drive1 (if inExp2Domain p.a then exp2 k (nanOf k .exp2 [p.a]) p.a else oodOf k .exp2 p.a)

/-- Meaning of `PEXP2`. -/
def execPexp2 (s : State) : Answer := s.answer (pexp2Tx Config.cfg s.ports)

/-- Meaning of `EXP2`. -/
def execExp2 (s : State) : Answer := s.answer (exp2Tx Config.cfg s.ports)

end Sys2Proof.Machine
end

