-- ==== Sys2Proof/Machine/FusedStep.lean ====
section
/-! DEFINITION. FusedStep and the auxiliary arithmetic (41_fusedstep.md): FMA, DIV, FLOOR, ROUND, FABS. -/

namespace Sys2Proof.Machine

/-- `FMA` (0x10, F31), R102. -/
def fmaTx (k : Cfg) (p : Ports) : Results := drive1 (fma (nanOf k .fma [p.a, p.b, p.c]) p.a p.b p.c)

/-- `DIV` (0x11, F21), R103: dividend on `a`, divisor on `b`. -/
def divTx (k : Cfg) (p : Ports) : Results := drive1 (fdiv (nanOf k .div [p.a, p.b]) p.a p.b)

/-- `FLOOR` (0x12, F11), R104. -/
def floorTx (k : Cfg) (p : Ports) : Results := drive1 (ffloor (nanOf k .floor [p.a]) p.a)

/-- `ROUND` (0x13, F11), R105. -/
def roundTx (k : Cfg) (p : Ports) : Results := drive1 (fround (nanOf k .round [p.a]) p.a)

/-- `FABS` (0x14, F11), R106. -/
def fabsTx (_k : Cfg) (p : Ports) : Results := drive1 (fabs p.a)

/-- Meaning of `FMA`. -/
def execFma (s : State) : Answer := s.answer (fmaTx Config.cfg s.ports)

/-- Meaning of `DIV`. -/
def execDiv (s : State) : Answer := s.answer (divTx Config.cfg s.ports)

/-- Meaning of `FLOOR`. -/
def execFloor (s : State) : Answer := s.answer (floorTx Config.cfg s.ports)

/-- Meaning of `ROUND`. -/
def execRound (s : State) : Answer := s.answer (roundTx Config.cfg s.ports)

/-- Meaning of `FABS`. -/
def execFabs (s : State) : Answer := s.answer (fabsTx Config.cfg s.ports)

end Sys2Proof.Machine
end

