-- ==== Sys2Proof/Machine/Log2.lean ====
section
/-! DEFINITION. Log2Approximation (43_log2.md): PLOG2N, PLOG2D, LOG2. -/

namespace Sys2Proof.Machine

/-- The numerator `(m - 1) * P(m)` (R126). -/
def plog2n (k : Cfg) (nan m : Word) : Word := fmul nan (fsub nan m one) (horner nan m k.log2P)

/-- The denominator `Q(m)` (R127). -/
def plog2d (k : Cfg) (nan m : Word) : Word := horner nan m k.log2Q

/-- The in-domain logarithm (R128): exponent plus the quotient of the two polynomials at the normalised mantissa. -/
def log2 (k : Cfg) (nan x : Word) : Word :=
  let m := mant1 x
  fadd nan (expf nan x) (fdiv nan (plog2n k nan m) (plog2d k nan m))

/-- `PLOG2N` (0x30, F11), R126. -/
def plog2nTx (k : Cfg) (p : Ports) : Results := drive1 (plog2n k (nanOf k .plog2n [p.a]) p.a)

/-- `PLOG2D` (0x31, F11), R127. -/
def plog2dTx (k : Cfg) (p : Ports) : Results := drive1 (plog2d k (nanOf k .plog2d [p.a]) p.a)

/-- `LOG2` (0x32, F11), R128: the domain test decides alone (60_exceptions.md R203). -/
def log2Tx (k : Cfg) (p : Ports) : Results :=
  drive1 (if isPositiveNormal p.a then log2 k (nanOf k .log2 [p.a]) p.a else oodOf k .log2 p.a)

/-- Meaning of `PLOG2N`. -/
def execPlog2n (s : State) : Answer := s.answer (plog2nTx Config.cfg s.ports)

/-- Meaning of `PLOG2D`. -/
def execPlog2d (s : State) : Answer := s.answer (plog2dTx Config.cfg s.ports)

/-- Meaning of `LOG2`. -/
def execLog2 (s : State) : Answer := s.answer (log2Tx Config.cfg s.ports)

end Sys2Proof.Machine
end

