-- ==== Sys2Proof/Machine/Dispatch.lean ====
section
/-! DEFINITION. One arm per operation of the opcode table (30_encoding.md R52), in the table's order. -/

namespace Sys2Proof.Machine

/-- The meaning of each operation. -/
def exec (i : Instr) (s : State) : Host.Outcome State Fault Refusal :=
  match i with
  | .decomp => Sys2Proof.Machine.execDecomp s
  | .compose => Sys2Proof.Machine.execCompose s
  | .mant1 => Sys2Proof.Machine.execMant1 s
  | .expf => Sys2Proof.Machine.execExpf s
  | .pow2i => Sys2Proof.Machine.execPow2i s
  | .cbseed => Sys2Proof.Machine.execCbseed s
  | .fma => Sys2Proof.Machine.execFma s
  | .div => Sys2Proof.Machine.execDiv s
  | .floor => Sys2Proof.Machine.execFloor s
  | .round => Sys2Proof.Machine.execRound s
  | .fabs => Sys2Proof.Machine.execFabs s
  | .mulsign => Sys2Proof.Machine.execMulsign s
  | .plog2n => Sys2Proof.Machine.execPlog2n s
  | .plog2d => Sys2Proof.Machine.execPlog2d s
  | .log2 => Sys2Proof.Machine.execLog2 s
  | .pexp2 => Sys2Proof.Machine.execPexp2 s
  | .exp2 => Sys2Proof.Machine.execExp2 s
  | .redsin => Sys2Proof.Machine.execRedsin s
  | .redcos => Sys2Proof.Machine.execRedcos s
  | .psin => Sys2Proof.Machine.execPsin s
  | .sin => Sys2Proof.Machine.execSin s
  | .cos => Sys2Proof.Machine.execCos s
  | .halley => Sys2Proof.Machine.execHalley s
  | .cbrt => Sys2Proof.Machine.execCbrt s
  | .cbrta => Sys2Proof.Machine.execCbrta s
  | .dfmul => Sys2Proof.Machine.execDfmul s
  | .dfmuls => Sys2Proof.Machine.execDfmuls s
  | .dfqts => Sys2Proof.Machine.execDfqts s
  | .dfdiv => Sys2Proof.Machine.execDfdiv s

end Sys2Proof.Machine
end

