-- ==== Sys2Proof/Machine/Step.lean ====
section
/-! DEFINITION. One step: the block performs the transaction on its ports (70_reset_and_hazards.md R224). -/

namespace Sys2Proof.Machine

/-- The transaction the host presents on the ports: the command word is decoded and its meaning run; a reserved command
word is refused (30_encoding.md R54). There is no fetch and no program counter (10_state.md R21). -/
def step (s : State) : Host.Outcome State Fault Refusal :=
  match decode s.op with
  | some i => exec i s
  | none => .refused (.reservedCommand s.op)

/-- The host drives the command port with the table word `w` of `nbits` bits. The block fetches nothing (20_memory.md
R44): the operation code arrives on port `op`, so this is where `step` finds its next operation (log entry 1). -/
def State.withFetchWord (s : State) (nbits w : Nat) : State := { s with op := commandOfTable nbits w }

end Sys2Proof.Machine
end

