-- ==== Sys2Proof/Machine/Transaction.lean ====
section
/-! DEFINITION. The block as the pure function the spec says it is, `step(Cfg, op, a, b, c, d) = (r0, r1, r2)`
(00_scope.md R3, 70_reset_and_hazards.md R224), for any configuration; and a host that presents transactions one after
another (20_memory.md R41, 60_exceptions.md R209). -/

namespace Sys2Proof.Machine

/-- The result words of operation `i` on the operand ports `p` under the configuration `k`. The meanings of
Dispatch.lean are these results under the block's own `Config.cfg`. -/
def transaction (k : Cfg) (i : Instr) (p : Ports) : Results :=
  match i with
  | .decomp => decompTx k p
  | .compose => composeTx k p
  | .mant1 => mant1Tx k p
  | .expf => expfTx k p
  | .pow2i => pow2iTx k p
  | .cbseed => cbseedTx k p
  | .fma => fmaTx k p
  | .div => divTx k p
  | .floor => floorTx k p
  | .round => roundTx k p
  | .fabs => fabsTx k p
  | .mulsign => mulsignTx k p
  | .plog2n => plog2nTx k p
  | .plog2d => plog2dTx k p
  | .log2 => log2Tx k p
  | .pexp2 => pexp2Tx k p
  | .exp2 => exp2Tx k p
  | .redsin => redsinTx k p
  | .redcos => redcosTx k p
  | .psin => psinTx k p
  | .sin => sinTx k p
  | .cos => cosTx k p
  | .halley => halleyTx k p
  | .cbrt => cbrtTx k p
  | .cbrta => cbrtaTx k p
  | .dfmul => dfmulTx k p
  | .dfmuls => dfmulsTx k p
  | .dfqts => dfqtsTx k p
  | .dfdiv => dfdivTx k p

/-- One presentation of a command word with its operand words (00_scope.md R19). -/
structure Request where
  op : Command
  ports : Ports
  deriving DecidableEq, Repr

/-- What one request gives on a block in state `s`: the host drives the ports, the block takes one step. -/
def serveOne (s : State) (q : Request) : Answer := step (s.present q.op q.ports)

/-- The result words an answer leaves on the result ports; none when the transaction was refused. -/
def answerResults (r : Answer) : Option Results :=
  match r with
  | .next t => t.out
  | .fault _ => none
  | .refused _ => none

/-- The state the next request meets: the one the answer left, or the old one when the transaction has no meaning. -/
def stateAfter (s : State) (r : Answer) : State :=
  match r with
  | .next t => t
  | .fault _ => s
  | .refused _ => s

/-- The results of a sequence of requests, presented one after another to one block that starts in state `s`. -/
def serve (s : State) : List Request → List (Option Results)
  | [] => []
  | q :: rest =>
    let r := serveOne s q
    answerResults r :: serve (stateAfter s r) rest

end Sys2Proof.Machine
end

