-- ==== Sys2Proof/Machine/Formats.lean ====
section
/-! DEFINITION. The port formats of the operations (30_encoding.md R51). -/

namespace Sys2Proof.Machine

/-- A format `F<inputs><outputs>`: how many operand ports an operation reads (`a`, `b`, `c`, `d` in that order) and how
many result ports it drives (`r0`, `r1`, `r2` in that order). -/
inductive Format where
  | f11 | f12 | f13 | f21 | f22 | f31 | f32 | f41
  deriving DecidableEq, Repr

/-- The number of operand ports the format reads. -/
def formatReads (f : Format) : Nat :=
  match f with
  | .f11 | .f12 | .f13 => 1
  | .f21 | .f22 => 2
  | .f31 | .f32 => 3
  | .f41 => 4

/-- The number of result ports the format drives. -/
def formatDrives (f : Format) : Nat :=
  match f with
  | .f11 | .f21 | .f31 | .f41 => 1
  | .f12 | .f22 | .f32 => 2
  | .f13 => 3

/-- R51's table. -/
def formatOf (i : Instr) : Format :=
  match i with
  | .decomp => .f13
  | .compose => .f31
  | .mant1 | .expf | .pow2i | .cbseed => .f11
  | .fma => .f31
  | .div => .f21
  | .floor | .round | .fabs => .f11
  | .mulsign => .f21
  | .plog2n | .plog2d | .log2 => .f11
  | .pexp2 | .exp2 => .f11
  | .redsin | .redcos => .f12
  | .psin | .sin | .cos => .f11
  | .halley => .f21
  | .cbrt | .cbrta => .f11
  | .dfmul => .f22
  | .dfmuls | .dfqts => .f32
  | .dfdiv => .f41

/-- The number of operand ports an operation reads (R51). -/
def readsOf (i : Instr) : Nat := formatReads (formatOf i)

/-- The number of result ports an operation drives (R51). -/
def drivesOf (i : Instr) : Nat := formatDrives (formatOf i)

end Sys2Proof.Machine
end

