-- ==== Sys2Proof/Machine/HostSyntax.lean ====
section
/-! DEFINITION. The host's straight-line programs, one transaction a line (30_encoding.md R57, R58;
60_exceptions.md R212 point 4). Host variables `%name` are numbered. -/

namespace Sys2Proof.Machine

/-- A source operand of a line (R57): a literal word, a decimal float literal `[-]digits / 10^scale`, or a variable. -/
inductive Src where
  | word (w : Word)
  | float (neg : Bool) (digits scale : Nat)
  | var (name : Nat)
  deriving DecidableEq, Repr

/-- A line of a host program: a transaction, or one of the pseudo-instructions of R58. -/
inductive Line where
  | op (i : Instr) (dsts : List Nat) (srcs : List Src)
  | fadd (dst : Nat) (x y : Src)
  | fsub (dst : Nat) (x y : Src)
  | fmul (dst : Nat) (x y : Src)
  | fneg (dst : Nat) (x : Src)
  | f2b (dst : Nat) (x : Src)
  | b2f (dst : Nat) (x : Src)
  deriving DecidableEq, Repr

/-- What a line is after the assembler has replaced the pseudo-instructions (R58). -/
inductive BaseLine where
  /-- One transaction. -/
  | transaction (i : Instr) (dsts : List Nat) (srcs : List Src)
  /-- No transaction: the host copies the word. -/
  | copy (dst : Nat) (x : Src)
  deriving DecidableEq, Repr

end Sys2Proof.Machine
end

