-- ==== Sys2Proof/WellFormed.lean ====
section
/-! DEFINITION. What is well-formed: an operation against the ports (30_encoding.md R51), a configuration against
00_scope.md R8, a host line and a host program against 30_encoding.md R57. -/

namespace Sys2Proof

open Sys2Proof.Machine

/-- An operation fits the block's ports (R25, R51): it reads one to four operand ports and drives one to three result
ports. An operation has no operand of its own, so nothing else can be ill-formed in it. -/
def Instr.wellFormed (i : Instr) : Bool := portsFit (readsOf i) (drivesOf i)
where
  /-- Port counts the block's interface admits. -/
  portsFit (reads drives : Nat) : Bool :=
    decide (1 ≤ reads) && decide (reads ≤ 4) && decide (1 ≤ drives) && decide (drives ≤ 3)

/-- The coefficient list of a log2 polynomial: degree 2 or 3, every entry finite (R8). -/
def log2CoeffsOk (l : List Word) : Bool := (l.length == 3 || l.length == 4) && l.all isFinite

/-- R8's constraints on the constants: list lengths, finite entries, `EXP2_C[0] = 1.0`, one or two iterations. That
`LOG2_Q` is "normalized to 1 at m=1" is no constraint on the words (43_log2.md R127; log entry 5). -/
def Cfg.constantsOk (k : Cfg) : Bool :=
  log2CoeffsOk k.log2P && log2CoeffsOk k.log2Q &&
  (k.exp2C.length == 6 && k.exp2C.all isFinite && k.exp2C.head? == some one) &&
  (k.sinC.length == 6 && k.sinC.all isFinite) &&
  [k.rtau, k.tauHi, k.tauLo, k.rpi, k.piHi, k.piLo, k.invHalfHi, k.invHalfLo, k.halfHi, k.halfLo,
    k.quarterHi, k.quarterLo].all isFinite &&
  (k.cbrtIters == 1 || k.cbrtIters == 2)

/-- R8's constraints on a configuration: those on the constants, and every `NANGEN` word is a quiet NaN (R100). `OOD`
and `CBRT_MAGIC` are unconstrained. -/
def Cfg.Valid (k : Cfg) : Prop :=
  k.constantsOk = true ∧ ∀ (op : Command) (ws : List Word), isQuietNaN (k.nangen op ws) = true

/-- A source operand may be used when it is a literal or a variable an earlier line has written (R57). -/
def srcOk (known : List Nat) (x : Src) : Bool :=
  match x with
  | .word _ => true
  | .float _ _ _ => true
  | .var v => known.contains v

/-- A line is well-formed: its counts equal the format's and it reads no unwritten variable (R57). -/
def lineOk (known : List Nat) (l : Line) : Bool :=
  match l with
  | .op i dsts srcs => dsts.length == drivesOf i && srcs.length == readsOf i && srcs.all (srcOk known)
  | .fadd _ x y | .fsub _ x y | .fmul _ x y => srcOk known x && srcOk known y
  | .fneg _ x | .f2b _ x | .b2f _ x => srcOk known x

/-- The variables a line writes. -/
def lineDsts (l : Line) : List Nat :=
  match l with
  | .op _ dsts _ => dsts
  | .fadd v _ _ | .fsub v _ _ | .fmul v _ _ => [v]
  | .fneg v _ | .f2b v _ | .b2f v _ => [v]

/-- The variables a source operand reads. -/
def srcVars (x : Src) : List Nat :=
  match x with
  | .word _ => []
  | .float _ _ _ => []
  | .var v => [v]

/-- The variables a line reads. -/
def lineReads (l : Line) : List Nat :=
  match l with
  | .op _ _ srcs => srcs.flatMap srcVars
  | .fadd _ x y | .fsub _ x y | .fmul _ x y => srcVars x ++ srcVars y
  | .fneg _ x | .f2b _ x | .b2f _ x => srcVars x

/-- A program is well-formed when each line is, given the variables written before it (R57). -/
def programOk (known : List Nat) : List Line → Bool
  | [] => true
  | l :: rest => lineOk known l && programOk (lineDsts l ++ known) rest

end Sys2Proof
end

