-- ==== Sys2Proof/Machine/HostProgram.lean ====
section
/-! DEFINITION. What a host program does (30_encoding.md R57, R58; 60_exceptions.md R212): the host keeps every value
in its variables, replaces the pseudo-instructions and presents one transaction after another. -/

namespace Sys2Proof.Machine

/-- The host's variables and their words, the latest written first. -/
abbrev HostVars := List (Nat × Word)

/-- Literals of the pseudo-instructions (R58): `1.0f`, `-1.0f`, `-0.0f`. -/
def litOne : Src := .float false 10 1
def litNegOne : Src := .float true 10 1
def litNegZero : Src := .float true 0 1

/-- The expansions of R58. -/
def expand (l : Line) : BaseLine :=
  match l with
  | .op i dsts srcs => .transaction i dsts srcs
  | .fadd r x y => .transaction .fma [r] [x, litOne, y]
  | .fsub r x y => .transaction .fma [r] [y, litNegOne, x]
  | .fmul r x y => .transaction .fma [r] [x, y, litNegZero]
  | .fneg r x => .transaction .mulsign [r] [x, litNegZero]
  | .f2b r x => .copy r x
  | .b2f r x => .copy r x

/-- The word of a source operand; none for a variable no line has written, which may not be read (R57). -/
def readSrc (env : HostVars) (x : Src) : Option Word :=
  match x with
  | .word w => some w
  | .float neg digits scale => some (floatLiteral neg digits scale)
  | .var v => env.lookup v

/-- The operand words bound to `a`, `b`, `c`, `d` in order (R57); a port the format does not read carries a word that
cannot matter (R59). -/
def portsOfWords (ws : List Word) : Ports :=
  ⟨ws.getD 0 0#32, ws.getD 1 0#32, ws.getD 2 0#32, ws.getD 3 0#32⟩

/-- The result words `r0`, `r1`, `r2` as a list. -/
def resultWords (r : Results) : List Word := [r.r0, r.r1, r.r2]

/-- The host after one base line; none when a count does not equal the format's or an unwritten variable is read. -/
def runBase (k : Cfg) (env : HostVars) (l : BaseLine) : Option HostVars :=
  match l with
  | .copy r x => (readSrc env x).map fun w => (r, w) :: env
  | .transaction i dsts srcs =>
    if dsts.length = drivesOf i ∧ srcs.length = readsOf i then
      (srcs.mapM (readSrc env)).map fun ws =>
        dsts.zip (resultWords (transaction k i (portsOfWords ws))) ++ env
    else none

/-- The host after one line. -/
def runLine (k : Cfg) (env : HostVars) (l : Line) : Option HostVars := runBase k env (expand l)

/-- The host after a program, line by line (R212 point 4: no branch, no loop). -/
def runProgram (k : Cfg) (env : HostVars) : List Line → Option HostVars
  | [] => some env
  | l :: rest =>
    match runLine k env l with
    | some env' => runProgram k env' rest
    | none => none

end Sys2Proof.Machine
end

