-- ==== Sys2Proof/Safety.lean ====
section
/-! DEFINITION. The terms the claims use: the rounding rule as the spec states it over the rationals (41_fusedstep.md
R92), words that agree up to the choice of NaN (R100), what every completed transaction leaves on the result ports, a
host that keeps to the assigned command words (60_exceptions.md R200), and the accuracy properties the source promises,
which are hypotheses on a configuration and are assumed nowhere (00_scope.md R9). -/

namespace Sys2Proof.Safety

open Sys2Proof.Machine

/-! ## Rounding, as R92 writes it -/

/-- `f` is the integer nearest to `n`; when `n` is exactly halfway between two integers, the even one. -/
def IsNearestEven (n : ℚ) (f : ℕ) : Prop := |n - f| ≤ 1 / 2 ∧ (|n - f| = 1 / 2 → Even f)

/-- `w` is `rnd(x)` of R92 for the nonzero `x`, line by line: `e`, `q`, `f`, and the three cases of the result. It is
stated over the rationals and uses nothing of the model's own rounding. -/
def RoundsTo (x : ℚ) (w : Word) : Prop :=
  ∃ (e q : ℤ) (f : ℕ),
    (2 : ℚ) ^ e ≤ |x| ∧ |x| < (2 : ℚ) ^ (e + 1) ∧ q = max e (-126) - 23 ∧
    IsNearestEven (|x| / (2 : ℚ) ^ q) f ∧
    (if (2 : ℚ) ^ (128 : ℤ) ≤ f * (2 : ℚ) ^ q then w = infWord (decide (x < 0))
     else if f = 0 then w = zeroWord (decide (x < 0))
     else isFinite w = true ∧ val w = (if x < 0 then -1 else 1) * (f * (2 : ℚ) ^ q))

/-- The word is the zero word of an exact zero sum of two terms of signs `s` and `t` (R93 case 5). -/
def zeroSum (s t : Bool) : Word := if s = t then zeroWord s else zeroWord false

/-- `fround` with the other value of R97's optional parameter `ROUND_TIES`, `even`. The block rounds halfway cases away
from zero (the decision, 92_eei_decisions.md D12); this function only states what that decision matters for (log
entry 9). -/
def froundEven (nan x : Word) : Word :=
  if isNaN x then nan
  else if isInf x || isZero x then x
  else enc (signBit x) (nearestEven (magUnits x) (2 ^ 149) * 2 ^ 149)

/-! ## Agreement up to the NaN word -/

/-- The two words are equal, or both are NaNs. `Cfg.NANGEN` depends on the command word, so a composite operation and
its host sequence can agree on a NaN result only this far (R100; log entry 12). -/
def SameOrNaN (u v : Word) : Prop := u = v ∨ (isNaN u = true ∧ isNaN v = true)

/-- A NaN that the arithmetic returns is a quiet one (R100). -/
def QuietIfNaN (w : Word) : Prop := isNaN w = true → isQuietNaN w = true

/-! ## What a completed transaction leaves on the result ports -/

/-- Undriven result ports return zero (30_encoding.md R59). -/
def UndrivenAreZero (i : Instr) (r : Results) : Prop :=
  (drivesOf i < 2 → r.r1 = 0#32) ∧ (drivesOf i < 3 → r.r2 = 0#32)

/-- What the spec says of the driven words of operation `i` for every operand: the ranges of DECOMP's fields (R70), the
exponent field of MANT1 (R72), the finite result of EXPF (R73), the mask of POW2I (R74), the cleared sign of FABS (R98)
and of REDSIN's magnitude (R150), REDCOS's two sign words (R151, R155), and quiet NaNs from the arithmetic (R100). The
public functions may return any word, since they do so outside their domain (R12). -/
def DrivenShape (i : Instr) (r : Results) : Prop :=
  match i with
  | .decomp => r.r0.toNat < 2 ∧ r.r1.toNat < 2 ^ 8 ∧ r.r2.toNat < 2 ^ 23
  | .compose => True
  | .mant1 => expField r.r0 = 127#8
  | .expf => isFinite r.r0 = true
  | .pow2i => r.r0 &&& 0x807FFFFF#32 = 0#32
  | .cbseed => True
  | .fma => QuietIfNaN r.r0
  | .div => QuietIfNaN r.r0
  | .floor => QuietIfNaN r.r0
  | .round => QuietIfNaN r.r0
  | .fabs => signBit r.r0 = false
  | .mulsign => True
  | .plog2n => QuietIfNaN r.r0
  | .plog2d => QuietIfNaN r.r0
  | .log2 => True
  | .pexp2 => QuietIfNaN r.r0
  | .exp2 => True
  | .redsin => QuietIfNaN r.r0 ∧ QuietIfNaN r.r1 ∧ signBit r.r1 = false
  | .redcos => QuietIfNaN r.r0 ∧ (r.r1 = one ∨ r.r1 = negOne)
  | .psin => QuietIfNaN r.r0
  | .sin => True
  | .cos => True
  | .halley => QuietIfNaN r.r0
  | .cbrt => True
  | .cbrta => True
  | .dfmul => QuietIfNaN r.r0 ∧ QuietIfNaN r.r1
  | .dfmuls => QuietIfNaN r.r0 ∧ QuietIfNaN r.r1
  | .dfqts => QuietIfNaN r.r0 ∧ QuietIfNaN r.r1
  | .dfdiv => QuietIfNaN r.r0

/-- The invariant of the ports: whatever result words stand there for the operation on port `op` have the shape the
spec gives that operation's results. -/
def PortsInv (s : State) : Prop :=
  ∀ (i : Instr) (r : Results), decode s.op = some i → s.out = some r →
    UndrivenAreZero i r ∧ DrivenShape i r

/-! ## Safe hosts -/

/-- The host presents assigned command words only (R200, 30_encoding.md R54). -/
def HostIsSafe (qs : List Request) : Prop := ∀ q ∈ qs, (decode q.op).isSome = true

/-! ## Accuracy: how an error is measured

The source promises errors "within a few ULP" (R9). The ranges and the one stated step are the rules'; the bounds, the
other steps, the way steps are accumulated and the exact meaning of "measured ULP error" are open (91_not_in_source.md
N7, N9, N11) and are arguments. The readings of ULP, grid, cast, order of magnitude and "most" below are the model's
(DESIGN CHOICE, log entry 16). -/

/-- `u` is one ULP at magnitude `|y|` (R18: "the gap between two adjacent representable floating-point values near a given
magnitude"): R92's spacing near `y`, and the smallest subnormal at zero. -/
def IsUlp (y u : ℝ) : Prop :=
  (y = 0 ∧ u = (2 : ℝ) ^ (-149 : ℤ)) ∨
    ∃ e : ℤ, (2 : ℝ) ^ e ≤ |y| ∧ |y| < (2 : ℝ) ^ (e + 1) ∧ u = (2 : ℝ) ^ (max e (-126) - 23)

/-- `r` is the correctly rounded word of the real `y`: no finite word is nearer, and of two equally near ones it is the
even one. -/
def CorrectlyRounded (y : ℝ) (r : Word) : Prop :=
  isFinite r = true ∧ ∀ v : Word, isFinite v = true →
    |(val r : ℝ) - y| ≤ |(val v : ℝ) - y| ∧
    (|(val r : ℝ) - y| = |(val v : ℝ) - y| → val v ≠ val r → r.getLsbD 0 = false)

/-- `r` is a word that a double-precision computation of `y` may give when it is cast to single precision: no finite word
lies strictly between the two. The rounding of the cast is open (N11), so both neighbours of `y` are admitted; the
computation's own error is taken as too small to leave them (DESIGN CHOICE, log entry 16). -/
def IsCastOf (y : ℝ) (r : Word) : Prop :=
  isFinite r = true ∧ ∀ v : Word, isFinite v = true →
    ¬ (y < (val v : ℝ) ∧ (val v : ℝ) < (val r : ℝ)) ∧ ¬ ((val r : ℝ) < (val v : ℝ) ∧ (val v : ℝ) < y)

/-- What a result is measured against: the real value in fractional ULPs, its correctly rounded word (the two readings of
N11 and 46_cbrt.md R175), or a double-precision reference cast to single precision (45_sincos.md R157). -/
inductive Reading where
  | real | correctlyRounded | castOfDouble
  deriving DecidableEq, Repr

/-- `t` is the value a result for the real `y` is measured against. -/
def IsTarget (rd : Reading) (y t : ℝ) : Prop :=
  match rd with
  | .real => t = y
  | .correctlyRounded => ∃ r, CorrectlyRounded y r ∧ t = (val r : ℝ)
  | .castOfDouble => ∃ r, IsCastOf y r ∧ t = (val r : ℝ)

/-- `w` is finite and within `bound` ULP of the value it is measured against. -/
def WithinUlps (rd : Reading) (bound y : ℝ) (w : Word) : Prop :=
  isFinite w = true ∧ ∃ t u, IsTarget rd y t ∧ IsUlp t u ∧ |(val w : ℝ) - t| ≤ bound * u

/-- The finite words of value in [lo, hi). -/
def wordsIn (lo hi : ℚ) : Set Word := { x | isFinite x = true ∧ lo ≤ val x ∧ val x < hi }

/-- `grid i` is the word taken for the sample `lo + i * step` of [lo, hi): the first is `lo` itself, and each stays in the
range and nearer to its own sample than to any other. How the steps are accumulated is open (95_test_vectors.md T4), so
the words are an argument. -/
def IsGrid (lo hi step : ℚ) (grid : ℕ → Word) : Prop :=
  val (grid 0) = lo ∧
    ∀ i : ℕ, lo + i * step < hi → grid i ∈ wordsIn lo hi ∧ |val (grid i) - (lo + i * step)| < step / 2

/-- The indices of the samples of [lo, hi). -/
def gridIndices (lo hi step : ℚ) : Set ℕ := { i | lo + i * step < hi }

/-- The words a grid samples. -/
def gridWords (lo hi step : ℚ) (grid : ℕ → Word) : Set Word := grid '' gridIndices lo hi step

/-- The function `f` stays within `bound` ULP of `ref` on the sampled words. -/
def BoundedError (rd : Reading) (bound : ℝ) (samples : Set Word) (f : Word → Word) (ref : ℝ → ℝ) : Prop :=
  ∀ x ∈ samples, WithinUlps rd bound (ref (val x : ℝ)) (f x)

/-- The result word of a one-operand operation under a configuration. -/
def publicWord (k : Cfg) (i : Instr) (x : Word) : Word := (transaction k i ⟨x, 0#32, 0#32, 0#32⟩).r0

/-! ## Accuracy: hypotheses on a configuration, assumed nowhere -/

/-- `ULP_LOG2` is met: "for all x in [1, 1000)" (R9, 43_log2.md R130). -/
def MeetsLog2Bound (k : Cfg) (rd : Reading) (bound : ℝ) : Prop :=
  BoundedError rd bound (wordsIn 1 1000) (publicWord k .log2) (Real.logb 2)

/-- `ULP_EXP2` is met over [-10, 10), sampled at steps of an open size (R9, 44_exp2.md R143, N9). -/
def MeetsExp2Bound (k : Cfg) (rd : Reading) (bound : ℝ) (step : ℚ) (grid : ℕ → Word) : Prop :=
  IsGrid (-10) 10 step grid ∧
    BoundedError rd bound (gridWords (-10) 10 step grid) (publicWord k .exp2) (fun x => (2 : ℝ) ^ x)

/-- `TOL_ROUNDTRIP` is met: `exp2(log2(x))` approximates `x` within the relative tolerance `tol` on the tested positive
domain [1, 1000) (R9, R130, R143; 95_test_vectors.md T3). -/
def MeetsRoundTripTolerance (k : Cfg) (tol : ℚ) : Prop :=
  ∀ x ∈ wordsIn 1 1000,
    let w := publicWord k .exp2 (publicWord k .log2 x)
    isFinite w = true ∧ |val w - val x| ≤ tol * |val x|

/-- `ULP_SIN` is met: on [-100, 100) at 0.1 steps, against a double-precision reference cast to single precision (R9,
45_sincos.md R157). -/
def MeetsSinBound (k : Cfg) (bound : ℝ) (grid : ℕ → Word) : Prop :=
  IsGrid (-100) 100 (1 / 10) grid ∧
    BoundedError .castOfDouble bound (gridWords (-100) 100 (1 / 10) grid) (publicWord k .sin) Real.sin

/-- `ULP_COS` is met: the same range, step and reference (R9, R157). -/
def MeetsCosBound (k : Cfg) (bound : ℝ) (grid : ℕ → Word) : Prop :=
  IsGrid (-100) 100 (1 / 10) grid ∧
    BoundedError .castOfDouble bound (gridWords (-100) 100 (1 / 10) grid) (publicWord k .cos) Real.cos

/-- The real cube root of a positive number. -/
def IsCubeRoot (x y : ℝ) : Prop := 0 < y ∧ y ^ 3 = x

/-- `ULP_CBRT` is met, read as a bound on the root: `CBRT` stays within `bound` ULP of the cube root on all of [1, 1000)
(R9, 46_cbrt.md R175). -/
def MeetsCbrtBound (k : Cfg) (rd : Reading) (bound : ℝ) : Prop :=
  ∀ x ∈ wordsIn 1 1000, ∃ y : ℝ, IsCubeRoot (val x : ℝ) y ∧ WithinUlps rd bound y (publicWord k .cbrt x)

/-- `ULP_CBRT` is met, read on the cube: "`cbrt(x)^3` approximates `x`" within `bound` ULP of `x` on all of [1, 1000)
(R175). -/
def MeetsCbrtCubeBound (k : Cfg) (bound : ℝ) : Prop :=
  ∀ x ∈ wordsIn 1 1000, isFinite (publicWord k .cbrt x) = true ∧
    ∃ u : ℝ, IsUlp (val x : ℝ) u ∧ |(val (publicWord k .cbrt x) : ℝ) ^ 3 - (val x : ℝ)| ≤ bound * u

/-- "`cbrt_accurate(x)` must have strictly smaller (or equal) measured ULP error than `cbrt(x)` for every sampled `x`"
(R175); the step is open (N9). Both errors are counted in the ULP of one target, which therefore drops out. -/
def AccurateCbrtIsNoWorse (k : Cfg) (rd : Reading) (step : ℚ) (grid : ℕ → Word) : Prop :=
  IsGrid 1 1000 step grid ∧
    ∀ x ∈ gridWords 1 1000 step grid,
      isFinite (publicWord k .cbrt x) = true ∧ isFinite (publicWord k .cbrta x) = true ∧
      ∃ y t : ℝ, IsCubeRoot (val x : ℝ) y ∧ IsTarget rd y t ∧
        |(val (publicWord k .cbrta x) : ℝ) - t| ≤ |(val (publicWord k .cbrt x) : ℝ) - t|

/-- On every sampled word operation `i` stays within `bound` ULP of the cube root. -/
def CbrtErrorAtMost (k : Cfg) (rd : Reading) (i : Instr) (bound : ℝ) (samples : Set Word) : Prop :=
  ∀ x ∈ samples, ∃ y : ℝ, IsCubeRoot (val x : ℝ) y ∧ WithinUlps rd bound y (publicWord k i x)

/-- The error of `CBRTA` is "smaller than `cbrt(x)`'s by roughly one order of magnitude" (R175): it is `factor` times
smaller, in the sense that `CBRT` has some bound on the samples and every bound of `CBRT` gives one `factor` times smaller
for `CBRTA`. "Roughly" ten leaves the number open, so `factor` is an argument, held nearer to one order of magnitude than
to none or two (log entry 16). -/
def AccurateCbrtGains (k : Cfg) (rd : Reading) (factor : ℝ) (step : ℚ) (grid : ℕ → Word) : Prop :=
  (0 < factor ∧ 10 ≤ factor ^ 2 ∧ factor ^ 2 ≤ 1000) ∧ IsGrid 1 1000 step grid ∧
    (∃ b, CbrtErrorAtMost k rd .cbrt b (gridWords 1 1000 step grid)) ∧
    ∀ b, CbrtErrorAtMost k rd .cbrt b (gridWords 1 1000 step grid) →
      CbrtErrorAtMost k rd .cbrta (b / factor) (gridWords 1 1000 step grid)

/-- The samples on which `CBRTA`'s error is below one ULP. -/
def subUlpIndices (k : Cfg) (rd : Reading) (step : ℚ) (grid : ℕ → Word) : Set ℕ :=
  { i | i ∈ gridIndices 1 1000 step ∧
    ∃ b < 1, ∃ y : ℝ, IsCubeRoot (val (grid i) : ℝ) y ∧ WithinUlps rd b y (publicWord k .cbrta (grid i)) }

/-- `CBRTA` is "sub-ULP in most of the tested domain" (R175): on more than half of the samples, and on at least the open
share `share` of them. -/
def AccurateCbrtIsMostlySubUlp (k : Cfg) (rd : Reading) (share : ℚ) (step : ℚ) (grid : ℕ → Word) : Prop :=
  IsGrid 1 1000 step grid ∧
    (gridIndices 1 1000 step).ncard < 2 * (subUlpIndices k rd step grid).ncard ∧
    share * (gridIndices 1 1000 step).ncard ≤ (subUlpIndices k rd step grid).ncard

/-- The scenario of R175 at 27.0: `CBRT(27.0)` is within `bound` ULP of 3.0, and `CBRTA(27.0)` is closer to 3.0 than it. -/
def CubeRootOf27Scenario (k : Cfg) (bound : ℝ) : Prop :=
  WithinUlps .real bound 3 (publicWord k .cbrt 0x41D80000#32) ∧
    isFinite (publicWord k .cbrta 0x41D80000#32) = true ∧
    |val (publicWord k .cbrta 0x41D80000#32) - 3| < |val (publicWord k .cbrt 0x41D80000#32) - 3|

end Sys2Proof.Safety
end

