-- ==== Sys2Proof/Certificates/Slice0/Obligations.lean ====
section
/-! DEFINITION. The statements for the provers. `exec i s = .next { s with out := some r }` says three things at once:
the operation completes, the result ports carry `r`, and every other port is unchanged (the frame; the block has no
other state, 10_state.md R20 to R29). A statement over every configuration `k` speaks of `transaction k`, which
`MeaningsAreTheTransactionFunction` ties to `exec`. -/

open Sys2Proof Sys2Proof.Machine Sys2Proof.Safety

/-! ## The machine -/

/-- 70_reset_and_hazards.md R224, 30_encoding.md R50: a step runs the operation on port `op` and nothing else. -/
def Obligations.StepRunsTheDecodedOperation : Prop :=
  ∀ (s : State) (i : Instr), decode s.op = some i → step s = exec i s

/-- R224: the block is the function `step(Cfg, op, a, b, c, d) = (r0, r1, r2)`; each meaning is that function under the
block's own configuration, and leaves the input ports as the host drives them. -/
def Obligations.MeaningsAreTheTransactionFunction : Prop :=
  ∀ (i : Instr) (s : State),
    exec i s = .next { s with out := some (transaction Config.cfg i ⟨s.a, s.b, s.c, s.d⟩) }

/-- R54: the 227 codes are refused, every other code completes. -/
def Obligations.ReservedCommandsAreRefused : Prop :=
  ∀ (s : State),
    let n := s.op.toNat
    let reserved := (0x06 ≤ n ∧ n ≤ 0x0F) ∨ (0x15 ≤ n ∧ n ≤ 0x1F) ∨ (0x21 ≤ n ∧ n ≤ 0x2F) ∨ (0x33 ≤ n ∧ n ≤ 0x3F) ∨
      (0x42 ≤ n ∧ n ≤ 0x4F) ∨ (0x55 ≤ n ∧ n ≤ 0x5F) ∨ (0x63 ≤ n ∧ n ≤ 0x6F) ∨ (0x74 ≤ n ∧ n ≤ 0x7F) ∨
      (0x80 ≤ n ∧ n ≤ 0xFF)
    (reserved → step s = .refused (.reservedCommand s.op)) ∧
    (¬ reserved → ∃ r, step s = .next { s with out := some r })

/-- R52: the codes and the formats of the 29 operations, row by row. -/
def Obligations.OpcodeMapIsTheTable : Prop :=
  ∀ row ∈ (
    [(0x00#8, .decomp, .f13), (0x01#8, .compose, .f31), (0x02#8, .mant1, .f11), (0x03#8, .expf, .f11),
      (0x04#8, .pow2i, .f11), (0x05#8, .cbseed, .f11), (0x10#8, .fma, .f31), (0x11#8, .div, .f21),
      (0x12#8, .floor, .f11), (0x13#8, .round, .f11), (0x14#8, .fabs, .f11), (0x20#8, .mulsign, .f21),
      (0x30#8, .plog2n, .f11), (0x31#8, .plog2d, .f11), (0x32#8, .log2, .f11), (0x40#8, .pexp2, .f11),
      (0x41#8, .exp2, .f11), (0x50#8, .redsin, .f12), (0x51#8, .redcos, .f12), (0x52#8, .psin, .f11),
      (0x53#8, .sin, .f11), (0x54#8, .cos, .f11), (0x60#8, .halley, .f21), (0x61#8, .cbrt, .f11),
      (0x62#8, .cbrta, .f11), (0x70#8, .dfmul, .f22), (0x71#8, .dfmuls, .f32), (0x72#8, .dfqts, .f32),
      (0x73#8, .dfdiv, .f41)] : List (Command × Instr × Format)),
    decode row.1 = some row.2.1 ∧ formatOf row.2.1 = row.2.2

/-- R50, R52: decoder and encoder agree in both directions; no two operations share a command word. -/
def Obligations.DecodeAndEncodeAgree : Prop :=
  (∀ i : Instr, decode (encode i) = some i ∧ decodeTableWord 8 (encode i).toNat = some i) ∧
  (∀ (w : Command) (i : Instr), decode w = some i → encode i = w)

/-- R200: every assigned command word completes and returns result words, whatever the operands; no step faults. -/
def Obligations.AssignedCommandsAlwaysComplete : Prop :=
  (∀ (s : State), (decode s.op).isSome = true → ∃ r, step s = .next { s with out := some r }) ∧
  (∀ (s : State) (f : Fault), step s ≠ .fault f)

/-- R59, both sentences, for every operation: two states that agree on the ports the format reads give the same result
words, and the result ports the format does not drive return zero. -/
def Obligations.UnreadPortsIgnoredUndrivenPortsZero : Prop :=
  ∀ (i : Instr) (s t : State),
    s.a = t.a → (2 ≤ readsOf i → s.b = t.b) → (3 ≤ readsOf i → s.c = t.c) → (4 ≤ readsOf i → s.d = t.d) →
    ∃ r, exec i s = .next { s with out := some r } ∧ exec i t = .next { t with out := some r } ∧
      (drivesOf i < 2 → r.r1 = 0#32) ∧ (drivesOf i < 3 → r.r2 = 0#32)

/-- R38: presenting the same transaction twice gives the same results twice. -/
def Obligations.StepIsIdempotent : Prop :=
  ∀ (s t : State), step s = .next t → step t = .next t

/-- R41: any sequence of transactions gives each one the results it gives alone, from any state of the block; so does
any reordering of them. -/
def Obligations.RequestsAreServedAsIfAlone : Prop :=
  ∀ (s : State) (qs : List Request),
    serve s qs = qs.map (fun q => answerResults (serveOne State.reset q)) ∧
    ∀ qs', qs'.Perm qs → (serve s qs').Perm (serve s qs)

/-- R29, R220: no result word stands on the ports after reset, and the first transaction after reset gives what it gives
in every other state. -/
def Obligations.ResetHasNoArchitecturalEffect : Prop :=
  State.reset.out = none ∧
  ∀ (s : State) (q : Request), answerResults (serveOne State.reset q) = answerResults (serveOne s q)

/-- The result ports keep the shape the spec gives each operation's results (R59, R70, R72, R73, R74, R98, R100, R150,
R151): every step keeps it, from every state. -/
def Obligations.StepKeepsPortsInvariant : Prop :=
  ∀ (s t : State), PortsInv s → step s = .next t → PortsInv t

/-- The invariant of `StepKeepsPortsInvariant` holds after reset. -/
def Obligations.ResetMeetsPortsInvariant : Prop := PortsInv State.reset

/-! ## BitDecomposition -/

/-- R70: sign, exponent field and mantissa field of the operand, as numbers. -/
def Obligations.DecompSplitsTheFields : Prop :=
  encode .decomp = 0x00#8 ∧
  ∀ (s : State), ∃ r, exec .decomp s = .next { s with out := some r } ∧
    r.r0.toNat = s.a.toNat / 2 ^ 31 ∧ r.r1.toNat = s.a.toNat / 2 ^ 23 % 2 ^ 8 ∧ r.r2.toNat = s.a.toNat % 2 ^ 23

/-- R71: the join of the three right-aligned fields; upper bits are ignored. -/
def Obligations.ComposeJoinsTheFields : Prop :=
  encode .compose = 0x01#8 ∧
  ∀ (s : State), ∃ w, exec .compose s = .next { s with out := some ⟨w, 0#32, 0#32⟩ } ∧
    w.toNat = s.a.toNat % 2 * 2 ^ 31 + s.b.toNat % 2 ^ 8 * 2 ^ 23 + s.c.toNat % 2 ^ 23

/-- R77, both directions. -/
def Obligations.FieldRoundTrip : Prop :=
  (∀ (s t : State) (r : Results), exec .decomp s = .next { s with out := some r } →
    t.a = r.r0 → t.b = r.r1 → t.c = r.r2 →
    exec .compose t = .next { t with out := some ⟨s.a, 0#32, 0#32⟩ }) ∧
  (∀ (s t : State) (w : Word), s.a.toNat < 2 → s.b.toNat < 256 → s.c.toNat < 2 ^ 23 →
    exec .compose s = .next { s with out := some ⟨w, 0#32, 0#32⟩ } → t.a = w →
    exec .decomp t = .next { t with out := some ⟨s.a, s.b, s.c⟩ })

/-- R72: only bits 30:23 change; a positive normal operand gives `1 + M/2^23 = val(a) / 2^(E-127)` in [1, 2). -/
def Obligations.MantOneNormalises : Prop :=
  encode .mant1 = 0x02#8 ∧
  ∀ (s : State), ∃ w, exec .mant1 s = .next { s with out := some ⟨w, 0#32, 0#32⟩ } ∧
    w = (s.a &&& 0x807FFFFF#32) ||| 0x3F800000#32 ∧
    signBit w = signBit s.a ∧ mantField w = mantField s.a ∧ expField w = 127#8 ∧
    (signBit s.a = false → isNormal s.a = true →
      1 ≤ val w ∧ val w < 2 ∧ val w * (2 : ℚ) ^ ((expField s.a).toNat - 127 : ℤ) = val s.a)

/-- R73: the synthetic float equals 256 + E(a), and the result is the integer E(a) - 127, exactly, for every word. -/
def Obligations.ExpfReadsTheUnbiasedExponent : Prop :=
  encode .expf = 0x03#8 ∧
  ∀ (s : State), ∃ w, exec .expf s = .next { s with out := some ⟨w, 0#32, 0#32⟩ } ∧
    val (0x43800000#32 ||| ((s.a >>> 8) &&& 0x007F8000#32)) = 256 + (expField s.a).toNat ∧
    w = fsub (nanOf Config.cfg .expf [s.a]) (0x43800000#32 ||| ((s.a >>> 8) &&& 0x007F8000#32)) 0x43BF8000#32 ∧
    isFinite w = true ∧ val w = ((expField s.a).toNat : ℚ) - 127 ∧ ((expField s.a).toNat = 127 → w = 0#32)

/-- R74: the bit trick on every word; for an integer operand i in [-126, 127] it is the word of 2^i. -/
def Obligations.PowTwoBuildsThePower : Prop :=
  encode .pow2i = 0x04#8 ∧
  ∀ (s : State), ∃ w, exec .pow2i s = .next { s with out := some ⟨w, 0#32, 0#32⟩ } ∧
    w = (fadd (nanOf Config.cfg .pow2i [s.a]) s.a 0x43BF8000#32 <<< 8) &&& 0x7F800000#32 ∧
    ∀ (i : ℤ), isFinite s.a = true → val s.a = i → -126 ≤ i → i ≤ 127 →
      w.toNat = (i + 127).toNat * 2 ^ 23 ∧ val w = (2 : ℚ) ^ i

/-- R75: unsigned floor division by 3 plus the magic constant, modulo 2^32, for every word. -/
def Obligations.CbseedDividesAndBiases : Prop :=
  encode .cbseed = 0x05#8 ∧
  ∀ (s : State), ∃ w, exec .cbseed s = .next { s with out := some ⟨w, 0#32, 0#32⟩ } ∧
    w.toNat = (s.a.toNat / 3 + Config.cfg.cbrtMagic.toNat) % 2 ^ 32

/-! ## The one rounding and the arithmetic -/

/-- R92: the model's rounding of a nonzero quotient is the rule's rounding, stated over the rationals. -/
def Obligations.RoundingFollowsItsRule : Prop :=
  ∀ (neg : Bool) (num den : Nat), 0 < num → 0 < den →
    RoundsTo ((if neg then -1 else 1) * ((num : ℚ) / den)) (rnd neg num den)

/-- R92's consequences: overflow exactly from 2^128 - 2^103, a signed zero exactly up to 2^-150, and a finite result is a representable number nearest to the exact one. -/
def Obligations.RoundingIsNearestWithItsThresholds : Prop :=
  ∀ (neg : Bool) (num den : Nat), 0 < num → 0 < den →
    let x : ℚ := (if neg then -1 else 1) * ((num : ℚ) / den)
    let w := rnd neg num den
    (w = infWord neg ↔ (2 : ℚ) ^ 128 - (2 : ℚ) ^ 103 ≤ |x|) ∧
    (w = zeroWord neg ↔ |x| ≤ (2 : ℚ) ^ (-150 : ℤ)) ∧
    (w ≠ infWord neg → isFinite w = true ∧ ∀ v : Word, isFinite v = true → |val w - x| ≤ |val v - x|)

/-- R93, R102: the five cases of the fused multiply-add, in their order; the NaN word is a quiet NaN. -/
def Obligations.FmaFollowsTheCasesOfItsRule : Prop :=
  encode .fma = 0x10#8 ∧
  ∀ (s : State), isQuietNaN (nanOf Config.cfg .fma [s.a, s.b, s.c]) = true ∧
    ∃ w, exec .fma s = .next { s with out := some ⟨w, 0#32, 0#32⟩ } ∧
    (if isNaN s.a = true ∨ isNaN s.b = true ∨ isNaN s.c = true then w = nanOf Config.cfg .fma [s.a, s.b, s.c]
     else if (isInf s.a = true ∧ isZero s.b = true) ∨ (isZero s.a = true ∧ isInf s.b = true) then
       w = nanOf Config.cfg .fma [s.a, s.b, s.c]
     else if isInf s.a = true ∨ isInf s.b = true then
       (if isInf s.c = true ∧ signBit s.c ≠ (signBit s.a ^^ signBit s.b) then
          w = nanOf Config.cfg .fma [s.a, s.b, s.c]
        else w = infWord (signBit s.a ^^ signBit s.b))
     else if isInf s.c = true then w = s.c
     else if val s.a * val s.b + val s.c ≠ 0 then RoundsTo (val s.a * val s.b + val s.c) w
     else if val s.a * val s.b = 0 then w = zeroSum (signBit s.a ^^ signBit s.b) (signBit s.c)
     else w = 0#32)

/-- R94 on finite operands: `fadd`, `fsub` and `fmul` round the exact sum, difference and product once; an exact zero
sum is `+0` but for `(-0) + (-0)`, and a zero product has the product's sign. -/
def Obligations.SumDifferenceProductAreIeee : Prop :=
  ∀ (nan x y : Word), isFinite x = true → isFinite y = true →
    (val x + val y ≠ 0 → RoundsTo (val x + val y) (fadd nan x y)) ∧
    (val x + val y = 0 → fadd nan x y = if x = 0x80000000#32 ∧ y = 0x80000000#32 then 0x80000000#32 else 0#32) ∧
    (val x - val y ≠ 0 → RoundsTo (val x - val y) (fsub nan x y)) ∧
    (val x - val y = 0 → fsub nan x y = if x = 0x80000000#32 ∧ y = 0#32 then 0x80000000#32 else 0#32) ∧
    (val x * val y ≠ 0 → RoundsTo (val x * val y) (fmul nan x y)) ∧
    (val x * val y = 0 → fmul nan x y = zeroWord (signBit x ^^ signBit y))

/-- R108's example: the single rounding gives 2^-46, a multiplication followed by an addition gives zero. -/
def Obligations.SingleRoundingIsRequired : Prop :=
  (∀ (s : State), s.a = 0x3F800001#32 → s.b = 0x3F800001#32 → s.c = 0xBF800002#32 →
    exec .fma s = .next { s with out := some ⟨0x28800000#32, 0#32, 0#32⟩ }) ∧
  (∀ nan : Word, fadd nan (fmul nan 0x3F800001#32 0x3F800001#32) 0xBF800002#32 = 0#32)

/-- R95, R103: the six cases of division, in their order; nothing is signalled. -/
def Obligations.DivFollowsTheCasesOfItsRule : Prop :=
  encode .div = 0x11#8 ∧
  ∀ (s : State), ∃ w, exec .div s = .next { s with out := some ⟨w, 0#32, 0#32⟩ } ∧
    (if isNaN s.a = true ∨ isNaN s.b = true then w = nanOf Config.cfg .div [s.a, s.b]
     else if isInf s.a = true then
       (if isInf s.b = true then w = nanOf Config.cfg .div [s.a, s.b] else w = infWord (signBit s.a ^^ signBit s.b))
     else if isInf s.b = true then w = zeroWord (signBit s.a ^^ signBit s.b)
     else if isZero s.b = true then
       (if isZero s.a = true then w = nanOf Config.cfg .div [s.a, s.b] else w = infWord (signBit s.a ^^ signBit s.b))
     else if isZero s.a = true then w = zeroWord (signBit s.a ^^ signBit s.b)
     else RoundsTo (val s.a / val s.b) w)

/-- R96, R104: the largest integer not above the operand, exactly, with the operand's sign bit. -/
def Obligations.FloorIsTheIntegerBelow : Prop :=
  encode .floor = 0x12#8 ∧
  ∀ (s : State), ∃ w, exec .floor s = .next { s with out := some ⟨w, 0#32, 0#32⟩ } ∧
    (if isNaN s.a = true then w = nanOf Config.cfg .floor [s.a]
     else if isInf s.a = true ∨ isZero s.a = true then w = s.a
     else isFinite w = true ∧ val w = ((⌊val s.a⌋ : ℤ) : ℚ) ∧ signBit w = signBit s.a)

/-- R97, R105: the nearest integer, ties away from zero, exactly, with the operand's sign bit also on a zero result. -/
def Obligations.RoundIsTheNearestIntegerTiesAway : Prop :=
  encode .round = 0x13#8 ∧
  ∀ (s : State), ∃ w, exec .round s = .next { s with out := some ⟨w, 0#32, 0#32⟩ } ∧
    (if isNaN s.a = true then w = nanOf Config.cfg .round [s.a]
     else if isInf s.a = true ∨ isZero s.a = true then w = s.a
     else isFinite w = true ∧ |val w| = ((⌊|val s.a| + 1 / 2⌋ : ℤ) : ℚ) ∧ signBit w = signBit s.a)

/-- R97's remark on `ROUND_TIES`: the two tie rules agree on every finite word whose magnitude is not an integer plus one
half, and differ on `n + 1/2` exactly for even `n`. -/
def Obligations.TieRuleMattersOnlyAtHalves : Prop :=
  ∀ (nan x : Word), isFinite x = true →
    ((∀ n : ℕ, |val x| ≠ n + 1 / 2) → froundEven nan x = fround nan x) ∧
    (∀ n : ℕ, |val x| = n + 1 / 2 → (froundEven nan x = fround nan x ↔ n % 2 = 1))

/-- R98, R106 (FABS), R99 (`fneg`) and R120, R121 (MULSIGN): only bit 31 changes, for every word, NaNs included. -/
def Obligations.SignOperationsMoveOnlyBitThirtyOne : Prop :=
  encode .fabs = 0x14#8 ∧ encode .mulsign = 0x20#8 ∧
  (∀ (s : State), ∃ w, exec .fabs s = .next { s with out := some ⟨w, 0#32, 0#32⟩ } ∧ w.toNat = s.a.toNat % 2 ^ 31) ∧
  (∀ (s : State), ∃ w, exec .mulsign s = .next { s with out := some ⟨w, 0#32, 0#32⟩ } ∧
    w.toNat % 2 ^ 31 = s.a.toNat % 2 ^ 31 ∧ signBit w = (signBit s.a ^^ signBit s.b)) ∧
  (∀ (x : Word), (fneg x).toNat % 2 ^ 31 = x.toNat % 2 ^ 31 ∧ signBit (fneg x) = !signBit x)

/-- R125: the evaluator is the chain that starts at the leading coefficient and runs down to the constant term; at a
zero of either sign it returns a nonzero constant term exactly. -/
def Obligations.HornerIsTheDescendingChain : Prop :=
  ∀ (nan t : Word) (l : List Word) (h : l ≠ []),
    horner nan t l = (l.dropLast.reverse).foldl (fun p c => fma nan p t c) (l.getLast h) ∧
    (l.all isFinite = true → isZero t = true → isZero (l.head h) = false → horner nan t l = l.head h)

/-! ## Logarithm and exponential -/

/-- R126, R127: the two log2 polynomials complete on every word with the steps of their rules. -/
def Obligations.LogPolynomialsFollowTheirSteps : Prop :=
  encode .plog2n = 0x30#8 ∧ encode .plog2d = 0x31#8 ∧
  (∀ (s : State),
    let nan := nanOf Config.cfg .plog2n [s.a]
    let w := fmul nan (fsub nan s.a 0x3F800000#32) (horner nan s.a Config.cfg.log2P)
    exec .plog2n s = .next { s with out := some ⟨w, 0#32, 0#32⟩ }) ∧
  (∀ (s : State),
    let w := horner (nanOf Config.cfg .plog2d [s.a]) s.a Config.cfg.log2Q
    exec .plog2d s = .next { s with out := some ⟨w, 0#32, 0#32⟩ })

/-- R128 in the domain of R10: exponent plus the correctly rounded quotient of the two polynomials at the normalised
mantissa. -/
def Obligations.LogCompletesInItsDomain : Prop :=
  encode .log2 = 0x32#8 ∧
  ∀ (s : State), signBit s.a = false → 1 ≤ (expField s.a).toNat → (expField s.a).toNat ≤ 254 →
    let nan := nanOf Config.cfg .log2 [s.a]
    let m := (s.a &&& 0x807FFFFF#32) ||| 0x3F800000#32
    let n := fmul nan (fsub nan m 0x3F800000#32) (horner nan m Config.cfg.log2P)
    let q := horner nan m Config.cfg.log2Q
    ∃ e, isFinite e = true ∧ val e = ((expField s.a).toNat : ℚ) - 127 ∧ (val e = 0 → e = 0#32) ∧
      exec .log2 s = .next { s with out := some ⟨fadd nan e (fdiv nan n q), 0#32, 0#32⟩ }

/-- R129: LOG2 is exact at every power of two, for every configuration in which P(1.0) is finite and Q(1.0) is neither a
zero nor a NaN. -/
def Obligations.LogIsExactAtPowersOfTwo : Prop :=
  ∀ (k : Cfg) (p : Ports) (j : ℤ), -126 ≤ j → j ≤ 127 → isFinite p.a = true → val p.a = (2 : ℚ) ^ j →
    let nan := nanOf k .log2 [p.a]
    isFinite (horner nan 0x3F800000#32 k.log2P) = true →
    isZero (horner nan 0x3F800000#32 k.log2Q) = false → isNaN (horner nan 0x3F800000#32 k.log2Q) = false →
    ∃ w, transaction k .log2 p = ⟨w, 0#32, 0#32⟩ ∧ isFinite w = true ∧ val w = j ∧ (j = 0 → w = 0#32)

/-- R140, and R141 in the domain of R10: the steps of the exponential. -/
def Obligations.ExpCompletesInItsDomain : Prop :=
  encode .pexp2 = 0x40#8 ∧ encode .exp2 = 0x41#8 ∧
  (∀ (s : State),
    let w := horner (nanOf Config.cfg .pexp2 [s.a]) s.a Config.cfg.exp2C
    exec .pexp2 s = .next { s with out := some ⟨w, 0#32, 0#32⟩ }) ∧
  (∀ (s : State), (isZero s.a = true ∨ isNormal s.a = true) → -126 ≤ val s.a → val s.a < 128 →
    let nan := nanOf Config.cfg .exp2 [s.a]
    ∃ i w r, isFinite i = true ∧ val i = ((⌊val s.a⌋ : ℤ) : ℚ) ∧ signBit i = signBit s.a ∧
      val w = (2 : ℚ) ^ (⌊val s.a⌋ : ℤ) ∧ isNormal w = true ∧
      r = fmul nan w (horner nan (fsub nan s.a i) Config.cfg.exp2C) ∧
      exec .exp2 s = .next { s with out := some ⟨r, 0#32, 0#32⟩ })

/-- R142: EXP2 is exact at integers, for every configuration with finite coefficients and constant term 1.0, and so for
the block itself, whatever its constants are. -/
def Obligations.ExpIsExactAtIntegers : Prop :=
  (∀ (k : Cfg) (p : Ports) (j : ℤ), k.exp2C.all isFinite = true → k.exp2C.head? = some 0x3F800000#32 →
    -126 ≤ j → j ≤ 127 → isFinite p.a = true → val p.a = j →
    transaction k .exp2 p = ⟨BitVec.ofNat 32 ((j + 127).toNat * 2 ^ 23), 0#32, 0#32⟩) ∧
  (∀ (s : State) (j : ℤ), -126 ≤ j → j ≤ 127 → isFinite s.a = true → val s.a = j →
    exec .exp2 s = .next { s with out := some ⟨BitVec.ofNat 32 ((j + 127).toNat * 2 ^ 23), 0#32, 0#32⟩ })

/-! ## Sine and cosine -/

/-- R150: the two residuals of the sine, one fused step per multiply-add. -/
def Obligations.SineReductionFollowsItsSteps : Prop :=
  encode .redsin = 0x50#8 ∧
  ∀ (s : State),
    let k := Config.cfg
    let nan := nanOf k .redsin [s.a]
    let k2 := fround nan (fmul nan s.a k.rtau)
    let z := fma nan k2 k.tauLo (fma nan (fneg k2) k.tauHi s.a)
    let k1 := fround nan (fmul nan s.a k.rpi)
    let y := fabs (fma nan k1 k.piLo (fma nan (fneg k1) k.piHi s.a))
    exec .redsin s = .next { s with out := some ⟨z, y, 0#32⟩ }

/-- R151: the half-period index and the three compensated stages of the cosine. -/
def Obligations.CosineReductionFollowsItsSteps : Prop :=
  encode .redcos = 0x51#8 ∧
  ∀ (s : State),
    let k := Config.cfg
    let nan := nanOf k .redcos [s.a]
    let m := ffloor nan (fma nan s.a k.invHalfHi (fmul nan s.a k.invHalfLo))
    let high := fma nan m k.halfHi k.quarterHi
    let g := fma nan m k.halfHi (fneg high)
    let eoh := fadd nan g k.quarterHi
    let low := fma nan m k.halfLo k.quarterLo
    let x3 := fsub nan (fsub nan (fsub nan s.a high) eoh) low
    exec .redcos s = .next { s with out := some ⟨x3, if odd m then 0x3F800000#32 else 0xBF800000#32, 0#32⟩ }

/-- R155: on the word of an integer, `odd` is the mathematical residue modulo 2, for negative integers as for positive;
it is false for infinities, NaNs and magnitudes below 1. -/
def Obligations.ParityIsTheResidueModuloTwo : Prop :=
  (∀ (m : Word) (n : ℤ), isFinite m = true → val m = n → (odd m = true ↔ n % 2 = 1)) ∧
  (∀ (m : Word), isInf m = true ∨ isNaN m = true → odd m = false) ∧
  (∀ (m : Word), isFinite m = true → |val m| < 1 → odd m = false)

/-- R152, and R153, R154 in the domain of R10: the polynomial core, sine and cosine by their steps. -/
def Obligations.SineAndCosineCompleteInTheirDomain : Prop :=
  encode .psin = 0x52#8 ∧ encode .sin = 0x53#8 ∧ encode .cos = 0x54#8 ∧
  (∀ (s : State),
    let nan := nanOf Config.cfg .psin [s.a]
    let w := fmul nan (horner nan (fmul nan s.a s.a) Config.cfg.sinC) s.a
    exec .psin s = .next { s with out := some ⟨w, 0#32, 0#32⟩ }) ∧
  (∀ (s : State), (isZero s.a = true ∨ isNormal s.a = true) →
    let nan := nanOf Config.cfg .sin [s.a]
    let y := redsinY Config.cfg nan s.a
    let poly := fmul nan (horner nan (fmul nan y y) Config.cfg.sinC) y
    let w := poly ^^^ (redsinZ Config.cfg nan s.a &&& 0x80000000#32)
    exec .sin s = .next { s with out := some ⟨w, 0#32, 0#32⟩ }) ∧
  (∀ (s : State), (isZero s.a = true ∨ isNormal s.a = true) →
    let nan := nanOf Config.cfg .cos [s.a]
    let y := fmul nan (redcosX Config.cfg nan s.a) (redcosS Config.cfg nan s.a)
    let w := fmul nan (horner nan (fmul nan y y) Config.cfg.sinC) y
    exec .cos s = .next { s with out := some ⟨w, 0#32, 0#32⟩ })

/-- R152: PSIN is an odd function of its operand, bit for bit, wherever the result is not a NaN (a NaN word depends on
the operand, R100; log entry 12). -/
def Obligations.SinePolynomialIsOdd : Prop :=
  ∀ (k : Cfg) (p p' : Ports), k.Valid → p'.a = fneg p.a → isNaN (transaction k .psin p).r0 = false →
    (transaction k .psin p').r0 = fneg (transaction k .psin p).r0

/-- R150, R151, R152, R153 at zeros. The sine of a zero loses the zero's sign for a positive `SIN_C[0]`; for `-0` the
signs of `RTAU` and `TAU_HI` matter (log entry 13). -/
def Obligations.ReductionsAtZero : Prop :=
  ∀ (k : Cfg) (p : Ports), k.Valid →
    (p.a = 0#32 ∨ (p.a = 0x80000000#32 ∧ signBit k.rtau = false ∧ signBit k.tauHi = false) →
      transaction k .redsin p = ⟨0#32, 0#32, 0#32⟩ ∧
      (∀ c, k.sinC.head? = some c → isZero c = false → signBit c = false →
        transaction k .sin p = ⟨0#32, 0#32, 0#32⟩)) ∧
    (isZero p.a = true → isZero k.quarterHi = false →
      transaction k .redcos p =
        ⟨fsub (nanOf k .redcos [p.a]) (fneg k.quarterHi) k.quarterLo, 0xBF800000#32, 0#32⟩)

/-! ## Cube root -/

/-- R170: one application of the refinement, every intermediate as the rule writes it. -/
def Obligations.HalleyFollowsItsSteps : Prop :=
  encode .halley = 0x60#8 ∧
  ∀ (s : State),
    let nan := nanOf Config.cfg .halley [s.a, s.b]
    let s2 := fmul nan s.a s.a
    let c := fmul nan s2 s.a
    let u := fma nan 0x40000000#32 c s.b
    let d := fsub nan c s.b
    let t := fmul nan 0x40400000#32 s.a
    let n := fmul nan (fmul nan t u) d
    let g := fma nan 0x41200000#32 c (fmul nan 0x41800000#32 s.b)
    let q := fma nan g c (fmul nan s.b s.b)
    exec .halley s = .next { s with out := some ⟨fsub nan s.a (fdiv nan n q), 0#32, 0#32⟩ }

/-- R170's fixed point: when the rounded cube of s is x and the denominator is positive and finite, the step returns s. -/
def Obligations.HalleyFixesAnExactRoot : Prop :=
  ∀ (s : State),
    let nan := nanOf Config.cfg .halley [s.a, s.b]
    let q := halleyDenominator nan s.b s.b
    isFinite s.a = true → isFinite s.b = true → halleyCube nan s.a = s.b →
    isFinite q = true → isZero q = false → signBit q = false →
    exec .halley s = .next { s with out := some ⟨s.a, 0#32, 0#32⟩ }

/-- R171 in the domain of R10: the seed, refined once or twice, as the block's constant `CBRT_ITERS` says. -/
def Obligations.CbrtRefinesTheSeedOnceOrTwice : Prop :=
  encode .cbrt = 0x61#8 ∧
  ∀ (s : State), signBit s.a = false → 1 ≤ (expField s.a).toNat → (expField s.a).toNat ≤ 254 →
    let nan := nanOf Config.cfg .cbrt [s.a]
    let seed := s.a / 3#32 + Config.cfg.cbrtMagic
    ∃ w, exec .cbrt s = .next { s with out := some ⟨w, 0#32, 0#32⟩ } ∧
      ((Config.cfg.cbrtIters = 1 ∧ w = halley nan seed s.a) ∨
       (Config.cfg.cbrtIters = 2 ∧ w = halley nan (halley nan seed s.a) s.a))

/-- R172 in the domain of R10: the correction carried out in double-float arithmetic. -/
def Obligations.AccurateCbrtFollowsItsSteps : Prop :=
  encode .cbrta = 0x62#8 ∧
  ∀ (st : State), signBit st.a = false → 1 ≤ (expField st.a).toNat → (expField st.a).toNat ≤ 254 →
    let nan := nanOf Config.cfg .cbrta [st.a]
    let s := cbrt Config.cfg nan st.a
    let p := fmul nan s s
    let e := fma nan s s (fneg p)
    let s2 := fmul nan 0x40000000#32 s
    let Ph := fmul nan p s2
    let Pl := fma nan e s2 (fma nan p s2 (fneg Ph))
    let Dh := fadd nan Ph st.a
    let Dl := fadd nan (fsub nan st.a (fsub nan Dh Ph)) Pl
    let s3 := fmul nan 0xBFC00000#32 s
    let Nh := fmul nan Ph s3
    let Nl := fma nan Pl s3 (fma nan Ph s3 (fneg Nh))
    let rc := fdiv nan 0x3F800000#32 Dh
    let q0 := fmul nan Nh rc
    let r3 := fadd nan (fma nan (fneg q0) Dl (fma nan (fneg q0) Dh Nh)) Nl
    exec .cbrta st = .next { st with out := some ⟨fma nan 0x40000000#32 s (fma nan r3 rc q0), 0#32, 0#32⟩ }

/-! ## Double-float arithmetic -/

/-- R185 to R188: the four primitives complete on every word with the steps of their rules. -/
def Obligations.DoubleFloatPrimitivesFollowTheirSteps : Prop :=
  encode .dfmul = 0x70#8 ∧ encode .dfmuls = 0x71#8 ∧ encode .dfqts = 0x72#8 ∧ encode .dfdiv = 0x73#8 ∧
  (∀ (s : State),
    let nan := nanOf Config.cfg .dfmul [s.a, s.b]
    let p := fmul nan s.a s.b
    exec .dfmul s = .next { s with out := some ⟨p, fma nan s.a s.b (fneg p), 0#32⟩ }) ∧
  (∀ (s : State),
    let nan := nanOf Config.cfg .dfmuls [s.a, s.b, s.c]
    let p := fmul nan s.a s.c
    exec .dfmuls s = .next { s with out := some ⟨p, fma nan s.b s.c (fma nan s.a s.c (fneg p)), 0#32⟩ }) ∧
  (∀ (s : State),
    let nan := nanOf Config.cfg .dfqts [s.a, s.b, s.c]
    let t := fadd nan s.a s.c
    let lo := fadd nan (fsub nan s.c (fsub nan t s.a)) s.b
    exec .dfqts s = .next { s with out := some ⟨t, lo, 0#32⟩ }) ∧
  (∀ (s : State),
    let nan := nanOf Config.cfg .dfdiv [s.a, s.b, s.c, s.d]
    let rc := fdiv nan 0x3F800000#32 s.c
    let q0 := fmul nan s.a rc
    let r3 := fadd nan (fma nan (fneg q0) s.d (fma nan (fneg q0) s.c s.a)) s.b
    exec .dfdiv s = .next { s with out := some ⟨fma nan r3 rc q0, 0#32, 0#32⟩ })

/-- R185's property: when the operands and the high word are finite and the exact product is a multiple of 2^-149, the
two words add up to the exact product. -/
def Obligations.ProductErrorIsExact : Prop :=
  ∀ (s : State), isFinite s.a = true → isFinite s.b = true →
    ∃ p e, exec .dfmul s = .next { s with out := some ⟨p, e, 0#32⟩ } ∧
      (isFinite p = true → (∃ n : ℤ, val s.a * val s.b = n * (2 : ℚ) ^ (-149 : ℤ)) →
        isFinite e = true ∧ val p + val e = val s.a * val s.b)

/-- R187's property (the quick two-sum), for a zero incoming low word: for finite h, r with |h| >= |r| and no overflow, the two words
add up to the exact sum. -/
def Obligations.QuickTwoSumIsExact : Prop :=
  ∀ (s : State), isFinite s.a = true → isFinite s.c = true → isZero s.b = true → |val s.c| ≤ |val s.a| →
    ∃ h e, exec .dfqts s = .next { s with out := some ⟨h, e, 0#32⟩ } ∧
      (isFinite h = true → isFinite e = true ∧ val h + val e = val s.a + val s.c)

/-! ## Composite operations equal their host sequences -/

/-- R128: in its domain LOG2 equals the sequence MANT1, EXPF, PLOG2N, PLOG2D, DIV, FADD, up to the NaN word. -/
def Obligations.LogEqualsItsHostSequence : Prop :=
  ∀ (k : Cfg) (x : Word), k.Valid → isPositiveNormal x = true →
    let m := (transaction k .mant1 ⟨x, 0#32, 0#32, 0#32⟩).r0
    let e := (transaction k .expf ⟨x, 0#32, 0#32, 0#32⟩).r0
    let n := (transaction k .plog2n ⟨m, 0#32, 0#32, 0#32⟩).r0
    let q := (transaction k .plog2d ⟨m, 0#32, 0#32, 0#32⟩).r0
    let t := (transaction k .div ⟨n, q, 0#32, 0#32⟩).r0
    SameOrNaN (transaction k .log2 ⟨x, 0#32, 0#32, 0#32⟩).r0 (transaction k .fma ⟨t, one, e, 0#32⟩).r0

/-- R141: in its domain EXP2 equals the sequence FLOOR, FSUB, POW2I, PEXP2, FMUL, up to the NaN word. -/
def Obligations.ExpEqualsItsHostSequence : Prop :=
  ∀ (k : Cfg) (x : Word), k.Valid → inExp2Domain x = true →
    let i := (transaction k .floor ⟨x, 0#32, 0#32, 0#32⟩).r0
    let f := (transaction k .fma ⟨i, negOne, x, 0#32⟩).r0
    let w := (transaction k .pow2i ⟨i, 0#32, 0#32, 0#32⟩).r0
    let p := (transaction k .pexp2 ⟨f, 0#32, 0#32, 0#32⟩).r0
    SameOrNaN (transaction k .exp2 ⟨x, 0#32, 0#32, 0#32⟩).r0 (transaction k .fma ⟨w, p, negZero, 0#32⟩).r0

/-- R153, R154: in their domain SIN equals REDSIN, PSIN, MULSIGN where the residual z is not a NaN (MULSIGN would read
the sign of the NaN word), and COS equals REDCOS, FMUL, PSIN, both up to the NaN word. -/
def Obligations.SineAndCosineEqualTheirHostSequences : Prop :=
  ∀ (k : Cfg) (x : Word), k.Valid → isZeroOrNormal x = true →
    (let r := transaction k .redsin ⟨x, 0#32, 0#32, 0#32⟩
     let p := (transaction k .psin ⟨r.r1, 0#32, 0#32, 0#32⟩).r0
     isNaN r.r0 = false →
       SameOrNaN (transaction k .sin ⟨x, 0#32, 0#32, 0#32⟩).r0 (transaction k .mulsign ⟨p, r.r0, 0#32, 0#32⟩).r0) ∧
    (let r := transaction k .redcos ⟨x, 0#32, 0#32, 0#32⟩
     let y := (transaction k .fma ⟨r.r0, r.r1, negZero, 0#32⟩).r0
     SameOrNaN (transaction k .cos ⟨x, 0#32, 0#32, 0#32⟩).r0 (transaction k .psin ⟨y, 0#32, 0#32, 0#32⟩).r0)

/-- R171, R172: in their domain CBRT equals CBSEED and HALLEY once or twice, and CBRTA equals CBRT, DFMUL, FMUL, DFMULS,
DFQTS, FMUL, DFMULS, DFDIV, FMA, both up to the NaN word. -/
def Obligations.CubeRootsEqualTheirHostSequences : Prop :=
  ∀ (k : Cfg) (x : Word), k.Valid → isPositiveNormal x = true →
    (let s0 := (transaction k .cbseed ⟨x, 0#32, 0#32, 0#32⟩).r0
     let s1 := (transaction k .halley ⟨s0, x, 0#32, 0#32⟩).r0
     let s2 := (transaction k .halley ⟨s1, x, 0#32, 0#32⟩).r0
     SameOrNaN (transaction k .cbrt ⟨x, 0#32, 0#32, 0#32⟩).r0 (if k.cbrtIters = 1 then s1 else s2)) ∧
    (let s := (transaction k .cbrt ⟨x, 0#32, 0#32, 0#32⟩).r0
     let p := transaction k .dfmul ⟨s, s, 0#32, 0#32⟩
     let s2 := (transaction k .fma ⟨two, s, negZero, 0#32⟩).r0
     let P := transaction k .dfmuls ⟨p.r0, p.r1, s2, 0#32⟩
     let D := transaction k .dfqts ⟨P.r0, P.r1, x, 0#32⟩
     let s3 := (transaction k .fma ⟨negThreeHalves, s, negZero, 0#32⟩).r0
     let N := transaction k .dfmuls ⟨P.r0, P.r1, s3, 0#32⟩
     let q := (transaction k .dfdiv ⟨N.r0, N.r1, D.r0, D.r1⟩).r0
     SameOrNaN (transaction k .cbrta ⟨x, 0#32, 0#32, 0#32⟩).r0 (transaction k .fma ⟨s, two, q, 0#32⟩).r0)

/-! ## Outside the domains -/

/-- R12, with the domains of R10: outside its domain a public function completes with `Cfg.OOD(op, a)`. -/
def Obligations.OutOfDomainResultIsTheOodWord : Prop :=
  ∀ (s : State),
    (¬ (signBit s.a = false ∧ 1 ≤ (expField s.a).toNat ∧ (expField s.a).toNat ≤ 254) →
      exec .log2 s = .next { s with out := some ⟨Config.cfg.ood 0x32#8 s.a, 0#32, 0#32⟩ } ∧
      exec .cbrt s = .next { s with out := some ⟨Config.cfg.ood 0x61#8 s.a, 0#32, 0#32⟩ } ∧
      exec .cbrta s = .next { s with out := some ⟨Config.cfg.ood 0x62#8 s.a, 0#32, 0#32⟩ }) ∧
    (¬ ((isZero s.a = true ∨ isNormal s.a = true) ∧ -126 ≤ val s.a ∧ val s.a < 128) →
      exec .exp2 s = .next { s with out := some ⟨Config.cfg.ood 0x41#8 s.a, 0#32, 0#32⟩ }) ∧
    (¬ (isZero s.a = true ∨ isNormal s.a = true) →
      exec .sin s = .next { s with out := some ⟨Config.cfg.ood 0x53#8 s.a, 0#32, 0#32⟩ } ∧
      exec .cos s = .next { s with out := some ⟨Config.cfg.ood 0x54#8 s.a, 0#32, 0#32⟩ })

/-! ## Host programs -/

/-- R58: what each pseudo-instruction leaves in its destination variable, for sources of every kind (a literal word, a
float literal, a variable that holds a word). The three arithmetic ones and the negation are the transactions of R58's
expansions, with the words 1.0, -1.0 and -0.0; F2B and B2F copy the word. -/
def Obligations.PseudoInstructionsComputeTheirFunctions : Prop :=
  ∀ (k : Cfg) (env : HostVars) (r : Nat) (sx sy : Src) (x y : Word),
    readSrc env sx = some x → readSrc env sy = some y →
    runLine k env (.fadd r sx sy) = runLine k env (.op .fma [r] [sx, .word 0x3F800000#32, sy]) ∧
    runLine k env (.fadd r sx sy) = some ((r, fadd (nanOf k .fma [x, one, y]) x y) :: env) ∧
    runLine k env (.fsub r sx sy) = runLine k env (.op .fma [r] [sy, .word 0xBF800000#32, sx]) ∧
    runLine k env (.fsub r sx sy) = some ((r, fsub (nanOf k .fma [y, negOne, x]) x y) :: env) ∧
    runLine k env (.fmul r sx sy) = runLine k env (.op .fma [r] [sx, sy, .word 0x80000000#32]) ∧
    runLine k env (.fmul r sx sy) = some ((r, fmul (nanOf k .fma [x, y, negZero]) x y) :: env) ∧
    runLine k env (.fneg r sx) = runLine k env (.op .mulsign [r] [sx, .word 0x80000000#32]) ∧
    runLine k env (.fneg r sx) = some ((r, fneg x) :: env) ∧
    runLine k env (.f2b r sx) = some ((r, x) :: env) ∧
    runLine k env (.b2f r sx) = some ((r, x) :: env)

/-- R57, R200, R212: every well-formed host program runs to its end, and afterwards every variable it writes, and every
one that held a value before, holds one. -/
def Obligations.WellFormedHostProgramsComplete : Prop :=
  ∀ (k : Cfg) (env : HostVars) (prog : List Line),
    programOk (env.map Prod.fst) prog = true →
    ∃ env', runProgram k env prog = some env' ∧
      ∀ v, (v ∈ env.map Prod.fst ∨ ∃ l ∈ prog, v ∈ lineDsts l) → (env'.lookup v).isSome = true

/-- R222, R41, on the host language of log entry 15: two adjacent lines of a host program of which neither reads or writes what the other writes may be
swapped: the host ends with the same word in every variable. -/
def Obligations.IndependentHostLinesCommute : Prop :=
  ∀ (k : Cfg) (env env' : HostVars) (l l' : Line),
    (∀ v ∈ lineDsts l, v ∉ lineReads l' ∧ v ∉ lineDsts l') → (∀ v ∈ lineDsts l', v ∉ lineReads l) →
    runProgram k env [l, l'] = some env' →
    ∃ env'', runProgram k env [l', l] = some env'' ∧ ∀ v, env''.lookup v = env'.lookup v
end

