-- ==== Sys2Proof/Laws/Operands.lean ====
section
/-! SUPPORT. Fields, classes and values of words (00_scope.md R14, R15), and how the sign operations act on them. -/

namespace Sys2Proof.Machine

/-! ## Fields -/

theorem signBit_eq_getLsbD (w : Word) : signBit w = w.getLsbD 31 := rfl

@[simp] theorem signBit_joinFields (s : BitVec 1) (e : BitVec 8) (m : BitVec 23) :
    signBit (joinFields s e m) = s.getLsbD 0 := by
  simp only [signBit_eq_getLsbD, joinFields, BitVec.getLsbD_append]
  simp

@[simp] theorem expField_joinFields (s : BitVec 1) (e : BitVec 8) (m : BitVec 23) :
    expField (joinFields s e m) = e := by
  apply BitVec.eq_of_getLsbD_eq
  intro i hi
  simp only [expField, joinFields, BitVec.getLsbD_extractLsb', BitVec.getLsbD_append]
  simp [hi, show ¬ (23 + i < 23) by omega]

@[simp] theorem mantField_joinFields (s : BitVec 1) (e : BitVec 8) (m : BitVec 23) :
    mantField (joinFields s e m) = m := by
  apply BitVec.eq_of_getLsbD_eq
  intro i hi
  simp only [mantField, joinFields, BitVec.getLsbD_extractLsb', BitVec.getLsbD_append]
  simp [hi]

/-- Two words with the same three fields are equal (R77). -/
theorem word_ext {v w : Word} (hs : signBit v = signBit w) (he : expField v = expField w)
    (hm : mantField v = mantField w) : v = w := by
  apply BitVec.eq_of_getLsbD_eq
  intro i hi
  by_cases h1 : i < 23
  · have := congrArg (fun x : BitVec 23 => x.getLsbD i) hm
    simpa [mantField, BitVec.getLsbD_extractLsb', h1] using this
  · by_cases h2 : i < 31
    · have := congrArg (fun x : BitVec 8 => x.getLsbD (i - 23)) he
      simpa [expField, BitVec.getLsbD_extractLsb', show i - 23 < 8 by omega, show 23 + (i - 23) = i by omega] using this
    · obtain rfl : i = 31 := by omega
      exact hs

@[simp] theorem joinFields_fields (w : Word) :
    joinFields (BitVec.ofBool (signBit w)) (expField w) (mantField w) = w :=
  word_ext (by simp) (by simp) (by simp)

/-! ## Classes, by the fields -/

theorem isNaN_iff (w : Word) : isNaN w = true ↔ expField w = 255#8 ∧ mantField w ≠ 0#23 := by
  unfold isNaN classOf
  split <;> split <;> simp_all

theorem isInf_iff (w : Word) : isInf w = true ↔ expField w = 255#8 ∧ mantField w = 0#23 := by
  unfold isInf classOf
  split <;> split <;> simp_all

theorem isZero_iff (w : Word) : isZero w = true ↔ expField w = 0#8 ∧ mantField w = 0#23 := by
  unfold isZero classOf
  split <;> split <;> (try split) <;> simp_all

theorem isNormal_iff (w : Word) : isNormal w = true ↔ expField w ≠ 0#8 ∧ expField w ≠ 255#8 := by
  unfold isNormal classOf
  split <;> split <;> (try split) <;> simp_all

theorem isSubnormal_iff (w : Word) : isSubnormal w = true ↔ expField w = 0#8 ∧ mantField w ≠ 0#23 := by
  unfold isSubnormal classOf
  split <;> split <;> (try split) <;> simp_all

theorem isFinite_iff (w : Word) : isFinite w = true ↔ expField w ≠ 255#8 := by
  simp only [isFinite, Bool.or_eq_true, isZero_iff, isSubnormal_iff, isNormal_iff]
  constructor
  · rintro ((h | h) | h)
    · rw [h.1]; decide
    · rw [h.1]; decide
    · exact h.2
  · intro h
    by_cases h0 : expField w = 0#8
    · by_cases hm : mantField w = 0#23
      · exact .inl (.inl ⟨h0, hm⟩)
      · exact .inl (.inr ⟨h0, hm⟩)
    · exact .inr ⟨h0, h⟩

/-- The classes exclude each other and leave nothing out. -/
theorem isFinite_eq (w : Word) : isFinite w = (!isNaN w && !isInf w) := by
  rw [Bool.eq_iff_iff]
  simp only [isFinite_iff, Bool.and_eq_true, Bool.not_eq_true', ← Bool.not_eq_true, isNaN_iff, isInf_iff]
  by_cases h : expField w = 255#8 <;> by_cases hm : mantField w = 0#23 <;> simp [h, hm]

theorem isNaN_of_isFinite {w : Word} (h : isFinite w = true) : isNaN w = false := by
  rw [isFinite_eq] at h
  simp_all

theorem isInf_of_isFinite {w : Word} (h : isFinite w = true) : isInf w = false := by
  rw [isFinite_eq] at h
  simp_all

theorem isZero_iff_magUnits (w : Word) : isZero w = true ↔ magUnits w = 0 := by
  rw [isZero_iff, magUnits]
  by_cases h0 : expField w = 0#8
  · simp only [h0, true_and]
    constructor
    · intro hm
      rw [hm]; rfl
    · intro hm
      exact BitVec.eq_of_toNat_eq (by simpa using hm)
  · simp [h0]

/-! ## Values -/

/-- The real value of R15's table is the signed magnitude in units of 2^-149. -/
theorem val_eq_valUnits (w : Word) : val w = (valUnits w : ℚ) / 2 ^ 149 := by
  have hz : ((2 : ℚ) ^ (-149 : ℤ)) = 1 / 2 ^ 149 := by norm_num
  have hp : expField w ≠ 0#8 →
      (2 : ℚ) ^ ((expField w).toNat - 150 : ℤ) = 2 ^ ((expField w).toNat - 1) / 2 ^ 149 := by
    intro h
    have h1 : 1 ≤ (expField w).toNat := by
      rcases Nat.eq_zero_or_pos (expField w).toNat with h0 | h0
      · exact absurd (BitVec.eq_of_toNat_eq (by simpa using h0)) h
      · exact h0
    rw [show ((expField w).toNat - 150 : ℤ) = (((expField w).toNat - 1 : ℕ) : ℤ) - (149 : ℕ) by omega,
      zpow_sub₀ (by norm_num), zpow_natCast, zpow_natCast]
  unfold val valUnits magUnits
  by_cases h0 : expField w = 0#8
  · cases hs : signBit w
    · simp [h0, hz]; ring
    · simp [h0, hz]; ring
  · cases hs : signBit w
    · simp [h0, hp h0]; ring
    · simp [h0, hp h0]; ring

/-! ## Special words -/

@[simp] theorem signBit_zeroWord (s : Bool) : signBit (zeroWord s) = s := by cases s <;> rfl
@[simp] theorem isZero_zeroWord (s : Bool) : isZero (zeroWord s) = true := by cases s <;> rfl
@[simp] theorem isNaN_zeroWord (s : Bool) : isNaN (zeroWord s) = false := by cases s <;> rfl
@[simp] theorem isFinite_zeroWord (s : Bool) : isFinite (zeroWord s) = true := by cases s <;> rfl
@[simp] theorem signBit_infWord (s : Bool) : signBit (infWord s) = s := by cases s <;> rfl
@[simp] theorem isInf_infWord (s : Bool) : isInf (infWord s) = true := by cases s <;> rfl
@[simp] theorem isNaN_infWord (s : Bool) : isNaN (infWord s) = false := by cases s <;> rfl

/-- A NaN is not finite, and a quiet NaN is a NaN. -/
theorem isNaN_of_isQuietNaN {w : Word} (h : isQuietNaN w = true) : isNaN w = true := by
  unfold isQuietNaN at h
  simp_all

/-- Every word `quietNaN` builds is a quiet NaN (R100). -/
theorem isQuietNaN_quietNaN (s : Bool) (p : BitVec 22) : isQuietNaN (quietNaN s p) = true := by
  have hj : quietNaN s p = joinFields (BitVec.ofBool s) 255#8 (1#1 ++ p) := by
    apply word_ext
    · rw [signBit_joinFields]
      simp only [quietNaN, signBit_eq_getLsbD, BitVec.getLsbD_append]
      simp
    · rw [expField_joinFields]
      apply BitVec.eq_of_getLsbD_eq
      intro i hi
      simp only [quietNaN, expField, BitVec.getLsbD_extractLsb', BitVec.getLsbD_append]
      simp [hi, show 23 + i < 31 by omega, show ¬ (23 + i < 23) by omega]
    · rw [mantField_joinFields]
      apply BitVec.eq_of_getLsbD_eq
      intro i hi
      simp only [quietNaN, mantField, BitVec.getLsbD_extractLsb', BitVec.getLsbD_append]
      simp [hi, show i < 31 by omega]
  have hq : (mantField (quietNaN s p)).getLsbD 22 = true := by
    rw [hj, mantField_joinFields, BitVec.getLsbD_append]
    simp
  have hm : mantField (quietNaN s p) ≠ 0#23 := by
    intro h
    rw [h] at hq
    simp at hq
  unfold isQuietNaN
  rw [hq, Bool.and_true, isNaN_iff]
  exact ⟨by rw [hj, expField_joinFields], hm⟩

/-! ## Sign operations on fields -/

theorem getLsbD_signMask (i : Nat) : (0x80000000#32).getLsbD i = decide (i = 31) := by
  by_cases h : i < 32
  · interval_cases i <;> rfl
  · rw [BitVec.getLsbD_of_ge _ _ (by omega)]
    simp only [Bool.false_eq, decide_eq_false_iff_not]
    omega

@[simp] theorem signBit_fneg (x : Word) : signBit (fneg x) = !signBit x := by
  simp only [signBit_eq_getLsbD, fneg, BitVec.getLsbD_xor, getLsbD_signMask]
  simp

@[simp] theorem expField_fneg (x : Word) : expField (fneg x) = expField x := by
  apply BitVec.eq_of_getLsbD_eq
  intro i hi
  simp only [expField, fneg, BitVec.getLsbD_extractLsb', BitVec.getLsbD_xor, getLsbD_signMask]
  simp [show ¬ (23 + i = 31) by omega]

@[simp] theorem mantField_fneg (x : Word) : mantField (fneg x) = mantField x := by
  apply BitVec.eq_of_getLsbD_eq
  intro i hi
  simp only [mantField, fneg, BitVec.getLsbD_extractLsb', BitVec.getLsbD_xor, getLsbD_signMask]
  simp [show ¬ (i = 31) by omega]

/-- A word's class does not depend on its sign bit. -/
theorem classOf_congr {v w : Word} (he : expField v = expField w) (hm : mantField v = mantField w) :
    classOf v = classOf w := by
  unfold classOf
  rw [he, hm]

@[simp] theorem classOf_fneg (x : Word) : classOf (fneg x) = classOf x := classOf_congr (by simp) (by simp)

@[simp] theorem isNaN_fneg (x : Word) : isNaN (fneg x) = isNaN x := by simp [isNaN]
@[simp] theorem isInf_fneg (x : Word) : isInf (fneg x) = isInf x := by simp [isInf]
@[simp] theorem isZero_fneg (x : Word) : isZero (fneg x) = isZero x := by simp [isZero]
@[simp] theorem isFinite_fneg (x : Word) : isFinite (fneg x) = isFinite x := by
  simp [isFinite, isSubnormal, isNormal, isZero]
@[simp] theorem magUnits_fneg (x : Word) : magUnits (fneg x) = magUnits x := by simp [magUnits]

@[simp] theorem valUnits_fneg (x : Word) : valUnits (fneg x) = -valUnits x := by
  unfold valUnits
  cases h : signBit x <;> simp [h]

/-! ## `fabs` (R98) -/

theorem getLsbD_fabs (x : Word) (i : Nat) : (fabs x).getLsbD i = (x.getLsbD i && decide (i < 31)) := by
  have hm : (0x7FFFFFFF#32).getLsbD i = decide (i < 31) := by
    by_cases h : i < 32
    · interval_cases i <;> rfl
    · rw [BitVec.getLsbD_of_ge _ _ (by omega)]
      simp; omega
  rw [fabs, BitVec.getLsbD_and, hm]

@[simp] theorem signBit_fabs (x : Word) : signBit (fabs x) = false := by
  rw [signBit_eq_getLsbD, getLsbD_fabs]
  simp

@[simp] theorem expField_fabs (x : Word) : expField (fabs x) = expField x := by
  apply BitVec.eq_of_getLsbD_eq
  intro i hi
  simp [expField, getLsbD_fabs, hi, show 23 + i < 31 by omega]

@[simp] theorem mantField_fabs (x : Word) : mantField (fabs x) = mantField x := by
  apply BitVec.eq_of_getLsbD_eq
  intro i hi
  simp [mantField, getLsbD_fabs, hi, show i < 31 by omega]

@[simp] theorem classOf_fabs (x : Word) : classOf (fabs x) = classOf x := classOf_congr (by simp) (by simp)

@[simp] theorem isNaN_fabs (x : Word) : isNaN (fabs x) = isNaN x := by simp [isNaN]
@[simp] theorem isZero_fabs (x : Word) : isZero (fabs x) = isZero x := by simp [isZero]
@[simp] theorem magUnits_fabs (x : Word) : magUnits (fabs x) = magUnits x := by simp [magUnits]

end Sys2Proof.Machine
end

