-- ==== Sys2Proof/Laws/Arithmetic.lean ====
section
/-! SUPPORT. What the rounding and the arithmetic functions can answer (41_fusedstep.md R92 to R97): which results are
NaNs, that the NaN word enters nowhere else, and the encoding of representable numbers. -/

namespace Sys2Proof.Machine

/-! ## The encoding (R91) -/

theorem signBit_enc (neg : Bool) (u : Nat) : signBit (enc neg u) = neg := by
  unfold enc
  split <;> simp

/-- The exponent and mantissa that `enc` computes are those of the representable magnitude `f * 2^k`. -/
theorem enc_normal (neg : Bool) {f k : Nat} (hf : 2 ^ 23 ≤ f) (hf' : f < 2 ^ 24) :
    enc neg (f * 2 ^ k) = joinFields (BitVec.ofBool neg) (BitVec.ofNat 8 (k + 1)) (BitVec.ofNat 23 (f - 2 ^ 23)) := by
  have hpos : 0 < 2 ^ k := Nat.two_pow_pos k
  have hlog : Nat.log2 (f * 2 ^ k) = 23 + k := by
    have hne : f * 2 ^ k ≠ 0 := by positivity
    rw [Nat.log2_eq_iff hne]
    constructor
    · rw [pow_add]; exact Nat.mul_le_mul_right _ hf
    · rw [show 23 + k + 1 = 24 + k by omega, pow_add]; exact Nat.mul_lt_mul_of_pos_right hf' hpos
  have hge : ¬ f * 2 ^ k < 2 ^ 23 := by
    have : 2 ^ 23 * 1 ≤ f * 2 ^ k := Nat.mul_le_mul hf hpos
    omega
  unfold enc
  rw [if_neg hge, hlog]
  simp only [Nat.add_sub_cancel_left, Nat.mul_div_cancel _ hpos]

/-- `enc` is the inverse of the value on representable magnitudes below 2^128 (R91): the exponent field stays below 255
and the magnitude is exact. -/
theorem enc_spec (neg : Bool) {f k : Nat} (hf : f < 2 ^ 24) (hk : k ≤ 253) (hn : f < 2 ^ 23 → k = 0) :
    isFinite (enc neg (f * 2 ^ k)) = true ∧ magUnits (enc neg (f * 2 ^ k)) = f * 2 ^ k := by
  by_cases hs : f < 2 ^ 23
  · obtain rfl := hn hs
    have he : enc neg (f * 2 ^ 0) = joinFields (BitVec.ofBool neg) 0#8 (BitVec.ofNat 23 f) := by
      unfold enc
      rw [if_pos (by simpa using hs)]
      simp
    rw [he, isFinite_iff, magUnits]
    simp only [expField_joinFields, mantField_joinFields, BitVec.toNat_ofNat]
    exact ⟨by decide, by simp only [if_true, Nat.mod_eq_of_lt hs, pow_zero, Nat.mul_one]⟩
  · have h8 : (BitVec.ofNat 8 (k + 1)).toNat = k + 1 := by
      rw [BitVec.toNat_ofNat]; omega
    have hm : (BitVec.ofNat 23 (f - 2 ^ 23)).toNat = f - 2 ^ 23 := by
      rw [BitVec.toNat_ofNat]; omega
    rw [enc_normal neg (by omega) hf, isFinite_iff, magUnits]
    simp only [expField_joinFields, mantField_joinFields]
    constructor
    · intro h
      have := congrArg BitVec.toNat h
      rw [h8] at this
      simp at this
      omega
    · have h0 : BitVec.ofNat 8 (k + 1) ≠ 0#8 := by
        intro h
        have := congrArg BitVec.toNat h
        rw [h8] at this
        simp at this
      rw [if_neg h0, h8, hm, show 2 ^ 23 + (f - 2 ^ 23) = f by omega, Nat.add_sub_cancel]

/-! ## Rounding (R92) -/

/-- The nearest integer, in whole multiples of the denominator: the error is at most half of it, and an exact half goes
to the even integer. -/
theorem nearestEven_spec (n : Nat) {d : Nat} (hd : 0 < d) :
    (2 * n ≤ (2 * nearestEven n d + 1) * d ∧ 2 * nearestEven n d * d ≤ 2 * n + d) ∧
    ((2 * n = (2 * nearestEven n d + 1) * d ∨ 2 * nearestEven n d * d = 2 * n + d) → nearestEven n d % 2 = 0) := by
  have hdm := Nat.div_add_mod n d
  have hlt := Nat.mod_lt n hd
  unfold nearestEven
  generalize n / d = q at *
  generalize n % d = r at *
  have e1 : 2 * n = 2 * (q * d) + 2 * r := by rw [← hdm]; ring
  have e2 : (2 * q + 1) * d = 2 * (q * d) + d := by ring
  have e3 : 2 * q * d = 2 * (q * d) := by ring
  have e4 : (2 * (q + 1) + 1) * d = 2 * (q * d) + 3 * d := by ring
  have e5 : 2 * (q + 1) * d = 2 * (q * d) + 2 * d := by ring
  generalize q * d = m at *
  split_ifs <;> rw [e1] <;> (first | rw [e2, e3] | rw [e4, e5]) <;> omega

/-- With R92's spacing the rounded significand is at most 2^24, and at least 2^23 above the subnormal range. -/
theorem nearestEven_spacing_bounds (n : Nat) {d : Nat} (hd : 0 < d) :
    nearestEven n (d * 2 ^ spacing n d) ≤ 2 ^ 24 ∧
    (0 < spacing n d → 2 ^ 23 ≤ nearestEven n (d * 2 ^ spacing n d)) := by
  have hb : 0 < d * 2 ^ spacing n d := Nat.mul_pos hd (Nat.two_pow_pos _)
  have hlt : n / d < 2 ^ (24 + spacing n d) := by
    by_cases h0 : n / d = 0
    · rw [h0]; positivity
    · exact lt_of_lt_of_le (Nat.lt_log2_self) (Nat.pow_le_pow_right (by omega) (by unfold spacing; omega))
  have hup : n < 2 ^ 24 * (d * 2 ^ spacing n d) := by
    have := (Nat.div_lt_iff_lt_mul hd).1 hlt
    calc n < 2 ^ (24 + spacing n d) * d := this
      _ = 2 ^ 24 * (d * 2 ^ spacing n d) := by ring
  obtain ⟨⟨h1, h2⟩, -⟩ := nearestEven_spec n hb
  constructor
  · by_contra hc
    have : (2 ^ 24 + 1) * (d * 2 ^ spacing n d) ≤ nearestEven n (d * 2 ^ spacing n d) * (d * 2 ^ spacing n d) :=
      Nat.mul_le_mul_right _ (by omega)
    nlinarith
  · intro hpos
    have h0 : n / d ≠ 0 := by
      intro h0
      unfold spacing at hpos
      rw [h0] at hpos
      simp at hpos
    have hlo : 2 ^ (23 + spacing n d) ≤ n / d :=
      le_trans (Nat.pow_le_pow_right (by omega) (by unfold spacing at *; omega)) (Nat.log2_self_le h0)
    have hlo' : 2 ^ 23 * (d * 2 ^ spacing n d) ≤ n := by
      calc 2 ^ 23 * (d * 2 ^ spacing n d) = 2 ^ (23 + spacing n d) * d := by ring
        _ ≤ n := (Nat.le_div_iff_mul_le hd).1 hlo
    by_contra hc
    have : (nearestEven n (d * 2 ^ spacing n d) + 1) * (d * 2 ^ spacing n d) ≤ 2 ^ 23 * (d * 2 ^ spacing n d) :=
      Nat.mul_le_mul_right _ (by omega)
    nlinarith

/-- Everything `rnd` can answer: an infinity, or a finite word whose magnitude is the rounded one; always with the sign
it was given. -/
theorem rnd_spec (neg : Bool) (num : Nat) {den : Nat} (hd : 0 < den) :
    let n := num * 2 ^ 149
    let k := spacing n den
    let f := nearestEven n (den * 2 ^ k)
    (2 ^ 149 * 2 ^ 128 ≤ f * 2 ^ k ∧ rnd neg num den = infWord neg) ∨
    (f * 2 ^ k < 2 ^ 149 * 2 ^ 128 ∧ isFinite (rnd neg num den) = true ∧ signBit (rnd neg num den) = neg ∧
      magUnits (rnd neg num den) = f * 2 ^ k) := by
  intro n k f
  have hr : rnd neg num den = if 2 ^ 149 * 2 ^ 128 ≤ f * 2 ^ k then infWord neg else enc neg (f * 2 ^ k) := rfl
  by_cases hinf : 2 ^ 149 * 2 ^ 128 ≤ f * 2 ^ k
  · exact .inl ⟨hinf, by rw [hr, if_pos hinf]⟩
  · refine .inr ⟨not_le.1 hinf, ?_⟩
    rw [hr, if_neg hinf]
    obtain ⟨hle, hge⟩ := nearestEven_spacing_bounds n hd
    have hbound : ∀ {a b : Nat}, 2 ^ 23 ≤ a → a * 2 ^ b < 2 ^ 149 * 2 ^ 128 → b ≤ 253 := by
      intro a b ha hab
      by_contra hc
      have h1 : 2 ^ 23 * 2 ^ 254 ≤ a * 2 ^ b :=
        Nat.mul_le_mul ha (Nat.pow_le_pow_right (by omega) (by omega))
      have h2 : 2 ^ 23 * 2 ^ 254 = 2 ^ 149 * 2 ^ 128 := by rw [← pow_add, ← pow_add]
      omega
    have hfin : isFinite (enc neg (f * 2 ^ k)) = true ∧ magUnits (enc neg (f * 2 ^ k)) = f * 2 ^ k := by
      by_cases htop : f = 2 ^ 24
      · have he : f * 2 ^ k = 2 ^ 23 * 2 ^ (k + 1) := by rw [htop]; ring
        rw [he] at hinf ⊢
        exact enc_spec neg (by omega) (hbound le_rfl (not_le.1 hinf)) (by omega)
      · have hlt : f < 2 ^ 24 := lt_of_le_of_ne hle htop
        by_cases hk : 0 < k
        · exact enc_spec neg hlt (hbound (hge hk) (not_le.1 hinf)) (fun h => absurd (hge hk) (not_le.2 h))
        · exact enc_spec neg hlt (by omega) (fun _ => by omega)
    exact ⟨hfin.1, signBit_enc _ _, hfin.2⟩

/-- A rounded result is never a NaN. -/
theorem isNaN_rnd (neg : Bool) (num : Nat) {den : Nat} (hd : 0 < den) : isNaN (rnd neg num den) = false := by
  rcases rnd_spec neg num hd with ⟨-, h⟩ | ⟨-, h, -⟩
  · rw [h]; simp
  · exact isNaN_of_isFinite h

@[simp] theorem signBit_rnd (neg : Bool) (num den : Nat) : signBit (rnd neg num den) = neg := by
  simp only [rnd]
  split
  · simp
  · exact signBit_enc _ _

/-! ## The fused multiply-add (R93) -/

theorem isNaN_fmaFinite (a b c : Word) : isNaN (fmaFinite a b c) = false := by
  unfold fmaFinite
  simp only
  split
  · exact isNaN_rnd _ _ (by positivity)
  · split <;> simp

/-- The operands on which R93 answers a NaN. -/
def fmaInvalid (a b c : Word) : Bool :=
  isNaN a || isNaN b || isNaN c || (isInf a && isZero b) || (isZero a && isInf b) ||
    ((isInf a || isInf b) && isInf c && (signBit c != (signBit a ^^ signBit b)))

/-- On the other operands the result is this word, in which no NaN word enters. -/
def fmaValue (a b c : Word) : Word :=
  if isInf a || isInf b then infWord (signBit a ^^ signBit b) else if isInf c then c else fmaFinite a b c

/-- Everything `fma` can answer: the NaN word on the invalid operands, else a word that does not depend on it. -/
theorem fma_eq (nan a b c : Word) : fma nan a b c = if fmaInvalid a b c then nan else fmaValue a b c := by
  unfold fma fmaInvalid fmaValue
  cases isNaN a <;> cases isNaN b <;> cases isNaN c <;> cases isInf a <;> cases isInf b <;> cases isInf c <;>
    cases isZero a <;> cases isZero b <;> cases (signBit c != (signBit a ^^ signBit b)) <;> rfl

theorem isNaN_of_isInf {w : Word} (h : isInf w = true) : isNaN w = false := by
  by_contra hc
  rw [Bool.not_eq_false] at hc
  exact ((isNaN_iff w).1 hc).2 ((isInf_iff w).1 h).2

theorem isNaN_fmaValue (a b c : Word) : isNaN (fmaValue a b c) = false := by
  unfold fmaValue
  split
  · simp
  · split
    · exact isNaN_of_isInf ‹_›
    · exact isNaN_fmaFinite _ _ _

/-- With a NaN for NaN word, the result is a NaN exactly on the invalid operands. -/
theorem isNaN_fma {nan : Word} (hn : isNaN nan = true) (a b c : Word) : isNaN (fma nan a b c) = fmaInvalid a b c := by
  rw [fma_eq]
  cases h : fmaInvalid a b c
  · simp [isNaN_fmaValue]
  · simpa using hn

/-- A NaN operand makes the result a NaN, wherever it stands. -/
theorem fma_of_isNaN {a b c : Word} (nan : Word) (h : isNaN a = true ∨ isNaN b = true ∨ isNaN c = true) :
    fma nan a b c = nan := by
  rw [fma_eq, if_pos]
  rcases h with h | h | h <;> simp [fmaInvalid, h]

/-- A result that is no NaN does not depend on the NaN word. -/
theorem fma_nan_irrelevant {nan nan' : Word} (hn : isNaN nan = true) {a b c : Word}
    (h : isNaN (fma nan a b c) = false) : fma nan' a b c = fma nan a b c := by
  rw [isNaN_fma hn] at h
  rw [fma_eq, fma_eq, h]
  rfl

/-- On finite operands `fma` is R93's case 5. -/
theorem fma_of_isFinite {a b c : Word} (nan : Word) (ha : isFinite a = true) (hb : isFinite b = true)
    (hc : isFinite c = true) : fma nan a b c = fmaFinite a b c := by
  rw [fma_eq]
  simp [fmaInvalid, fmaValue, isNaN_of_isFinite, isInf_of_isFinite, ha, hb, hc]

/-! ## Division (R95) -/

/-- The operands on which R95 answers a NaN. -/
def fdivInvalid (x y : Word) : Bool :=
  isNaN x || isNaN y || (isInf x && isInf y) || (isZero x && isZero y)

/-- On the other operands the result is this word, in which no NaN word enters. -/
def fdivValue (x y : Word) : Word :=
  if isInf x then infWord (signBit x ^^ signBit y)
  else if isInf y then zeroWord (signBit x ^^ signBit y)
  else if isZero y then infWord (signBit x ^^ signBit y)
  else if isZero x then zeroWord (signBit x ^^ signBit y)
  else rnd (signBit x ^^ signBit y) (magUnits x) (magUnits y)

theorem isZero_of_isInf {w : Word} (h : isInf w = true) : isZero w = false := by
  by_contra hc
  rw [Bool.not_eq_false] at hc
  have := ((isZero_iff w).1 hc).1
  rw [((isInf_iff w).1 h).1] at this
  exact absurd this (by decide)

/-- Everything `fdiv` can answer: the NaN word on the invalid operands, else a word that does not depend on it. -/
theorem fdiv_eq (nan x y : Word) : fdiv nan x y = if fdivInvalid x y then nan else fdivValue x y := by
  unfold fdiv fdivInvalid fdivValue
  cases hx : isNaN x <;> cases hy : isNaN y <;> cases hix : isInf x <;> cases hiy : isInf y <;>
    simp [isZero_of_isInf, hix, hiy]
  cases isZero x <;> cases isZero y <;> simp

theorem isNaN_fdivValue (x y : Word) : isNaN (fdivValue x y) = false := by
  unfold fdivValue
  split
  · simp
  · split
    · simp
    · split
      · simp
      · split
        · simp
        · rename_i h _
          have hpos : 0 < magUnits y := Nat.pos_of_ne_zero fun h0 => h ((isZero_iff_magUnits y).2 h0)
          exact isNaN_rnd _ _ hpos

theorem isNaN_fdiv {nan : Word} (hn : isNaN nan = true) (x y : Word) : isNaN (fdiv nan x y) = fdivInvalid x y := by
  rw [fdiv_eq]
  cases h : fdivInvalid x y
  · simp [isNaN_fdivValue]
  · simpa using hn

theorem fdiv_nan_irrelevant {nan nan' : Word} (hn : isNaN nan = true) {x y : Word}
    (h : isNaN (fdiv nan x y) = false) : fdiv nan' x y = fdiv nan x y := by
  rw [isNaN_fdiv hn] at h
  rw [fdiv_eq, fdiv_eq, h]
  rfl

/-! ## Floor, round and the polynomial evaluator (R96, R97, R125) -/

theorem ffloor_of_isNaN {x : Word} (nan : Word) (h : isNaN x = true) : ffloor nan x = nan := by simp [ffloor, h]

theorem fround_of_isNaN {x : Word} (nan : Word) (h : isNaN x = true) : fround nan x = nan := by simp [fround, h]

/-- No NaN word enters the floor of a word that is no NaN. -/
theorem ffloor_nan_irrelevant {x : Word} (nan nan' : Word) (h : isNaN x = false) : ffloor nan' x = ffloor nan x := by
  simp [ffloor, h]

/-- No NaN word enters the rounding of a word that is no NaN. -/
theorem fround_nan_irrelevant {x : Word} (nan nan' : Word) (h : isNaN x = false) : fround nan' x = fround nan x := by
  simp [fround, h]

/-- The evaluator's recursion: the value of the higher coefficients enters one fused step with the lowest. -/
theorem horner_cons (nan t c c' : Word) (l : List Word) :
    horner nan t (c :: c' :: l) = fma nan (horner nan t (c' :: l)) t c := rfl

/-- A NaN argument makes the value of a polynomial of degree one or more the NaN word. -/
theorem horner_of_isNaN {t : Word} (nan c c' : Word) (l : List Word) (h : isNaN t = true) :
    horner nan t (c :: c' :: l) = nan := by
  rw [horner_cons]
  exact fma_of_isNaN nan (.inr (.inl h))

end Sys2Proof.Machine
end

