-- ==== Sys2Proof/Laws/Config.lean ====
section
/-! SUPPORT. The block's own configuration is valid, and `Store` rules out no valid configuration (00_scope.md R8). -/

namespace Sys2Proof

open Sys2Proof.Machine

theorem FiniteParts.word_eq (p : FiniteParts) :
    p.word = joinFields (BitVec.ofBool p.neg) (BitVec.ofNat 8 p.expo.val) p.mant := rfl

@[simp] theorem FiniteParts.isFinite_word (p : FiniteParts) : isFinite p.word = true := by
  rw [isFinite_iff, FiniteParts.word_eq, expField_joinFields]
  intro h
  have h1 := congrArg BitVec.toNat h
  have h2 := p.expo.isLt
  simp only [BitVec.toNat_ofNat] at h1
  omega

/-- The parts of a word, meaningful when it is finite. -/
def FiniteParts.ofWord (w : Word) : FiniteParts where
  neg := signBit w
  expo := ⟨(expField w).toNat % 255, Nat.mod_lt _ (by omega)⟩
  mant := mantField w

/-- Every finite word is some store entry. -/
theorem FiniteParts.word_ofWord {w : Word} (h : isFinite w = true) : (FiniteParts.ofWord w).word = w := by
  rw [isFinite_iff] at h
  have hlt : (expField w).toNat < 255 := by
    rcases Nat.lt_or_ge (expField w).toNat 255 with h1 | h1
    · exact h1
    · exact absurd (BitVec.eq_of_toNat_eq (by have := (expField w).isLt; simp; omega)) h
  rw [FiniteParts.word_eq]
  simp only [FiniteParts.ofWord, Nat.mod_eq_of_lt hlt, BitVec.ofNat_toNat, BitVec.setWidth_eq, joinFields_fields]

theorem Log2Coeffs.words_ok (p : Log2Coeffs) : log2CoeffsOk p.words = true := by
  rcases p with ⟨c0, c1, c2, _ | c3⟩ <;> simp [log2CoeffsOk, Log2Coeffs.words]

theorem Store.constantsOk (k : Store) : k.toCfg.constantsOk = true := by
  have h1 : isFinite 0x3F800000#32 = true := by decide
  cases hk : k.cbrtTwice <;>
    simp [Cfg.constantsOk, Store.toCfg, Log2Coeffs.words_ok, one, hk, h1]

/-- Whatever its constants are, the configuration of a store meets R8's constraints. -/
theorem Store.toCfg_valid (k : Store) : k.toCfg.Valid :=
  ⟨k.constantsOk, fun _ _ => isQuietNaN_quietNaN _ _⟩

/-- The block's own configuration meets R8's constraints. -/
theorem Config.cfg_valid : Config.cfg.Valid := Config.store.toCfg_valid

/-! ## Every valid configuration is one of a store -/

/-- A quiet NaN is rebuilt from its sign and the 22 payload bits below the quiet bit. -/
theorem quietNaN_of_isQuietNaN {w : Word} (h : isQuietNaN w = true) :
    quietNaN (signBit w) (w.extractLsb' 0 22) = w := by
  unfold isQuietNaN at h
  rw [Bool.and_eq_true, isNaN_iff] at h
  obtain ⟨⟨he, -⟩, hq⟩ := h
  apply BitVec.eq_of_getLsbD_eq
  intro i hi
  have h22 : w.getLsbD 22 = true := by simpa [mantField, BitVec.getLsbD_extractLsb'] using hq
  have hexp : ∀ j, j < 8 → w.getLsbD (23 + j) = true := by
    intro j hj
    have := congrArg (fun x : BitVec 8 => x.getLsbD j) he
    simp only [expField, BitVec.getLsbD_extractLsb', hj, decide_true, Bool.true_and] at this
    rw [this]
    interval_cases j <;> rfl
  simp only [quietNaN, BitVec.getLsbD_append, BitVec.getLsbD_extractLsb']
  by_cases h1 : i < 22
  · simp [h1, show i < 31 by omega, show i < 23 by omega]
  · by_cases h2 : i = 22
    · subst h2; simp [h22]
    · by_cases h3 : i < 31
      · obtain ⟨j, rfl⟩ : ∃ j, i = 23 + j := ⟨i - 23, by omega⟩
        have hj : j < 8 := by omega
        rw [hexp j hj]
        simp only [h3, if_true, show ¬ (23 + j < 23) by omega, if_false, show 23 + j - 23 = j by omega]
        interval_cases j <;> rfl
      · obtain rfl : i = 31 := by omega
        simp [signBit_eq_getLsbD]

/-- Every admissible log2 coefficient list is that of some `Log2Coeffs`. -/
theorem Log2Coeffs.exists_words {l : List Word} (h : log2CoeffsOk l = true) : ∃ p : Log2Coeffs, p.words = l := by
  simp only [log2CoeffsOk, Bool.and_eq_true, Bool.or_eq_true, beq_iff_eq, List.all_eq_true] at h
  obtain ⟨hl, hf⟩ := h
  rcases l with _ | ⟨a, _ | ⟨b, _ | ⟨c, _ | ⟨d, _ | ⟨e, l⟩⟩⟩⟩⟩ <;> simp at hl
  · exact ⟨⟨.ofWord a, .ofWord b, .ofWord c, none⟩, by
      simp [Log2Coeffs.words, FiniteParts.word_ofWord, hf]⟩
  · exact ⟨⟨.ofWord a, .ofWord b, .ofWord c, some (.ofWord d)⟩, by
      simp [Log2Coeffs.words, FiniteParts.word_ofWord, hf]⟩

/-- `Store` leaves out no configuration that meets R8's constraints. -/
theorem Store.toCfg_surjective {c : Cfg} (h : c.Valid) : ∃ k : Store, k.toCfg = c := by
  obtain ⟨hc, hn⟩ := h
  rcases c with ⟨log2P, log2Q, exp2C, sinC, rtau, tauHi, tauLo, rpi, piHi, piLo, ihh, ihl, hh, hl, qh, ql,
    magic, iters, nangen, ood⟩
  simp only [Cfg.constantsOk, Bool.and_eq_true, Bool.or_eq_true, beq_iff_eq, List.all_eq_true] at hc
  obtain ⟨⟨⟨⟨⟨hP, hQ⟩, hE⟩, hS⟩, hR⟩, hI⟩ := hc
  obtain ⟨P, rfl⟩ := Log2Coeffs.exists_words hP
  obtain ⟨Q, rfl⟩ := Log2Coeffs.exists_words hQ
  obtain ⟨⟨hEl, hEf⟩, hE0⟩ := hE
  obtain ⟨hSl, hSf⟩ := hS
  obtain ⟨e0, e1, e2, e3, e4, e5, rfl⟩ : ∃ a b c d e f, exp2C = [a, b, c, d, e, f] := by
    rcases exp2C with _ | ⟨a, _ | ⟨b, _ | ⟨c, _ | ⟨d, _ | ⟨e, _ | ⟨f, _ | ⟨g, l⟩⟩⟩⟩⟩⟩⟩ <;> simp at hEl
    exact ⟨a, b, c, d, e, f, rfl⟩
  obtain ⟨s0, s1, s2, s3, s4, s5, rfl⟩ : ∃ a b c d e f, sinC = [a, b, c, d, e, f] := by
    rcases sinC with _ | ⟨a, _ | ⟨b, _ | ⟨c, _ | ⟨d, _ | ⟨e, _ | ⟨f, _ | ⟨g, l⟩⟩⟩⟩⟩⟩⟩ <;> simp at hSl
    exact ⟨a, b, c, d, e, f, rfl⟩
  obtain rfl : e0 = one := by simpa using hE0
  refine ⟨⟨P, Q, .ofWord e1, .ofWord e2, .ofWord e3, .ofWord e4, .ofWord e5, .ofWord s0, .ofWord s1, .ofWord s2,
    .ofWord s3, .ofWord s4, .ofWord s5, .ofWord rtau, .ofWord tauHi, .ofWord tauLo, .ofWord rpi, .ofWord piHi,
    .ofWord piLo, .ofWord ihh, .ofWord ihl, .ofWord hh, .ofWord hl, .ofWord qh, .ofWord ql, magic, iters == 2,
    fun op ws => (signBit (nangen op ws), (nangen op ws).extractLsb' 0 22), ood⟩, ?_⟩
  have hN : (fun op ws => quietNaN (signBit (nangen op ws)) ((nangen op ws).extractLsb' 0 22)) = nangen :=
    funext fun op => funext fun ws => quietNaN_of_isQuietNaN (hn op ws)
  have hIt : (if (iters == 2) = true then 2 else 1) = iters := by
    rcases hI with rfl | rfl <;> rfl
  simp only [List.mem_cons, List.not_mem_nil, or_false, forall_eq_or_imp, forall_eq] at hEf hSf hR
  simp only [Store.toCfg, hN, hIt, List.map_cons, List.map_nil, one]
  simp only [FiniteParts.word_ofWord, hEf, hSf, hR]

end Sys2Proof
end

