-- ==== Sys2Proof/Laws/PerInstr.lean ====
section
/-! SUPPORT. Facts about the operations as syntax, one lemma per constructor (LAWS.json's per_instruction families). -/

/-- The operation fits the block's ports: it reads 1 to 4 operand ports and drives 1 to 3 result ports (R25, R51). -/
def Sys2Proof.Laws.PortsFit.Statement (i : Sys2Proof.Instr) : Prop := i.wellFormed = true

theorem Sys2Proof.Laws.PortsFit.decomp : Sys2Proof.Laws.PortsFit.Statement .decomp := rfl
theorem Sys2Proof.Laws.PortsFit.compose : Sys2Proof.Laws.PortsFit.Statement .compose := rfl
theorem Sys2Proof.Laws.PortsFit.mant1 : Sys2Proof.Laws.PortsFit.Statement .mant1 := rfl
theorem Sys2Proof.Laws.PortsFit.expf : Sys2Proof.Laws.PortsFit.Statement .expf := rfl
theorem Sys2Proof.Laws.PortsFit.pow2i : Sys2Proof.Laws.PortsFit.Statement .pow2i := rfl
theorem Sys2Proof.Laws.PortsFit.cbseed : Sys2Proof.Laws.PortsFit.Statement .cbseed := rfl
theorem Sys2Proof.Laws.PortsFit.fma : Sys2Proof.Laws.PortsFit.Statement .fma := rfl
theorem Sys2Proof.Laws.PortsFit.div : Sys2Proof.Laws.PortsFit.Statement .div := rfl
theorem Sys2Proof.Laws.PortsFit.floor : Sys2Proof.Laws.PortsFit.Statement .floor := rfl
theorem Sys2Proof.Laws.PortsFit.round : Sys2Proof.Laws.PortsFit.Statement .round := rfl
theorem Sys2Proof.Laws.PortsFit.fabs : Sys2Proof.Laws.PortsFit.Statement .fabs := rfl
theorem Sys2Proof.Laws.PortsFit.mulsign : Sys2Proof.Laws.PortsFit.Statement .mulsign := rfl
theorem Sys2Proof.Laws.PortsFit.plog2n : Sys2Proof.Laws.PortsFit.Statement .plog2n := rfl
theorem Sys2Proof.Laws.PortsFit.plog2d : Sys2Proof.Laws.PortsFit.Statement .plog2d := rfl
theorem Sys2Proof.Laws.PortsFit.log2 : Sys2Proof.Laws.PortsFit.Statement .log2 := rfl
theorem Sys2Proof.Laws.PortsFit.pexp2 : Sys2Proof.Laws.PortsFit.Statement .pexp2 := rfl
theorem Sys2Proof.Laws.PortsFit.exp2 : Sys2Proof.Laws.PortsFit.Statement .exp2 := rfl
theorem Sys2Proof.Laws.PortsFit.redsin : Sys2Proof.Laws.PortsFit.Statement .redsin := rfl
theorem Sys2Proof.Laws.PortsFit.redcos : Sys2Proof.Laws.PortsFit.Statement .redcos := rfl
theorem Sys2Proof.Laws.PortsFit.psin : Sys2Proof.Laws.PortsFit.Statement .psin := rfl
theorem Sys2Proof.Laws.PortsFit.sin : Sys2Proof.Laws.PortsFit.Statement .sin := rfl
theorem Sys2Proof.Laws.PortsFit.cos : Sys2Proof.Laws.PortsFit.Statement .cos := rfl
theorem Sys2Proof.Laws.PortsFit.halley : Sys2Proof.Laws.PortsFit.Statement .halley := rfl
theorem Sys2Proof.Laws.PortsFit.cbrt : Sys2Proof.Laws.PortsFit.Statement .cbrt := rfl
theorem Sys2Proof.Laws.PortsFit.cbrta : Sys2Proof.Laws.PortsFit.Statement .cbrta := rfl
theorem Sys2Proof.Laws.PortsFit.dfmul : Sys2Proof.Laws.PortsFit.Statement .dfmul := rfl
theorem Sys2Proof.Laws.PortsFit.dfmuls : Sys2Proof.Laws.PortsFit.Statement .dfmuls := rfl
theorem Sys2Proof.Laws.PortsFit.dfqts : Sys2Proof.Laws.PortsFit.Statement .dfqts := rfl
theorem Sys2Proof.Laws.PortsFit.dfdiv : Sys2Proof.Laws.PortsFit.Statement .dfdiv := rfl
end

