-- ==== Sys2Proof/Laws/Safety.lean ====
section
/-! SUPPORT. What the accuracy terms of Safety.lean can be: one ULP is positive and unique, and a bound may be raised and a
sample set shrunk. -/

namespace Sys2Proof.Safety

open Sys2Proof.Machine

theorem IsUlp.pos {y u : ℝ} (h : IsUlp y u) : 0 < u := by
  rcases h with ⟨-, rfl⟩ | ⟨e, -, -, rfl⟩ <;> positivity

/-- At one magnitude there is one ULP. -/
theorem IsUlp.unique {y u v : ℝ} (hu : IsUlp y u) (hv : IsUlp y v) : u = v := by
  have hpos : ∀ e : ℤ, (0 : ℝ) < (2 : ℝ) ^ e := fun e => by positivity
  rcases hu with ⟨h0, rfl⟩ | ⟨e, he, he', rfl⟩ <;> rcases hv with ⟨h0', rfl⟩ | ⟨f, hf, hf', rfl⟩
  · rfl
  · rw [h0, abs_zero] at hf
    exact absurd hf (not_le.2 (hpos f))
  · rw [h0', abs_zero] at he
    exact absurd he (not_le.2 (hpos e))
  · have h1 : e < f + 1 := (zpow_lt_zpow_iff_right₀ (by norm_num)).1 (lt_of_le_of_lt he hf')
    have h2 : f < e + 1 := (zpow_lt_zpow_iff_right₀ (by norm_num)).1 (lt_of_le_of_lt hf he')
    rw [show e = f by omega]

theorem WithinUlps.mono {rd : Reading} {b b' y : ℝ} {w : Word} (hb : b ≤ b') (h : WithinUlps rd b y w) :
    WithinUlps rd b' y w := by
  obtain ⟨hf, t, u, ht, hu, hle⟩ := h
  exact ⟨hf, t, u, ht, hu, hle.trans (mul_le_mul_of_nonneg_right hb hu.pos.le)⟩

theorem BoundedError.mono {rd : Reading} {b b' : ℝ} {xs ys : Set Word} {f : Word → Word} {ref : ℝ → ℝ} (hb : b ≤ b')
    (hs : ys ⊆ xs) (h : BoundedError rd b xs f ref) : BoundedError rd b' ys f ref :=
  fun x hx => (h x (hs hx)).mono hb

end Sys2Proof.Safety
end

