-- ==== Sys2Proof/Laws/State.lean ====
section
/-! SUPPORT. What each update of the ports does to each port, and what the shared operations over them answer. -/

namespace Sys2Proof.Machine

variable (s t : State) (op : Command) (p : Ports) (r : Results) (nbits w : Nat)

/-! ## Presenting a transaction -/

@[simp] theorem State.present_op : (s.present op p).op = op := rfl
@[simp] theorem State.present_a : (s.present op p).a = p.a := rfl
@[simp] theorem State.present_b : (s.present op p).b = p.b := rfl
@[simp] theorem State.present_c : (s.present op p).c = p.c := rfl
@[simp] theorem State.present_d : (s.present op p).d = p.d := rfl
@[simp] theorem State.present_out : (s.present op p).out = s.out := rfl
@[simp] theorem State.present_ports : (s.present op p).ports = p := rfl

/-! ## Reading the ports -/

@[simp] theorem State.ports_a : s.ports.a = s.a := rfl
@[simp] theorem State.ports_b : s.ports.b = s.b := rfl
@[simp] theorem State.ports_c : s.ports.c = s.c := rfl
@[simp] theorem State.ports_d : s.ports.d = s.d := rfl
@[simp] theorem State.ports_out_update : ({ s with out := some r } : State).ports = s.ports := rfl

/-! ## Driving the command port with a table word -/

@[simp] theorem State.withFetchWord_op : (s.withFetchWord nbits w).op = commandOfTable nbits w := rfl
@[simp] theorem State.withFetchWord_ports : (s.withFetchWord nbits w).ports = s.ports := rfl
@[simp] theorem State.withFetchWord_out : (s.withFetchWord nbits w).out = s.out := rfl

/-! ## Returning results -/

/-- Everything `State.answer` can do: it completes, and only the result ports change. -/
theorem State.answer_next_iff : s.answer r = .next t ↔ t = { s with out := some r } := by
  constructor
  · intro h
    injection h with h
    exact h.symm
  · rintro rfl
    rfl

@[simp] theorem drive1_r0 (x : Word) : (drive1 x).r0 = x := rfl
@[simp] theorem drive1_r1 (x : Word) : (drive1 x).r1 = 0#32 := rfl
@[simp] theorem drive1_r2 (x : Word) : (drive1 x).r2 = 0#32 := rfl
@[simp] theorem drive2_r0 (x y : Word) : (drive2 x y).r0 = x := rfl
@[simp] theorem drive2_r1 (x y : Word) : (drive2 x y).r1 = y := rfl
@[simp] theorem drive2_r2 (x y : Word) : (drive2 x y).r2 = 0#32 := rfl
@[simp] theorem drive3_r0 (x y z : Word) : (drive3 x y z).r0 = x := rfl
@[simp] theorem drive3_r1 (x y z : Word) : (drive3 x y z).r1 = y := rfl
@[simp] theorem drive3_r2 (x y z : Word) : (drive3 x y z).r2 = z := rfl

/-! ## Reset -/

@[simp] theorem State.reset_op : State.reset.op = 0#8 := rfl
@[simp] theorem State.reset_out : State.reset.out = none := rfl

/-! ## Steps -/

/-- A step with result `t` ran an assigned operation, whose meaning answered `t`. -/
theorem step_next_inv (h : step s = .next t) : ∃ i, decode s.op = some i ∧ exec i s = .next t := by
  unfold step at h
  split at h
  · exact ⟨_, ‹_›, h⟩
  · cases h

/-- A refused step met a reserved command word. -/
theorem step_of_decode_none (h : decode s.op = none) : step s = .refused (.reservedCommand s.op) := by
  unfold step
  rw [h]

end Sys2Proof.Machine
end

