-- ==== Sys2Proof/Tests/Slice0.lean ====
section
/-! SUPPORT. Tests. Expected words come from spec/: 95_test_vectors.md sections 3 and 4 (its tables are named at each
test), the examples of the rules, or hand calculation from a rule. A second part shows, for every obligation with
hypotheses, a concrete input that meets them. -/

-- One theorem at a time: otherwise each of the many kernel evaluations below takes a thread of its own.
set_option Elab.async false

namespace Sys2Proof.Tests

open Sys2Proof Sys2Proof.Machine Sys2Proof.Safety

/-! ## The example configuration (95_test_vectors.md section 2), not the hardware's constants -/

def cfgExample : Cfg where
  log2P := [0x3E876BC5#32, 0x3F69E8B1#32, 0x3E876BC5#32]
  log2Q := [0x3D4CCCCD#32, 0x3EE66666#32, 0x3EE66666#32, 0x3D4CCCCD#32]
  exp2C := [0x3F800000#32, 0x3F317218#32, 0x3E75FDF0#32, 0x3D635847#32, 0x3C1D955B#32, 0x3AAEC3FF#32]
  sinC := [0x3F800000#32, 0xBE2AAAAB#32, 0x3C088889#32, 0xB9500D01#32, 0x3638EF1D#32, 0xB2D7322B#32]
  rtau := 0x3E22F983#32
  tauHi := 0x40C90FDB#32
  tauLo := 0x343BBD2E#32
  rpi := 0x3EA2F983#32
  piHi := 0x40490FDB#32
  piLo := 0x33BBBD2E#32
  invHalfHi := 0x3EA2F983#32
  invHalfLo := 0x325C9C88#32
  halfHi := 0x40490FDB#32
  halfLo := 0xB3BBBD2E#32
  quarterHi := 0x3FC90FDB#32
  quarterLo := 0xB33BBD2E#32
  cbrtMagic := 0x2A555555#32
  cbrtIters := 2
  nangen := fun _ _ => 0x7FC00000#32
  ood := fun _ _ => 0xDEADBEEF#32

/-- The results of an operation under the example configuration. -/
def run (i : Instr) (a b c d : Word) : Results := transaction cfgExample i ⟨a, b, c, d⟩

/-- `r0` of a one-operand operation under the example configuration. -/
def run1 (i : Instr) (a : Word) : Word := (run i a 0#32 0#32 0#32).r0

/-- A state that presents operation `i` with these operands. -/
def presenting (i : Instr) (a b c d : Word) : State := State.reset.present (encode i) ⟨a, b, c, d⟩

/-! ## Well-formedness: each check refuses an ill-formed term -/

theorem test_ports_no_operand_refused : Instr.wellFormed.portsFit 0 1 = false := by decide
theorem test_ports_five_operands_refused : Instr.wellFormed.portsFit 5 1 = false := by decide
theorem test_ports_no_result_refused : Instr.wellFormed.portsFit 1 0 = false := by decide
theorem test_ports_four_results_refused : Instr.wellFormed.portsFit 1 4 = false := by decide

theorem test_log2_degree_one_refused : log2CoeffsOk [one, one] = false := by decide +kernel
theorem test_log2_infinite_coefficient_refused : log2CoeffsOk [one, infWord false, one] = false := by decide +kernel

theorem test_cfg_example_ok : cfgExample.constantsOk = true := by decide +kernel
theorem test_cfg_log2P_refused : Cfg.constantsOk { cfgExample with log2P := [] } = false := by decide +kernel
theorem test_cfg_log2Q_refused : Cfg.constantsOk { cfgExample with log2Q := [one] } = false := by decide +kernel
theorem test_cfg_exp2_length_refused : Cfg.constantsOk { cfgExample with exp2C := [one] } = false := by decide +kernel
theorem test_cfg_exp2_constant_term_refused :
    Cfg.constantsOk { cfgExample with exp2C := two :: cfgExample.exp2C.tail } = false := by decide +kernel
theorem test_cfg_exp2_infinite_refused :
    Cfg.constantsOk { cfgExample with exp2C := [one, one, one, one, one, infWord true] } = false := by decide +kernel
theorem test_cfg_sin_length_refused : Cfg.constantsOk { cfgExample with sinC := [one] } = false := by decide +kernel
theorem test_cfg_sin_nan_refused :
    Cfg.constantsOk { cfgExample with sinC := [one, one, one, one, one, 0x7FC00000#32] } = false := by decide +kernel
theorem test_cfg_reduction_constant_refused :
    Cfg.constantsOk { cfgExample with quarterLo := infWord false } = false := by decide +kernel
theorem test_cfg_three_iterations_refused : Cfg.constantsOk { cfgExample with cbrtIters := 3 } = false := by decide +kernel

theorem test_example_nan_is_quiet : isQuietNaN 0x7FC00000#32 = true := by decide +kernel
theorem test_cfg_example_valid : cfgExample.Valid := ⟨test_cfg_example_ok, fun _ _ => test_example_nan_is_quiet⟩
theorem test_cfg_signalling_nan_refused : ¬ Cfg.Valid { cfgExample with nangen := fun _ _ => 0x7F800001#32 } :=
  fun h => absurd (h.2 0#8 []) (by decide +kernel)

theorem test_line_wrong_dst_count_refused : lineOk [] (.op .decomp [0] [.word one]) = false := by decide
theorem test_line_wrong_src_count_refused : lineOk [] (.op .fma [0] [.word one, .word one]) = false := by decide
theorem test_line_unwritten_variable_refused : lineOk [] (.op .mant1 [0] [.var 7]) = false := by decide
theorem test_line_pseudo_unwritten_refused : lineOk [1] (.fadd 0 (.var 1) (.var 2)) = false := by decide
theorem test_program_use_before_write_refused :
    programOk [] [.fneg 1 (.var 0), .f2b 0 (.word one)] = false := by decide

/-! ## Decoding: command words written out from R50 and R52, bits 7:4 the family, bits 3:0 the index -/

theorem test_decode_BitDecomposition :
    [decode 0b00000000#8, decode 0b00000001#8, decode 0b00000010#8, decode 0b00000011#8, decode 0b00000100#8, decode 0b00000101#8] =
      [some .decomp, some .compose, some .mant1, some .expf, some .pow2i, some .cbseed] := by decide
theorem test_decode_FusedStep :
    [decode 0b00010000#8, decode 0b00010001#8, decode 0b00010010#8, decode 0b00010011#8, decode 0b00010100#8] =
      [some .fma, some .div, some .floor, some .round, some .fabs] := by decide
theorem test_decode_SignTransfer :
    [decode 0b00100000#8] =
      [some .mulsign] := by decide
theorem test_decode_Log2 :
    [decode 0b00110000#8, decode 0b00110001#8, decode 0b00110010#8] =
      [some .plog2n, some .plog2d, some .log2] := by decide
theorem test_decode_Exp2 :
    [decode 0b01000000#8, decode 0b01000001#8] =
      [some .pexp2, some .exp2] := by decide
theorem test_decode_AngleReduction :
    [decode 0b01010000#8, decode 0b01010001#8, decode 0b01010010#8, decode 0b01010011#8, decode 0b01010100#8] =
      [some .redsin, some .redcos, some .psin, some .sin, some .cos] := by decide
theorem test_decode_CubeRoot :
    [decode 0b01100000#8, decode 0b01100001#8, decode 0b01100010#8] =
      [some .halley, some .cbrt, some .cbrta] := by decide
theorem test_decode_DoubleFloat :
    [decode 0b01110000#8, decode 0b01110001#8, decode 0b01110010#8, decode 0b01110011#8] =
      [some .dfmul, some .dfmuls, some .dfqts, some .dfdiv] := by decide

/-- R54: the first reserved code of each gap, and the first without a family. -/
theorem test_decode_reserved :
    [decode 0x06#8, decode 0x15#8, decode 0x21#8, decode 0x33#8, decode 0x42#8, decode 0x55#8, decode 0x63#8,
      decode 0x74#8, decode 0x80#8, decode 0xFF#8].all Option.isNone = true := by decide

/-- A word longer than a command word is none (R50: one length, 8 bits). -/
theorem test_decode_longer_word : decodeTableWord 16 0x110 = none := by decide

theorem test_step_refuses_reserved :
    step (State.reset.present 0x06#8 ⟨0#32, 0#32, 0#32, 0#32⟩) = .refused (.reservedCommand 0x06#8) := rfl

/-- The fetch word stands on port `op`, and nothing else changes. -/
theorem test_withFetchWord : (State.reset.withFetchWord 8 0x62).op = 0x62#8 ∧
    (State.reset.withFetchWord 8 0x62).a = 0#32 ∧ (State.reset.withFetchWord 8 0x62).out = none := by decide

/-! ## BitDecomposition (vectors 3.1 to 3.6) -/

theorem test_decomp_minus_six_and_a_quarter :
    run .decomp 0xC0C80000#32 0#32 0#32 0#32 = ⟨1#32, 0x81#32, 0x480000#32⟩ := by decide +kernel
theorem test_decomp_all_ones :
    run .decomp 0xFFFFFFFF#32 0#32 0#32 0#32 = ⟨1#32, 0xFF#32, 0x7FFFFF#32⟩ := by decide +kernel
theorem test_compose_upper_bits_ignored :
    run .compose 0xFFFFFFFE#32 0x0000017F#32 0xFF800000#32 0#32 = ⟨0x3F800000#32, 0#32, 0#32⟩ := by decide +kernel
theorem test_mant1_keeps_the_sign : run1 .mant1 0xC1200000#32 = 0xBFA00000#32 := by decide +kernel
theorem test_expf_one_half : run1 .expf 0x3F000000#32 = 0xBF800000#32 := by decide +kernel
theorem test_expf_all_ones : run1 .expf 0xFFFFFFFF#32 = 0x43000000#32 := by decide +kernel
theorem test_pow2i_smallest : run1 .pow2i 0xC2FC0000#32 = 0x00800000#32 := by decide +kernel
theorem test_pow2i_sum_rounds_up : run1 .pow2i 0x3F7FFF00#32 = 0x40000000#32 := by decide +kernel
theorem test_cbseed_sign_is_part_of_the_integer : run1 .cbseed 0xBF800000#32 = 0x6A2AAAAA#32 := by decide +kernel

/-! ## FusedStep (vectors 3.7 to 3.9) and SignTransfer (3.10) -/

theorem test_fma_product_would_overflow :
    (run .fma 0x7F7FFFFF#32 0x40000000#32 0xFF7FFFFF#32 0#32).r0 = 0x7F7FFFFF#32 := by decide +kernel
theorem test_fma_half_ulp_over_the_top :
    (run .fma 0x7F7FFFFF#32 0x3F800000#32 0x73000000#32 0#32).r0 = 0x7F800000#32 := by decide +kernel
theorem test_div_one_third : (run .div 0x3F800000#32 0x40400000#32 0#32 0#32).r0 = 0x3EAAAAAB#32 := by decide +kernel
theorem test_div_subnormal_tie : (run .div 0x00000003#32 0x40000000#32 0#32 0#32).r0 = 0x00000002#32 := by decide +kernel
theorem test_floor_negative_subnormal : run1 .floor 0x80000001#32 = 0xBF800000#32 := by decide +kernel
theorem test_floor_largest_fraction : run1 .floor 0x4AFFFFFF#32 = 0x4AFFFFFE#32 := by decide +kernel
theorem test_round_tie_away : run1 .round 0xC0200000#32 = 0xC0400000#32 := by decide +kernel
theorem test_round_keeps_the_sign_of_zero : run1 .round 0xBEFFFFFF#32 = 0x80000000#32 := by decide +kernel
theorem test_fabs_keeps_the_payload : run1 .fabs 0xFFC00001#32 = 0x7FC00001#32 := by decide +kernel
theorem test_mulsign_is_no_copy :
    (run .mulsign 0xBF800000#32 0xC0000000#32 0#32 0#32).r0 = 0x3F800000#32 := by decide +kernel

/-! ## Log2 and Exp2 (vectors 4.1 to 4.4, example configuration) -/

theorem test_plog2n_five_quarters : run1 .plog2n 0x3FA00000#32 = 0x3EE8F279#32 := by decide +kernel
theorem test_plog2d_five_quarters : run1 .plog2d 0x3FA00000#32 = 0x3FB4E666#32 := by decide +kernel
theorem test_log2_ten : run1 .log2 0x41200000#32 = 0x40549A78#32 := by decide +kernel
theorem test_log2_of_minus_one_is_ood : run1 .log2 0xBF800000#32 = 0xDEADBEEF#32 := by decide +kernel
theorem test_pexp2_three_quarters : run1 .pexp2 0x3F400000#32 = 0x3FD74404#32 := by decide +kernel
theorem test_exp2_minus_two_and_a_half : run1 .exp2 0xC0200000#32 = 0x3E3504DE#32 := by decide +kernel
theorem test_exp2_top_of_the_domain : run1 .exp2 0x42FFFFFF#32 = 0x7F7FFA0F#32 := by decide +kernel

/-! ## Sine and cosine (vectors 4.5, 4.6) -/

theorem test_redsin_four : run .redsin 0x40800000#32 0#32 0#32 0#32 = ⟨0xC0121FB5#32, 0x3F5BC095#32, 0#32⟩ := by
  decide +kernel
theorem test_redcos_minus_one : run .redcos 0xBF800000#32 0#32 0#32 0#32 = ⟨0x3F121FB5#32, 0x3F800000#32, 0#32⟩ := by
  decide +kernel
theorem test_redcos_hundred : run .redcos 0x42C80000#32 0#32 0#32 0#32 = ⟨0x3F851932#32, 0x3F800000#32, 0#32⟩ := by
  decide +kernel
theorem test_psin_half : run1 .psin 0x3F000000#32 = 0x3EF57744#32 := by decide +kernel
theorem test_sin_four : run1 .sin 0x40800000#32 = 0xBF41BDCE#32 := by decide +kernel
theorem test_cos_hundred : run1 .cos 0x42C80000#32 = 0x3F5CC0ED#32 := by decide +kernel

/-! ## Cube root (vectors 3.11, 4.7) and double-float (3.12 to 3.15) -/

theorem test_halley_first_step :
    (run .halley 0x4047FFFF#32 0x41D80000#32 0#32 0#32).r0 = 0x4040000C#32 := by decide +kernel
theorem test_halley_at_x_zero : (run .halley 0x3F800000#32 0#32 0#32 0#32).r0 = 0x3ECCCCCC#32 := by decide +kernel
theorem test_cbrt_two : run1 .cbrt 0x40000000#32 = 0x3FA14518#32 := by decide +kernel
theorem test_cbrt_one_iteration :
    (transaction { cfgExample with cbrtIters := 1 } .cbrt ⟨0x41D80000#32, 0#32, 0#32, 0#32⟩).r0 = 0x4040000C#32 := by
  decide +kernel
theorem test_cbrta_of_999 : run1 .cbrta 0x4479C000#32 = 0x411FF258#32 := by decide +kernel
theorem test_dfmul_error : run .dfmul 0x3F800001#32 0x3F800001#32 0#32 0#32 = ⟨0x3F800002#32, 0x28800000#32, 0#32⟩ := by
  decide +kernel
theorem test_dfmuls_no_renormalisation :
    run .dfmuls 0x3F800001#32 0x33800000#32 0x3F800001#32 0#32 = ⟨0x3F800002#32, 0x33800003#32, 0#32⟩ := by decide +kernel
theorem test_dfqts_precondition_violated :
    run .dfqts 0x33800000#32 0#32 0x3F800001#32 0#32 = ⟨0x3F800002#32, 0xB4000000#32, 0#32⟩ := by decide +kernel
theorem test_dfdiv_low_word_matters :
    (run .dfdiv 0x3F800000#32 0#32 0x40400000#32 0x33800000#32).r0 = 0x3EAAAAAA#32 := by decide +kernel

/-! ## Host programs (R57, R58; 95_test_vectors.md program P6) -/

theorem test_literals : [floatLiteral false 10 1, floatLiteral true 0 1, floatLiteral false 3830 1, floatLiteral true 15 1] =
    [0x3F800000#32, 0x80000000#32, 0x43BF8000#32, 0xBFC00000#32] := by decide +kernel

/-- Log entry 19: a literal on the overflow threshold, and negative ones on and above half the smallest subnormal. -/
theorem test_literals_out_of_range :
    [floatLiteral false (2 ^ 128 - 2 ^ 103) 0, floatLiteral true (5 ^ 150) 150, floatLiteral true (3 * 5 ^ 151) 151] =
      [0x7F800000#32, 0x80000000#32, 0x80000001#32] := by decide +kernel

/-- P6: compose 8.0, take the logarithm and the power back, decompose. -/
def programP6 : List Line :=
  [.op .compose [3] [.var 0, .var 1, .var 2], .op .log2 [4] [.var 3], .op .exp2 [5] [.var 4],
    .op .decomp [6, 7, 8] [.var 5]]

theorem test_program_P6 :
    (runProgram cfgExample [(0, 0#32), (1, 0x82#32), (2, 0#32)] programP6).map
      (fun env => [env.lookup 6, env.lookup 7, env.lookup 8]) = some [some 0#32, some 0x82#32, some 0#32] := by
  decide +kernel

theorem test_sequence_of_requests :
    serve State.reset [⟨0x14#8, ⟨0xBF800000#32, 0#32, 0#32, 0#32⟩⟩, ⟨0x06#8, ⟨0#32, 0#32, 0#32, 0#32⟩⟩] =
      [some ⟨0x3F800000#32, 0#32, 0#32⟩, none] := by decide +kernel

/-! ## Accuracy terms: grids, and R175's scenario -/

/-- A coarse grid on R143's range: -10, -5, 0, 5. -/
def coarseGrid (i : ℕ) : Word := [0xC1200000#32, 0xC0A00000#32, 0x00000000#32, 0x40A00000#32].getD i 0#32

theorem test_coarse_grid : Safety.IsGrid (-10) 10 5 coarseGrid := by
  refine ⟨by decide +kernel, fun i hi => ?_⟩
  have h : (i : ℚ) < (4 : ℕ) := by push_cast; linarith
  have hall : ∀ i < 4, (isFinite (coarseGrid i) = true ∧ -10 ≤ val (coarseGrid i) ∧ val (coarseGrid i) < 10) ∧
      |val (coarseGrid i) - (-10 + (i : ℚ) * 5)| < 5 / 2 := by decide +kernel
  exact hall i (by exact_mod_cast h)

/-- The words of -100 + i / 10, each rounded once, meet `IsGrid`'s conditions at both ends and around 0 (R157). -/
def sineGrid (i : ℕ) : Word := if i < 1000 then floatLiteral true (1000 - i) 1 else floatLiteral false (i - 1000) 1

theorem test_sine_grid : ∀ i ∈ [0, 1, 999, 1000, 1001, 1999], isFinite (sineGrid i) = true ∧ -100 ≤ val (sineGrid i) ∧
    val (sineGrid i) < 100 ∧ |val (sineGrid i) - (-100 + (i : ℚ) * (1 / 10))| < 1 / 10 / 2 := by decide +kernel

/-- 95_test_vectors.md S6: the example configuration gives 3.0 for both, so its `CBRTA` is not strictly closer. -/
theorem test_example_at_27 : Safety.publicWord cfgExample .cbrt 0x41D80000#32 = three ∧
    Safety.publicWord cfgExample .cbrta 0x41D80000#32 = three := by decide +kernel

/-! ## Witnesses: a concrete input that meets the hypotheses of each obligation that has some -/

theorem witness_StepRunsTheDecodedOperation :
    decode (presenting .cbrta one 0#32 0#32 0#32).op = some .cbrta := by decide +kernel

/-- A reserved code, and an assigned one. -/
theorem witness_ReservedCommandsAreRefused :
    (0x80 ≤ (State.reset.present 0x80#8 ⟨0#32, 0#32, 0#32, 0#32⟩).op.toNat) ∧
      (presenting .dfdiv 0#32 0#32 0#32 0#32).op.toNat = 0x73 := by decide +kernel

theorem witness_DecodeAndEncodeAgree : decode 0x73#8 = some .dfdiv := by decide

theorem witness_AssignedCommandsAlwaysComplete :
    (decode (presenting .fma one one one one).op).isSome = true := by decide +kernel

/-- Two states that agree on DFDIV's four ports, and two that agree on the one port LOG2 reads. -/
theorem witness_UnreadPortsIgnored :
    readsOf .dfdiv = 4 ∧ readsOf .log2 = 1 ∧
      (presenting .log2 two one one one).a = (presenting .log2 two 0#32 0#32 0#32).a := by decide +kernel

theorem witness_StepIsIdempotent :
    ∃ t, step (presenting .mulsign one negOne 0#32 0#32) = .next t := ⟨_, rfl⟩

theorem witness_RequestsAreServedAsIfAlone :
    List.Perm [(⟨0x14#8, ⟨one, one, one, one⟩⟩ : Request), ⟨0x06#8, ⟨one, one, one, one⟩⟩]
      [⟨0x06#8, ⟨one, one, one, one⟩⟩, ⟨0x14#8, ⟨one, one, one, one⟩⟩] := List.Perm.swap _ _ _

/-- A state whose result ports hold DECOMP's results satisfies the invariant, and it steps. -/
theorem witness_StepKeepsPortsInvariant :
    PortsInv { presenting .decomp negOne 0#32 0#32 0#32 with out := some ⟨1#32, 127#32, 0#32⟩ } ∧
      ∃ t, step { presenting .decomp negOne 0#32 0#32 0#32 with out := some ⟨1#32, 127#32, 0#32⟩ } = .next t := by
  refine ⟨?_, _, rfl⟩
  intro i r hi hr
  have hi' : Instr.decomp = i := Option.some.inj hi
  have hr' : (⟨1#32, 127#32, 0#32⟩ : Results) = r := Option.some.inj hr
  subst hi'; subst hr'
  exact ⟨⟨fun h => absurd h (by decide), fun h => absurd h (by decide)⟩, by decide, by decide, by decide⟩

/-- First clause: the DECOMP results of -6.25; second clause: fields in range, at their largest values. -/
theorem witness_FieldRoundTrip :
    (exec .decomp (presenting .decomp 0xC0C80000#32 0#32 0#32 0#32) =
      .next { presenting .decomp 0xC0C80000#32 0#32 0#32 0#32 with out := some ⟨1#32, 0x81#32, 0x480000#32⟩ }) ∧
    (exec .compose (presenting .compose 1#32 255#32 0x7FFFFF#32 0#32) =
      .next { presenting .compose 1#32 255#32 0x7FFFFF#32 0#32 with out := some ⟨0xFFFFFFFF#32, 0#32, 0#32⟩ }) :=
  ⟨rfl, rfl⟩

theorem witness_MantOneNormalises : signBit 0x00800000#32 = false ∧ isNormal 0x00800000#32 = true := by decide +kernel

/-- The ends of POW2I's integer range. -/
theorem witness_PowTwoBuildsThePower :
    isFinite 0xC2FC0000#32 = true ∧ val 0xC2FC0000#32 = (-126 : ℤ) ∧ isFinite 0x42FE0000#32 = true ∧
      val 0x42FE0000#32 = (127 : ℤ) := by decide +kernel

theorem witness_OpcodeMapIsTheTable : decode 0x62#8 = some .cbrta ∧ formatOf .cbrta = .f11 := by decide

/-- Both sides of R92's thresholds: 2^128 - 2^103 and the integer below it, 2^-150 and 3 * 2^-151. -/
theorem witness_Rounding :
    (0 < 2 ^ 128 - 2 ^ 103 ∧ rnd true (2 ^ 128 - 2 ^ 103) 1 = 0xFF800000#32) ∧
    rnd true (2 ^ 128 - 2 ^ 103 - 1) 1 = 0xFF7FFFFF#32 ∧
    (0 < 2 ^ 150 ∧ rnd true 1 (2 ^ 150) = 0x80000000#32) ∧ rnd true 3 (2 ^ 151) = 0x80000001#32 := by decide +kernel

/-- R108's operands, on the ports. -/
theorem witness_SingleRoundingIsRequired :
    (presenting .fma 0x3F800001#32 0x3F800001#32 0xBF800002#32 0#32).c = 0xBF800002#32 := by decide +kernel

/-- A word that is no half; 2.5 and 1.5, on which the tie rules differ and agree. -/
theorem witness_TieRuleMattersOnlyAtHalves :
    (isFinite 0x40200000#32 = true ∧ |val 0x40200000#32| = (2 : ℕ) + 1 / 2) ∧
    (isFinite 0x3FC00000#32 = true ∧ |val 0x3FC00000#32| = (1 : ℕ) + 1 / 2) ∧
    (isFinite 0x3E800000#32 = true ∧ |val 0x3E800000#32| = 1 / 4) ∧
    Safety.froundEven 0#32 0x40200000#32 = 0x40000000#32 := by decide +kernel

/-- A nonzero sum, difference and product; an exact cancellation; the sum of two negative zeros. -/
theorem witness_SumDifferenceProductAreIeee :
    (isFinite one = true ∧ isFinite two = true ∧ val one + val two ≠ 0 ∧ val one - val two ≠ 0 ∧ val one * val two ≠ 0) ∧
    (isFinite negOne = true ∧ val one + val negOne = 0 ∧ val one - val one = 0) ∧
    (isFinite negZero = true ∧ val negZero + val negZero = 0 ∧ val negZero * val one = 0) := by decide +kernel

theorem witness_HornerIsTheDescendingChain :
    [one, two].all isFinite = true ∧ isZero negZero = true ∧ isZero one = false := by decide +kernel

/-- The ends of LOG2's domain: the smallest and the largest positive normal word. -/
theorem witness_LogCompletesInItsDomain :
    (signBit 0x00800000#32 = false ∧ (expField 0x00800000#32).toNat = 1) ∧
    (signBit 0x7F7FFFFF#32 = false ∧ (expField 0x7F7FFFFF#32).toNat = 254) := by decide +kernel

/-- Both ends of R129's range, under the example configuration. -/
theorem witness_LogIsExactAtPowersOfTwo :
    (isFinite 0x00800000#32 = true ∧ val 0x00800000#32 = (2 : ℚ) ^ (-126 : ℤ)) ∧
    (isFinite 0x7F000000#32 = true ∧ val 0x7F000000#32 = (2 : ℚ) ^ (127 : ℤ)) ∧
    isFinite (horner 0x7FC00000#32 0x3F800000#32 cfgExample.log2P) = true ∧
    isZero (horner 0x7FC00000#32 0x3F800000#32 cfgExample.log2Q) = false ∧
    isNaN (horner 0x7FC00000#32 0x3F800000#32 cfgExample.log2Q) = false := by decide +kernel

/-- The ends of EXP2's domain: -126, and the largest word below 128. -/
theorem witness_ExpCompletesInItsDomain :
    (isNormal 0xC2FC0000#32 = true ∧ -126 ≤ val 0xC2FC0000#32 ∧ val 0xC2FC0000#32 < 128) ∧
    (isNormal 0x42FFFFFF#32 = true ∧ -126 ≤ val 0x42FFFFFF#32 ∧ val 0x42FFFFFF#32 < 128) ∧
    (isZero negZero = true ∧ -126 ≤ val negZero ∧ val negZero < 128) := by decide +kernel

theorem witness_ExpIsExactAtIntegers :
    cfgExample.exp2C.all isFinite = true ∧ cfgExample.exp2C.head? = some 0x3F800000#32 ∧
      isFinite 0xC2FC0000#32 = true ∧ val 0xC2FC0000#32 = (-126 : ℤ) := by decide +kernel

/-- An odd negative integer; an infinity and a NaN; the largest magnitude below 1. -/
theorem witness_ParityIsTheResidueModuloTwo :
    (isFinite 0xC0400000#32 = true ∧ val 0xC0400000#32 = (-3 : ℤ)) ∧ isInf (infWord true) = true ∧
      isNaN 0x7F800001#32 = true ∧ (isFinite 0x3F7FFFFF#32 = true ∧ |val 0x3F7FFFFF#32| < 1) := by decide +kernel

/-- A zero and the smallest and the largest normal words are in the domain of SIN and COS. -/
theorem witness_SineAndCosineCompleteInTheirDomain :
    isZero negZero = true ∧ isNormal 0x00800000#32 = true ∧ isNormal 0xFF7FFFFF#32 = true := by decide +kernel

theorem witness_SinePolynomialIsOdd :
    cfgExample.Valid ∧ fneg one = negOne ∧ isNaN (run .psin one 0#32 0#32 0#32).r0 = false :=
  ⟨test_cfg_example_valid, by decide +kernel, by decide +kernel⟩

theorem witness_ReductionsAtZero :
    cfgExample.Valid ∧ signBit cfgExample.rtau = false ∧ signBit cfgExample.tauHi = false ∧
      cfgExample.sinC.head? = some one ∧ isZero one = false ∧ signBit one = false ∧ isZero negZero = true ∧
      isZero cfgExample.quarterHi = false :=
  ⟨test_cfg_example_valid, by decide +kernel⟩

/-- `fma` on finite words, whatever the NaN word is. -/
theorem fma_known (nan : Word) {a b c w : Word} (h : isFinite a = true ∧ isFinite b = true ∧ isFinite c = true)
    (hw : fmaFinite a b c = w) : fma nan a b c = w := (fma_of_isFinite nan h.1 h.2.1 h.2.2).trans hw

/-- s = 3.0, x = 27.0 (46_cbrt.md R170); no NaN is met, so the NaN word is any word. -/
theorem witness_HalleyFixesAnExactRoot (nan : Word) :
    isFinite three = true ∧ isFinite 0x41D80000#32 = true ∧ halleyCube nan three = 0x41D80000#32 ∧
      isFinite (halleyDenominator nan 0x41D80000#32 0x41D80000#32) = true ∧
      isZero (halleyDenominator nan 0x41D80000#32 0x41D80000#32) = false ∧
      signBit (halleyDenominator nan 0x41D80000#32 0x41D80000#32) = false := by
  have h1 : fma nan three three negZero = 0x41100000#32 := fma_known nan (by decide +kernel) (by decide +kernel)
  have h2 : fma nan 0x41100000#32 three negZero = 0x41D80000#32 := fma_known nan (by decide +kernel) (by decide +kernel)
  have h3 : fma nan sixteen 0x41D80000#32 negZero = 0x43D80000#32 := fma_known nan (by decide +kernel) (by decide +kernel)
  have h4 : fma nan ten 0x41D80000#32 0x43D80000#32 = 0x442F8000#32 := fma_known nan (by decide +kernel) (by decide +kernel)
  have h5 : fma nan 0x41D80000#32 0x41D80000#32 negZero = 0x44364000#32 :=
    fma_known nan (by decide +kernel) (by decide +kernel)
  have h6 : fma nan 0x442F8000#32 0x41D80000#32 0x44364000#32 = 0x4699C600#32 :=
    fma_known nan (by decide +kernel) (by decide +kernel)
  have hc : halleyCube nan three = 0x41D80000#32 := by rw [halleyCube, fmul, fmul, h1, h2]
  have hq : halleyDenominator nan 0x41D80000#32 0x41D80000#32 = 0x4699C600#32 := by
    rw [halleyDenominator, fmul, fmul, h3, h4, h5, h6]
  rw [hq]
  exact ⟨by decide +kernel, by decide +kernel, hc, by decide +kernel⟩

/-- The ends of the domain of CBRT and CBRTA. -/
theorem witness_CubeRootsInTheirDomain :
    isPositiveNormal 0x00800000#32 = true ∧ isPositiveNormal 0x7F7FFFFF#32 = true := by decide +kernel

/-- (1 + 2^-23)^2 = 70368760954881 * 2^-46, a multiple of 2^-149; its rounded word is finite. -/
theorem witness_ProductErrorIsExact :
    isFinite 0x3F800001#32 = true ∧
      (∃ n : ℤ, val 0x3F800001#32 * val 0x3F800001#32 = n * (2 : ℚ) ^ (-149 : ℤ)) ∧
      isFinite (run .dfmul 0x3F800001#32 0x3F800001#32 0#32 0#32).r0 = true :=
  ⟨by decide +kernel, ⟨70368760954881 * 2 ^ 103, by decide +kernel⟩, by decide +kernel⟩

/-- h = 1 + 2^-23, r = 1 - 2^-24: |h| >= |r|, and the sum needs both words. -/
theorem witness_QuickTwoSumIsExact :
    isFinite 0x3F800001#32 = true ∧ isFinite 0x3F7FFFFF#32 = true ∧ isZero 0#32 = true ∧
      |val 0x3F7FFFFF#32| ≤ |val 0x3F800001#32| ∧
      isFinite (run .dfqts 0x3F800001#32 0#32 0x3F7FFFFF#32 0#32).r0 = true := by decide +kernel

theorem witness_LogEqualsItsHostSequence : cfgExample.Valid ∧ isPositiveNormal 0x41200000#32 = true :=
  ⟨test_cfg_example_valid, by decide +kernel⟩

theorem witness_ExpEqualsItsHostSequence : cfgExample.Valid ∧ inExp2Domain 0x40549A78#32 = true :=
  ⟨test_cfg_example_valid, by decide +kernel⟩

theorem witness_SineAndCosineEqualTheirHostSequences :
    cfgExample.Valid ∧ isZeroOrNormal 0x40800000#32 = true ∧ isNaN (run .redsin 0x40800000#32 0#32 0#32 0#32).r0 = false :=
  ⟨test_cfg_example_valid, by decide +kernel⟩

theorem witness_CubeRootsEqualTheirHostSequences : cfgExample.Valid ∧ isPositiveNormal 0x40000000#32 = true :=
  ⟨test_cfg_example_valid, by decide +kernel⟩

/-- Just outside each domain: the largest subnormal and zero for LOG2, CBRT and CBRTA; 128.0 and the word below -126 for
EXP2; a subnormal and an infinity for SIN and COS. -/
theorem witness_OutOfDomain :
    ((expField 0x007FFFFF#32).toNat = 0 ∧ (expField 0x7F800000#32).toNat = 255 ∧ signBit negOne = true) ∧
    (¬ val 0x43000000#32 < 128) ∧ (¬ -126 ≤ val 0xC2FC0001#32) ∧
    (isZero 1#32 = false ∧ isNormal 1#32 = false) ∧
    (isZero (infWord false) = false ∧ isNormal (infWord false) = false) := by decide +kernel

/-- A variable and a float literal as sources. -/
theorem witness_PseudoInstructionsComputeTheirFunctions :
    readSrc [(4, two)] (.var 4) = some two ∧ readSrc [(4, two)] (.float true 15 1) = some negThreeHalves := by
  decide +kernel

theorem witness_WellFormedHostProgramsComplete :
    programOk [0, 1, 2] programP6 = true := by decide +kernel

/-- Two lines that touch disjoint variables, on a host that has written the variables they read. -/
theorem witness_IndependentHostLinesCommute :
    (∀ v ∈ lineDsts (.fneg 2 (.var 0)), v ∉ lineReads (.op .fabs [3] [.var 1]) ∧ v ∉ lineDsts (.op .fabs [3] [.var 1])) ∧
    (∀ v ∈ lineDsts (.op .fabs [3] [.var 1]), v ∉ lineReads (.fneg 2 (.var 0))) ∧
    (runProgram cfgExample [(0, one), (1, negOne)] [.fneg 2 (.var 0), .op .fabs [3] [.var 1]]).isSome = true := by
  decide +kernel

end Sys2Proof.Tests
end

section
/-! PROOFS. Every meaning is the transaction function (00_scope.md R3, R24; 70_reset_and_hazards.md R224), the domains
of the public functions on the fields and the value of the operand (00_scope.md R10), and what a public function
returns inside and outside its domain (R12). -/

namespace Sys2Proof

/-- R8 leaves the cube root one iteration or two. -/
theorem Cfg.Valid.cbrtIters_eq {k : Cfg} (h : k.Valid) : k.cbrtIters = 1 ∨ k.cbrtIters = 2 := by
  obtain ⟨hconst, -⟩ := h
  simp only [Cfg.constantsOk, Bool.and_eq_true, Bool.or_eq_true, beq_iff_eq] at hconst
  obtain ⟨-, hiters⟩ := hconst
  exact hiters

end Sys2Proof

namespace Sys2Proof.Machine

/-! ## Meanings and transactions -/

theorem State.answer_eq (s : State) (r : Results) : s.answer r = .next { s with out := some r } := rfl

/-- R224: every meaning is the pure transaction of its operation under the block's own configuration. -/
theorem exec_eq_answer (i : Instr) (s : State) : exec i s = s.answer (transaction Config.cfg i s.ports) := by
  cases i <;> rfl

/-- How a meaning is computed: by the result words of its transaction. -/
theorem exec_of_transaction {i : Instr} {s : State} {r : Results} (h : transaction Config.cfg i s.ports = r) :
    exec i s = .next { s with out := some r } := by
  rw [exec_eq_answer, h, State.answer_eq]

/-! ## Domains (R10) -/

/-- The biased exponent of a normal word runs from 1 to 254. -/
theorem isNormal_iff_expField_toNat (w : Word) :
    isNormal w = true ↔ 1 ≤ (expField w).toNat ∧ (expField w).toNat ≤ 254 := by
  rw [isNormal_iff, ← BitVec.toNat_ne_iff_ne, ← BitVec.toNat_ne_iff_ne]
  have := (expField w).isLt
  simp only [BitVec.toNat_ofNat]
  omega

theorem isPositiveNormal_iff (w : Word) :
    isPositiveNormal w = true ↔ signBit w = false ∧ 1 ≤ (expField w).toNat ∧ (expField w).toNat ≤ 254 := by
  rw [isPositiveNormal, Bool.and_eq_true, Bool.not_eq_true', isNormal_iff_expField_toNat]

theorem isZeroOrNormal_iff (w : Word) : isZeroOrNormal w = true ↔ isZero w = true ∨ isNormal w = true := by
  rw [isZeroOrNormal, Bool.or_eq_true]

/-- Comparing a value with an integer is comparing units of 2^-149. -/
theorem intCast_le_val_iff (n : ℤ) (w : Word) : (n : ℚ) ≤ val w ↔ n * 2 ^ 149 ≤ valUnits w := by
  rw [val_eq_valUnits, le_div_iff₀ (by positivity)]
  norm_cast

theorem val_lt_intCast_iff (n : ℤ) (w : Word) : val w < n ↔ valUnits w < n * 2 ^ 149 := by
  rw [← not_le, intCast_le_val_iff, not_le]

theorem inExp2Domain_iff (w : Word) :
    inExp2Domain w = true ↔ (isZero w = true ∨ isNormal w = true) ∧ -126 ≤ val w ∧ val w < 128 := by
  have hlo : -126 ≤ val w ↔ -(126 * 2 ^ 149) ≤ valUnits w := by
    rw [← neg_mul, ← intCast_le_val_iff, Int.cast_neg, Int.cast_ofNat]
  have hhi : val w < 128 ↔ valUnits w < 128 * 2 ^ 149 := by
    rw [← val_lt_intCast_iff, Int.cast_ofNat]
  rw [hlo, hhi, inExp2Domain, Bool.and_eq_true, Bool.and_eq_true, isZeroOrNormal_iff, decide_eq_true_iff,
    decide_eq_true_iff, and_assoc]

/-! ## Public functions -/

/-- The domain test of a public function (R10); the other operations have none. -/
def publicDomain (i : Instr) : Option (Word → Bool) :=
  match i with
  | .log2 | .cbrt | .cbrta => some isPositiveNormal
  | .exp2 => some inExp2Domain
  | .sin | .cos => some isZeroOrNormal
  | _ => none

/-- The word a public function computes inside its domain, from the transaction's NaN word and the operand. -/
def publicValue (k : Cfg) (i : Instr) (nan x : Word) : Word :=
  match i with
  | .log2 => log2 k nan x
  | .exp2 => exp2 k nan x
  | .sin => sin k nan x
  | .cos => cos k nan x
  | .cbrt => cbrt k nan x
  | .cbrta => cbrta k nan x
  | _ => 0#32

/-- Everything a public function can return: its value inside the domain, the OOD word outside. -/
theorem transaction_public {k : Cfg} {i : Instr} {p : Ports} {dom : Word → Bool} (hi : publicDomain i = some dom) :
    transaction k i p =
      drive1 (if dom p.a then publicValue k i (nanOf k i [p.a]) p.a else oodOf k i p.a) := by
  cases i <;> cases hi <;> rfl

/-- In its domain a public function completes with its value. -/
theorem exec_public_inside {i : Instr} {s : State} {dom : Word → Bool} (hi : publicDomain i = some dom)
    (h : dom s.a = true) :
    exec i s = .next { s with out := some ⟨publicValue Config.cfg i (nanOf Config.cfg i [s.a]) s.a, 0#32, 0#32⟩ } :=
  exec_of_transaction (by rw [transaction_public hi, State.ports_a, if_pos h]; rfl)

/-- Outside its domain a public function completes with the OOD word of its command word and operand (R12). -/
theorem exec_public_outside {i : Instr} {s : State} {dom : Word → Bool} (hi : publicDomain i = some dom)
    (h : ¬ dom s.a = true) :
    exec i s = .next { s with out := some ⟨Config.cfg.ood (encode i) s.a, 0#32, 0#32⟩ } :=
  exec_of_transaction (by rw [transaction_public hi, State.ports_a, if_neg h]; rfl)

/-! ## The cube root's steps (R75, R171) -/

theorem halleyIter_one (nan x s : Word) : halleyIter nan x 1 s = halley nan s x := rfl

theorem halleyIter_two (nan x s : Word) : halleyIter nan x 2 s = halley nan (halley nan s x) x := rfl

theorem cbseed_eq (k : Cfg) (x : Word) : cbseed k x = x / 3#32 + k.cbrtMagic := rfl

end Sys2Proof.Machine
end

section
/-! PROOFS. Exactness of the one rounding on representable numbers (41_fusedstep.md R91, R92), of the fused step when
its exact value is representable (R93), and of the floor (R96). -/

namespace Sys2Proof.Machine

/-! ## Integers in units of 2^-149 -/

theorem natAbs_mul_unit (n : ℤ) : (n * 2 ^ 149).natAbs = n.natAbs * 2 ^ 149 := by
  rw [Int.natAbs_mul]
  rfl

theorem decide_mul_unit_neg (n : ℤ) : decide (n * 2 ^ 149 < 0) = decide (n < 0) := by
  rw [decide_eq_decide]
  omega

/-! ## Representable magnitudes -/

/-- `u * 2^-149` is the magnitude of some finite word: a significand below 2^24 times a power of two. -/
def Representable (u : ℕ) : Prop := ∃ f k, f < 2 ^ 24 ∧ k ≤ 253 ∧ u = f * 2 ^ k

/-- A whole number below 2^24 is representable. -/
theorem representable_integer {n : ℕ} (h : n < 2 ^ 24) : Representable (n * 2 ^ 149) :=
  ⟨n, 149, h, by omega, rfl⟩

/-- The significand can be taken with its leading bit set, or the exponent least. -/
theorem Representable.exists_normalized {u : ℕ} (h : Representable u) :
    ∃ f k, f < 2 ^ 24 ∧ k ≤ 253 ∧ (f < 2 ^ 23 → k = 0) ∧ u = f * 2 ^ k := by
  obtain ⟨f, k, hf, hk, rfl⟩ := h
  induction k generalizing f with
  | zero => exact ⟨f, 0, hf, hk, fun _ => rfl, rfl⟩
  | succ k ih =>
    by_cases hs : f < 2 ^ 23
    · obtain ⟨f', k', h1, h2, h3, h4⟩ := ih (f * 2) (by omega) (by omega)
      exact ⟨f', k', h1, h2, h3, by rw [← h4]; ring⟩
    · exact ⟨f, k + 1, hf, hk, fun h => absurd h hs, rfl⟩

/-- The magnitude of a finite word is representable. -/
theorem representable_magUnits {w : Word} (h : isFinite w = true) : Representable (magUnits w) := by
  have hm := (mantField w).isLt
  have he := (expField w).isLt
  rw [isFinite_iff, ← BitVec.toNat_ne_iff_ne] at h
  simp only [BitVec.toNat_ofNat] at h
  unfold magUnits
  split
  · exact ⟨(mantField w).toNat, 0, by omega, by omega, by rw [pow_zero, mul_one]⟩
  · exact ⟨_, _, by omega, by omega, rfl⟩

/-- `enc` gives a finite word of just the magnitude it is given. -/
theorem enc_representable (neg : Bool) {u : ℕ} (h : Representable u) :
    isFinite (enc neg u) = true ∧ magUnits (enc neg u) = u := by
  obtain ⟨f, k, hf, hk, hn, rfl⟩ := h.exists_normalized
  exact enc_spec neg hf hk hn

theorem natAbs_valUnits (w : Word) : (valUnits w).natAbs = magUnits w := by
  unfold valUnits
  split <;> simp

theorem valUnits_nonpos_of_signBit {w : Word} (h : signBit w = true) : valUnits w ≤ 0 := by
  rw [valUnits, if_pos h]
  omega

theorem valUnits_nonneg_of_signBit {w : Word} (h : signBit w = false) : 0 ≤ valUnits w := by
  rw [valUnits, h, if_neg Bool.false_ne_true]
  omega

/-- The encoding of an integer number of units under its own sign has that value. -/
theorem valUnits_enc {neg : Bool} {x : ℤ} (hr : Representable x.natAbs) (hneg : neg = true → x ≤ 0)
    (hpos : neg = false → 0 ≤ x) : valUnits (enc neg x.natAbs) = x := by
  rw [valUnits, signBit_enc, (enc_representable neg hr).2]
  cases neg
  · have := hpos rfl
    rw [if_neg Bool.false_ne_true]
    omega
  · have := hneg rfl
    rw [if_pos rfl]
    omega

/-- `enc` is also the left inverse of the magnitude: it rebuilds a word from its sign and magnitude. -/
theorem enc_magUnits (w : Word) : enc (signBit w) (magUnits w) = w := by
  have hm := (mantField w).isLt
  unfold magUnits
  split
  · next h0 =>
    rw [enc, if_pos hm, BitVec.ofNat_toNat, BitVec.setWidth_eq, ← h0, joinFields_fields]
  · next h0 =>
    have he : (expField w).toNat ≠ 0 := fun hc => h0 (BitVec.eq_of_toNat_eq hc)
    rw [enc_normal _ (by omega) (by omega), Nat.sub_add_cancel (by omega), Nat.add_sub_cancel_left,
      BitVec.ofNat_toNat, BitVec.ofNat_toNat, BitVec.setWidth_eq, BitVec.setWidth_eq, joinFields_fields]

/-! ## Rounding a representable number (R92) -/

theorem nearestEven_mul_right (f : ℕ) {d : ℕ} (hd : 0 < d) : nearestEven (f * d) d = f := by
  rw [nearestEven, Nat.mul_mod_left, if_pos (by omega), Nat.mul_div_cancel _ hd]

/-- R92's spacing at a normalised representable magnitude is its own power of two. -/
theorem spacing_normalized {f k d : ℕ} (hd : 0 < d) (hf : f < 2 ^ 24) (hn : f < 2 ^ 23 → k = 0) :
    spacing (f * 2 ^ k * d) d = k := by
  rw [spacing, Nat.mul_div_cancel _ hd]
  by_cases hs : f < 2 ^ 23
  · obtain rfl := hn hs
    by_cases h0 : f = 0
    · simp [h0]
    · have := (Nat.log2_lt h0).2 hs
      rw [pow_zero, mul_one]
      omega
  · have hlog : Nat.log2 (f * 2 ^ k) = 23 + k := by
      have hne : f * 2 ^ k ≠ 0 := mul_ne_zero (by omega) (by positivity)
      rw [Nat.log2_eq_iff hne]
      constructor
      · rw [pow_add]; exact Nat.mul_le_mul_right _ (by omega)
      · rw [show 23 + k + 1 = 24 + k by omega, pow_add]
        exact Nat.mul_lt_mul_of_pos_right hf (Nat.two_pow_pos k)
    omega

/-- Rounding leaves a representable number alone. -/
theorem rnd_of_representable (neg : Bool) {num den u : ℕ} (hd : 0 < den) (hr : Representable u)
    (h : num * 2 ^ 149 = u * den) : rnd neg num den = enc neg u := by
  obtain ⟨f, k, hf, hk, hn, rfl⟩ := hr.exists_normalized
  have hround : nearestEven (f * 2 ^ k * den) (den * 2 ^ k) = f := by
    rw [mul_assoc, mul_comm (2 ^ k) den]
    exact nearestEven_mul_right f (by positivity)
  have hmax : ¬ 2 ^ 149 * 2 ^ 128 ≤ f * 2 ^ k := by
    have h1 : f * 2 ^ k < 2 ^ 24 * 2 ^ k := Nat.mul_lt_mul_of_pos_right hf (Nat.two_pow_pos k)
    have h2 : 2 ^ 24 * 2 ^ k ≤ 2 ^ 24 * 2 ^ 253 := Nat.mul_le_mul_left _ (Nat.pow_le_pow_right (by omega) hk)
    rw [← pow_add, show 149 + 128 = 24 + 253 by omega, pow_add]
    omega
  simp only [rnd]
  rw [h, spacing_normalized hd hf hn, hround, if_neg hmax]

/-! ## The fused step with a representable value (R93 case 5) -/

/-- A nonzero representable value is returned exactly. -/
theorem fma_of_representable (nan : Word) {a b c : Word} {x : ℤ} (ha : isFinite a = true) (hb : isFinite b = true)
    (hc : isFinite c = true) (hx : valUnits a * valUnits b + valUnits c * 2 ^ 149 = x * 2 ^ 149) (h0 : x ≠ 0)
    (hr : Representable x.natAbs) : fma nan a b c = enc (decide (x < 0)) x.natAbs := by
  have hne : x * 2 ^ 149 ≠ 0 := mul_ne_zero h0 (by positivity)
  rw [fma_of_isFinite nan ha hb hc, fmaFinite]
  simp only [hx, if_pos hne, decide_mul_unit_neg, ne_eq]
  refine rnd_of_representable _ (by positivity) hr ?_
  rw [natAbs_mul_unit]
  ring

/-- A zero value of a nonzero product and addend is `+0`. -/
theorem fma_of_cancel (nan : Word) {a b c : Word} (ha : isFinite a = true) (hb : isFinite b = true)
    (hc : isFinite c = true) (hx : valUnits a * valUnits b + valUnits c * 2 ^ 149 = 0)
    (hp : valUnits a * valUnits b ≠ 0) : fma nan a b c = 0#32 := by
  rw [fma_of_isFinite nan ha hb hc, fmaFinite]
  simp only [hx, hp, ne_eq, not_true_eq_false, if_false, false_and]
  rfl

/-! ## Words of integers -/

theorem valUnits_eq_val (w : Word) : (valUnits w : ℚ) = val w * 2 ^ 149 := by
  rw [val_eq_valUnits, div_mul_cancel₀ _ (by positivity)]

/-- The word of an integer of magnitude below 2^24; that of 0 is `+0`. -/
def intWord (n : ℤ) : Word := enc (decide (n < 0)) (n.natAbs * 2 ^ 149)

theorem intWord_zero : intWord 0 = 0#32 := rfl

theorem isFinite_intWord {n : ℤ} (h : n.natAbs < 2 ^ 24) : isFinite (intWord n) = true :=
  (enc_representable _ (representable_integer h)).1

theorem valUnits_intWord {n : ℤ} (h : n.natAbs < 2 ^ 24) : valUnits (intWord n) = n * 2 ^ 149 := by
  rw [intWord, ← natAbs_mul_unit]
  refine valUnits_enc (natAbs_mul_unit n ▸ representable_integer h) (fun hn => ?_) (fun hn => ?_)
  · have := of_decide_eq_true hn
    omega
  · have := of_decide_eq_false hn
    omega

theorem val_intWord {n : ℤ} (h : n.natAbs < 2 ^ 24) : val (intWord n) = n := by
  rw [val_eq_valUnits, valUnits_intWord h, Int.cast_mul, Int.cast_pow, Int.cast_ofNat,
    mul_div_cancel_right₀ _ (by positivity)]

/-- An integer value of magnitude below 2^24 is returned exactly; a zero value is `+0` when the product is not zero. -/
theorem fma_of_integer (nan : Word) {a b c : Word} {n : ℤ} (ha : isFinite a = true) (hb : isFinite b = true)
    (hc : isFinite c = true) (hx : val a * val b + val c = n) (hn : n.natAbs < 2 ^ 24)
    (hp : n = 0 → val a * val b ≠ 0) : fma nan a b c = intWord n := by
  have hunits : valUnits a * valUnits b + valUnits c * 2 ^ 149 = n * 2 ^ 149 * 2 ^ 149 := by
    have hcast : ((valUnits a * valUnits b + valUnits c * 2 ^ 149 : ℤ) : ℚ) = (n * 2 ^ 149 * 2 ^ 149 : ℤ) := by
      rw [Int.cast_add, Int.cast_mul, Int.cast_mul, Int.cast_mul, Int.cast_mul, Int.cast_pow, Int.cast_ofNat,
        valUnits_eq_val, valUnits_eq_val, valUnits_eq_val, ← hx]
      generalize (2 : ℚ) ^ 149 = unit
      ring
    exact_mod_cast hcast
  by_cases h0 : n = 0
  · subst h0
    refine fma_of_cancel nan ha hb hc (by rw [hunits, zero_mul, zero_mul]) fun hprod => hp rfl ?_
    rw [val_eq_valUnits, val_eq_valUnits, div_mul_div_comm, ← Int.cast_mul, hprod, Int.cast_zero, zero_div]
  · rw [fma_of_representable nan ha hb hc hunits (mul_ne_zero h0 (by positivity))
      (natAbs_mul_unit n ▸ representable_integer hn), natAbs_mul_unit, decide_mul_unit_neg, intWord]

/-! ## The floor (R96) -/

theorem floor_val (w : Word) : ⌊val w⌋ = valUnits w / 2 ^ 149 := by
  rw [val_eq_valUnits]
  exact_mod_cast Rat.floor_intCast_div_natCast (valUnits w) (2 ^ 149)

/-- The floor of a finite word is representable: a word of magnitude 2^23 or more is whole, and a smaller one has a
floor of magnitude at most 2^23. -/
theorem representable_floor {w : Word} (h : isFinite w = true) :
    Representable ((valUnits w / 2 ^ 149).natAbs * 2 ^ 149) := by
  have habs := natAbs_valUnits w
  obtain ⟨f, k, hf, hk, hu⟩ := representable_magUnits h
  rcases Nat.lt_or_ge k 149 with hk' | hk'
  · have hlt : magUnits w < 2 ^ 24 * 2 ^ 148 := by
      calc magUnits w < 2 ^ 24 * 2 ^ k := hu ▸ Nat.mul_lt_mul_of_pos_right hf (Nat.two_pow_pos k)
        _ ≤ 2 ^ 24 * 2 ^ 148 := Nat.mul_le_mul_left _ (Nat.pow_le_pow_right (by omega) (by omega))
    exact representable_integer (by omega)
  · obtain ⟨j, rfl⟩ := Nat.exists_eq_add_of_le hk'
    refine ⟨f, 149 + j, hf, hk, ?_⟩
    have hwhole : magUnits w = f * 2 ^ j * 2 ^ 149 := by rw [hu, pow_add]; ring
    generalize f * 2 ^ j = m at *
    omega

/-- R96 on finite words, zeros included: the largest integer not above the value, with the operand's sign bit. -/
theorem ffloor_of_isFinite (nan : Word) {x : Word} (h : isFinite x = true) :
    isFinite (ffloor nan x) = true ∧ val (ffloor nan x) = (⌊val x⌋ : ℤ) ∧ signBit (ffloor nan x) = signBit x := by
  by_cases hz : isZero x = true
  · have hval : valUnits x = 0 := by
      rw [← Int.natAbs_eq_zero, natAbs_valUnits, ← isZero_iff_magUnits, hz]
    have hx : ffloor nan x = x := by simp [ffloor, isNaN_of_isFinite h, hz]
    rw [hx, floor_val, val_eq_valUnits, hval]
    exact ⟨h, by norm_num, rfl⟩
  · have hx : ffloor nan x = enc (signBit x) ((valUnits x / 2 ^ 149) * 2 ^ 149).natAbs := by
      rw [natAbs_mul_unit]
      simp [ffloor, isNaN_of_isFinite h, isInf_of_isFinite h, hz]
    have hr : Representable ((valUnits x / 2 ^ 149) * 2 ^ 149).natAbs := by
      rw [natAbs_mul_unit]
      exact representable_floor h
    have hv : valUnits (ffloor nan x) = (valUnits x / 2 ^ 149) * 2 ^ 149 := by
      rw [hx]
      refine valUnits_enc hr (fun hs => ?_) (fun hs => ?_)
      · have := valUnits_nonpos_of_signBit hs
        omega
      · have := valUnits_nonneg_of_signBit hs
        omega
    refine ⟨hx ▸ (enc_representable _ hr).1, ?_, hx ▸ signBit_enc _ _⟩
    rw [val_eq_valUnits, hv, floor_val, Int.cast_mul, Int.cast_pow, Int.cast_ofNat,
      mul_div_cancel_right₀ _ (by positivity)]

end Sys2Proof.Machine
end

section
/-! PROOFS. The two bit tricks with the synthetic float `256 + e` (40_bitdecomposition.md R73, R74): reading an exponent
field as a number, and building a power of two from an integer. -/

namespace Sys2Proof.Machine

/-! ## The synthetic float -/

/-- The word of `256 + e`: the exponent field of 256.0 and `e` in the top bits of the mantissa (R73). -/
def syntheticFloat (e : BitVec 8) : Word := joinFields 0#1 135#8 (e ++ 0#15)

@[simp] theorem signBit_syntheticFloat (e : BitVec 8) : signBit (syntheticFloat e) = false := by
  rw [syntheticFloat, signBit_joinFields]
  rfl

@[simp] theorem isFinite_syntheticFloat (e : BitVec 8) : isFinite (syntheticFloat e) = true := by
  rw [isFinite_iff, syntheticFloat, expField_joinFields]
  decide

theorem magUnits_syntheticFloat (e : BitVec 8) : magUnits (syntheticFloat e) = (256 + e.toNat) * 2 ^ 149 := by
  have hm : (e ++ 0#15).toNat = e.toNat * 2 ^ 15 := by
    rw [BitVec.toNat_append, BitVec.toNat_ofNat, Nat.zero_mod, Nat.or_zero, Nat.shiftLeft_eq]
  rw [magUnits, syntheticFloat, expField_joinFields, mantField_joinFields, if_neg (by decide), hm]
  simp only [BitVec.toNat_ofNat]
  ring

theorem getLsbD_joinFields (s : BitVec 1) (e : BitVec 8) (m : BitVec 23) (i : ℕ) :
    (joinFields s e m).getLsbD i =
      if i < 23 then m.getLsbD i else if i < 31 then e.getLsbD (i - 23) else s.getLsbD (i - 31) := by
  rw [joinFields, BitVec.getLsbD_append, BitVec.getLsbD_append]
  by_cases h1 : i < 23
  · simp [h1]
  · by_cases h2 : i < 31
    · simp [h1, h2, show i - 23 < 8 by omega]
    · simp [h1, h2, show ¬ i - 23 < 8 by omega, show i - 23 - 8 = i - 31 by omega]

theorem getLsbD_syntheticFloat (e : BitVec 8) (i : ℕ) : (syntheticFloat e).getLsbD i =
    if i < 15 then false else if i < 23 then e.getLsbD (i - 15) else (0x43800000#32).getLsbD i := by
  have h256 : 0x43800000#32 = joinFields 0#1 135#8 0#23 := rfl
  rw [h256, syntheticFloat, getLsbD_joinFields, getLsbD_joinFields, BitVec.getLsbD_append]
  by_cases h15 : i < 15
  · simp [h15, show i < 23 by omega]
  · by_cases h23 : i < 23 <;> simp [h15, h23]

/-- R73: the or of the shifted exponent field into the word of 256.0 is the synthetic float of the exponent field. -/
theorem expWord_eq (a : Word) : expWord a = syntheticFloat (expField a) := by
  apply BitVec.eq_of_getLsbD_eq
  intro i hi
  have hmask : (0x007F8000#32).getLsbD i = decide (15 ≤ i ∧ i < 23) := by interval_cases i <;> rfl
  have h256 : i < 23 → (0x43800000#32).getLsbD i = false := by intro h; interval_cases i <;> rfl
  rw [getLsbD_syntheticFloat, expWord, shr8, BitVec.getLsbD_or, BitVec.getLsbD_and, BitVec.getLsbD_ushiftRight, hmask]
  by_cases h15 : i < 15
  · simp [h15, h256 (by omega), show ¬ 15 ≤ i by omega]
  · by_cases h23 : i < 23
    · simp [h15, h23, h256 h23, expField, show 15 ≤ i by omega, show i - 15 < 8 by omega,
        show 23 + (i - 15) = 8 + i by omega]
    · simp [h15, h23]

/-- The mask of the exponent field keeps just that field. -/
theorem and_expMask (w : Word) : w &&& 0x7F800000#32 = joinFields 0#1 (expField w) 0#23 := by
  apply BitVec.eq_of_getLsbD_eq
  intro i hi
  have hmask : (0x7F800000#32).getLsbD i = decide (23 ≤ i ∧ i < 31) := by interval_cases i <;> rfl
  rw [getLsbD_joinFields, BitVec.getLsbD_and, hmask]
  by_cases h23 : i < 23
  · simp [h23, show ¬ 23 ≤ i by omega]
  · by_cases h31 : i < 31
    · simp [h23, h31, expField, show 23 ≤ i by omega, show i - 23 < 8 by omega, show 23 + (i - 23) = i by omega]
    · simp [h23, h31]

/-- R74: shifting the synthetic float left by 8 moves `e` into the exponent field. -/
theorem expField_shl8_syntheticFloat (e : BitVec 8) : expField (shl8 (syntheticFloat e)) = e := by
  apply BitVec.eq_of_getLsbD_eq
  intro i hi
  rw [expField, shl8, BitVec.getLsbD_extractLsb', BitVec.getLsbD_shiftLeft, getLsbD_syntheticFloat]
  simp [hi, show 23 + i - 8 = 15 + i by omega, show 23 + i < 32 by omega, show ¬ 23 + i < 8 by omega,
    show 15 + i < 23 by omega]

/-- The synthetic float is the word of `256 + e`. -/
theorem intWord_eq_syntheticFloat (e : BitVec 8) : intWord (256 + e.toNat) = syntheticFloat e := by
  have hsign : decide ((256 + e.toNat : ℤ) < 0) = signBit (syntheticFloat e) := by
    rw [signBit_syntheticFloat, decide_eq_false_iff_not]
    omega
  rw [intWord, hsign, show (256 + e.toNat : ℤ).natAbs = 256 + e.toNat by omega, ← magUnits_syntheticFloat, enc_magUnits]

theorem val_syntheticFloat (e : BitVec 8) : val (syntheticFloat e) = 256 + e.toNat := by
  have := e.isLt
  rw [← intWord_eq_syntheticFloat, val_intWord (by omega)]
  push_cast
  rfl

theorem val_one : val one = 1 := by decide +kernel
theorem val_negOne : val negOne = -1 := by decide +kernel
theorem val_c383 : val c383 = 383 := by decide +kernel

/-! ## The exponent reader and the power-of-two builder (R73, R74) -/

/-- R73 on every word: the unbiased exponent `E - 127`, exactly. -/
theorem expf_eq (nan a : Word) : expf nan a = intWord ((expField a).toNat - 127) := by
  have he := (expField a).isLt
  rw [expf, fsub, expWord_eq]
  refine fma_of_integer nan rfl rfl (isFinite_syntheticFloat _) ?_ (by omega) fun _ => ?_
  · rw [val_c383, val_negOne, val_syntheticFloat]
    push_cast
    ring
  · rw [val_c383, val_negOne]
    norm_num

/-- The word of 2^n for `n` in [-126, 127]: the biased exponent over an empty mantissa. -/
def powerWord (n : ℤ) : Word := joinFields 0#1 (BitVec.ofNat 8 (n + 127).toNat) 0#23

theorem toNat_biasedExponent {n : ℤ} (hlo : -126 ≤ n) (hhi : n ≤ 127) :
    ((BitVec.ofNat 8 (n + 127).toNat).toNat : ℤ) = n + 127 := by
  rw [BitVec.toNat_ofNat]
  omega

/-- R74 on an integer in [-126, 127]. -/
theorem pow2i_of_integer (nan : Word) {i : Word} {n : ℤ} (hi : isFinite i = true) (hval : val i = n) (hlo : -126 ≤ n)
    (hhi : n ≤ 127) : pow2i nan i = powerWord n := by
  have he : (256 + (BitVec.ofNat 8 (n + 127).toNat).toNat : ℤ) = n + 383 := by
    rw [toNat_biasedExponent hlo hhi]
    ring
  have hsum : fadd nan i c383 = syntheticFloat (BitVec.ofNat 8 (n + 127).toNat) := by
    rw [← intWord_eq_syntheticFloat, he, fadd]
    refine fma_of_integer nan hi rfl rfl ?_ (by omega) (by omega)
    rw [hval, val_one, val_c383]
    push_cast
    ring
  rw [pow2i, hsum, and_expMask, expField_shl8_syntheticFloat, powerWord]

theorem isNormal_powerWord {n : ℤ} (hlo : -126 ≤ n) (hhi : n ≤ 127) : isNormal (powerWord n) = true := by
  have he := toNat_biasedExponent hlo hhi
  rw [isNormal_iff_expField_toNat, powerWord, expField_joinFields]
  omega

theorem val_powerWord {n : ℤ} (hlo : -126 ≤ n) (hhi : n ≤ 127) : val (powerWord n) = (2 : ℚ) ^ n := by
  obtain ⟨hne, -⟩ := (isNormal_iff _).1 (isNormal_powerWord hlo hhi)
  rw [val, if_neg hne, powerWord, signBit_joinFields, expField_joinFields, mantField_joinFields,
    toNat_biasedExponent hlo hhi, show n + 127 - 150 = n - 23 by omega, zpow_sub₀ (by norm_num)]
  norm_num [mul_div_cancel₀]

end Sys2Proof.Machine
end

section
/-! PROOFS. The statements on the domains of the public functions and on the meanings as transactions (00_scope.md
R3, R10, R12). -/

namespace Sys2Proof.Proofs

open Sys2Proof.Machine

/-- Settles O32: the exponent reader returns the word of the unbiased exponent, exactly, and the other steps are those
of `log2`. -/
theorem logCompletesInItsDomain : Obligations.LogCompletesInItsDomain := by
  refine ⟨rfl, fun s hs hlo hhi => ⟨intWord ((expField s.a).toNat - 127), ?_, ?_, fun hzero => ?_, ?_⟩⟩
  · exact isFinite_intWord (by omega)
  · rw [val_intWord (by omega)]
    push_cast
    rfl
  · rw [val_intWord (by omega), Int.cast_eq_zero] at hzero
    rw [hzero, intWord_zero]
  · rw [exec_public_inside rfl ((isPositiveNormal_iff _).2 ⟨hs, hlo, hhi⟩), publicValue, log2, expf_eq]
    rfl

/-- Settles O34: the floor is exact, so the power-of-two builder meets an integer in [-126, 127] and returns the word
of its power. -/
theorem expCompletesInItsDomain : Obligations.ExpCompletesInItsDomain := by
  refine ⟨rfl, rfl, fun s => exec_of_transaction rfl, fun s hclass hlo hhi => ?_⟩
  have hdom : inExp2Domain s.a = true := (inExp2Domain_iff _).2 ⟨hclass, hlo, hhi⟩
  have hfin : isFinite s.a = true := by
    rcases hclass with h | h <;> simp [isFinite, h]
  have hge : -126 ≤ ⌊val s.a⌋ := Int.le_floor.2 (by exact_mod_cast hlo)
  have hle : ⌊val s.a⌋ ≤ 127 := Int.le_of_lt_add_one (Int.floor_lt.2 hhi)
  obtain ⟨hfinI, hvalI, hsignI⟩ := ffloor_of_isFinite (nanOf Config.cfg .exp2 [s.a]) hfin
  refine ⟨_, _, _, hfinI, hvalI, hsignI, val_powerWord hge hle, isNormal_powerWord hge hle, rfl, ?_⟩
  rw [exec_public_inside rfl hdom, publicValue, exp2, pow2i_of_integer _ hfinI hvalI hge hle, pexp2]

/-- Settles O44: a valid configuration iterates once or twice. -/
theorem cbrtRefinesTheSeedOnceOrTwice : Obligations.CbrtRefinesTheSeedOnceOrTwice := by
  refine ⟨rfl, fun s hs hlo hhi => ⟨_, exec_public_inside rfl ((isPositiveNormal_iff _).2 ⟨hs, hlo, hhi⟩), ?_⟩⟩
  rcases Config.cfg_valid.cbrtIters_eq with h | h
  · exact .inl ⟨h, by rw [publicValue, cbrt, h, halleyIter_one, cbseed_eq]⟩
  · exact .inr ⟨h, by rw [publicValue, cbrt, h, halleyIter_two, cbseed_eq]⟩

/-- Settles O53: on the complement of each domain the test fails, and the OOD word is what is left. -/
theorem outOfDomainResultIsTheOodWord : Obligations.OutOfDomainResultIsTheOodWord := by
  intro s
  refine ⟨fun hpos => ?_, fun hexp => ?_, fun hsin => ?_⟩
  · rw [← isPositiveNormal_iff] at hpos
    exact ⟨exec_public_outside rfl hpos, exec_public_outside rfl hpos, exec_public_outside rfl hpos⟩
  · rw [← inExp2Domain_iff] at hexp
    exact exec_public_outside rfl hexp
  · rw [← isZeroOrNormal_iff] at hsin
    exact ⟨exec_public_outside rfl hsin, exec_public_outside rfl hsin⟩

/-- Settles O2: the case split over the 29 operations is `exec_eq_answer`. -/
theorem meaningsAreTheTransactionFunction : Obligations.MeaningsAreTheTransactionFunction :=
  fun _ _ => exec_of_transaction rfl

/-- Settles O39: PSIN has no domain test; the tests of SIN and COS are met, and `publicValue` unfolds to the steps. -/
theorem sineAndCosineCompleteInTheirDomain : Obligations.SineAndCosineCompleteInTheirDomain := by
  refine ⟨rfl, rfl, rfl, fun s => ?_, fun s h => ?_, fun s h => ?_⟩
  · exact exec_of_transaction rfl
  · exact exec_public_inside rfl ((isZeroOrNormal_iff _).2 h)
  · exact exec_public_inside rfl ((isZeroOrNormal_iff _).2 h)

/-- Settles O45: the domain test is met, and the value unfolds to `cbrtCorrection` over the double-float pairs. -/
theorem accurateCbrtFollowsItsSteps : Obligations.AccurateCbrtFollowsItsSteps :=
  ⟨rfl, fun _ hs hlo hhi => exec_public_inside rfl ((isPositiveNormal_iff _).2 ⟨hs, hlo, hhi⟩)⟩

end Sys2Proof.Proofs
end

section
/-! PROOFS. What one transaction and one request give, from every state (10_state.md R29; 70_reset_and_hazards.md R220,
R224). -/

namespace Sys2Proof.Machine

/-- A step with an assigned command word returns the words of its transaction (R224). -/
theorem step_of_decode_some {s : State} {i : Instr} (h : decode s.op = some i) :
    step s = .next { s with out := some (transaction Config.cfg i s.ports) } := by
  unfold step
  rw [h]
  exact exec_of_transaction rfl

@[simp] theorem answerResults_next (t : State) : answerResults (.next t) = t.out := rfl
@[simp] theorem answerResults_refused (e : Refusal) : answerResults (.refused e) = none := rfl

/-- The result words of a step are those of the transaction on the input ports, whatever stood on the result ports; a
reserved command word gives none (R54). -/
theorem answerResults_step (s : State) :
    answerResults (step s) = (decode s.op).map fun i => transaction Config.cfg i s.ports := by
  cases h : decode s.op with
  | none => rw [step_of_decode_none s h, answerResults_refused, Option.map_none]
  | some i => rw [step_of_decode_some h, answerResults_next, Option.map_some]

/-- The result words of a request are a function of the request alone. -/
theorem answerResults_serveOne (s : State) (q : Request) :
    answerResults (serveOne s q) = (decode q.op).map fun i => transaction Config.cfg i q.ports := by
  rw [serveOne, answerResults_step, State.present_op, State.present_ports]

end Sys2Proof.Machine

namespace Sys2Proof.Safety

open Sys2Proof.Machine

/-- While no result words stand on the ports, the invariant of the ports asks nothing. -/
theorem portsInv_of_out_none {s : State} (h : s.out = none) : PortsInv s := by
  intro i r _ hout
  rw [h] at hout
  cases hout

end Sys2Proof.Safety
end

section
/-! PROOFS. The statements on the state after reset (10_state.md R29; 70_reset_and_hazards.md R220). -/

namespace Sys2Proof.Proofs

open Sys2Proof.Machine Sys2Proof.Safety

/-- Settles O10: on both sides stand the words of the request's own transaction, which no state enters. -/
theorem resetHasNoArchitecturalEffect : Obligations.ResetHasNoArchitecturalEffect := by
  refine ⟨State.reset_out, fun s q => ?_⟩
  rw [answerResults_serveOne, answerResults_serveOne]

/-- Settles O12: reset leaves no result words. -/
theorem resetMeetsPortsInvariant : Obligations.ResetMeetsPortsInvariant :=
  portsInv_of_out_none State.reset_out

end Sys2Proof.Proofs
end

section
/-! PROOFS. Requests presented one after another, each apart from the state it meets (20_memory.md R38, R41), and the
host's program lines, whose writes depend on the words of the variables they read alone (R41; 30_encoding.md R57, R58;
70_reset_and_hazards.md R222). -/

namespace Sys2Proof.Machine

/-! ## Steps and sequences of requests -/

/-- Everything a completed step can do: an assigned command word was on the port, and the result ports alone change. -/
theorem step_next_iff {s t : State} : step s = .next t ↔
    ∃ i, decode s.op = some i ∧ t = { s with out := some (transaction Config.cfg i s.ports) } := by
  constructor
  · intro h
    obtain ⟨i, hi, hexec⟩ := step_next_inv s t h
    rw [exec_eq_answer, State.answer_next_iff] at hexec
    exact ⟨i, hi, hexec⟩
  · rintro ⟨i, hi, rfl⟩
    exact step_of_decode_some hi

/-- A sequence of requests on a block in state `s` gives what each request gives on its own from any state `t`. -/
theorem serve_eq_map (s t : State) (qs : List Request) :
    serve s qs = qs.map fun q => answerResults (serveOne t q) := by
  induction qs generalizing s with
  | nil => rfl
  | cons q rest ih => rw [serve, ih, List.map_cons, answerResults_serveOne s, answerResults_serveOne t]

/-! ## What a host line writes -/

/-- The source operands of a base line. -/
def baseSrcs (l : BaseLine) : List Src :=
  match l with
  | .transaction _ _ srcs => srcs
  | .copy _ x => [x]

/-- The variables a base line writes. -/
def baseDsts (l : BaseLine) : List Nat :=
  match l with
  | .transaction _ dsts _ => dsts
  | .copy r _ => [r]

/-- The variables a base line writes, with the words it writes to them; none when the line has no meaning. -/
def baseWrites (k : Cfg) (env : HostVars) (l : BaseLine) : Option HostVars :=
  match l with
  | .copy r x => (readSrc env x).map fun w => [(r, w)]
  | .transaction i dsts srcs =>
    if dsts.length = drivesOf i ∧ srcs.length = readsOf i then
      (srcs.mapM (readSrc env)).map fun ws => dsts.zip (resultWords (transaction k i (portsOfWords ws)))
    else none

/-- A base line puts its writes in front of the host's variables and changes nothing else. -/
theorem runBase_eq_baseWrites (k : Cfg) (env : HostVars) (l : BaseLine) :
    runBase k env l = (baseWrites k env l).map (· ++ env) := by
  cases l with
  | copy r x =>
    rw [runBase, baseWrites, Option.map_map]
    rfl
  | transaction i dsts srcs =>
    rw [runBase, baseWrites]
    split
    · rw [Option.map_map]
      rfl
    · rfl

theorem runLine_eq_baseWrites (k : Cfg) (env : HostVars) (l : Line) :
    runLine k env l = (baseWrites k env (expand l)).map (· ++ env) := runBase_eq_baseWrites k env (expand l)

/-! ## The variables a line reads and writes -/

theorem baseDsts_expand (l : Line) : baseDsts (expand l) = lineDsts l := by
  cases l <;> rfl

@[simp] theorem srcVars_litOne : srcVars litOne = [] := rfl
@[simp] theorem srcVars_litNegOne : srcVars litNegOne = [] := rfl
@[simp] theorem srcVars_litNegZero : srcVars litNegZero = [] := rfl

/-- A line reads the variables of its expansion: the literals that R58 adds are no variables. -/
theorem mem_lineReads_iff {l : Line} {v : Nat} : v ∈ lineReads l ↔ ∃ x ∈ baseSrcs (expand l), v ∈ srcVars x := by
  cases l with
  | op i dsts srcs => exact List.mem_flatMap
  | fsub r x y => simp [lineReads, expand, baseSrcs, or_comm]
  | fadd | fmul | fneg | f2b | b2f => simp [lineReads, expand, baseSrcs]

theorem readSrc_congr {env env' : HostVars} {x : Src} (h : ∀ v ∈ srcVars x, env'.lookup v = env.lookup v) :
    readSrc env' x = readSrc env x := by
  cases x with
  | word w => rfl
  | float neg digits scale => rfl
  | var v => exact h v (List.mem_singleton_self v)

theorem mapM_readSrc_congr {env env' : HostVars} {srcs : List Src} (h : ∀ x ∈ srcs, readSrc env' x = readSrc env x) :
    srcs.mapM (readSrc env') = srcs.mapM (readSrc env) := by
  induction srcs with
  | nil => rfl
  | cons x rest ih =>
    obtain ⟨hx, hrest⟩ := List.forall_mem_cons.1 h
    rw [List.mapM_cons, List.mapM_cons, hx, ih hrest]

/-- Two hosts that give the sources of a base line the same words make it write the same words. -/
theorem baseWrites_congr {k : Cfg} {env env' : HostVars} {l : BaseLine}
    (h : ∀ x ∈ baseSrcs l, readSrc env' x = readSrc env x) : baseWrites k env' l = baseWrites k env l := by
  cases l with
  | copy r x => rw [baseWrites, baseWrites, h x (List.mem_singleton_self x)]
  | transaction i dsts srcs => rw [baseWrites, baseWrites, mapM_readSrc_congr (srcs := srcs) h]

theorem baseWrites_expand_congr {k : Cfg} {env env' : HostVars} {l : Line}
    (h : ∀ v ∈ lineReads l, env'.lookup v = env.lookup v) :
    baseWrites k env' (expand l) = baseWrites k env (expand l) :=
  baseWrites_congr fun x hx => readSrc_congr fun v hv => h v (mem_lineReads_iff.2 ⟨x, hx, hv⟩)

/-- A base line writes its destination variables only. -/
theorem fst_mem_baseDsts {k : Cfg} {env ws : HostVars} {l : BaseLine} (h : baseWrites k env l = some ws)
    {p : Nat × Word} (hp : p ∈ ws) : p.1 ∈ baseDsts l := by
  cases l with
  | copy r x =>
    obtain ⟨w, -, rfl⟩ := Option.map_eq_some_iff.1 h
    rw [List.mem_singleton.1 hp]
    exact List.mem_singleton_self r
  | transaction i dsts srcs =>
    rw [baseWrites] at h
    split at h
    · obtain ⟨words, -, rfl⟩ := Option.map_eq_some_iff.1 h
      exact (List.of_mem_zip hp).1
    · cases h

/-- A variable that is no destination of the line is not among its writes. -/
theorem lookup_baseWrites_eq_none {k : Cfg} {env ws : HostVars} {l : Line} (h : baseWrites k env (expand l) = some ws)
    {v : Nat} (hv : v ∉ lineDsts l) : ws.lookup v = none := by
  rw [List.lookup_eq_none_iff]
  intro p hp
  rw [bne_iff_ne]
  rintro rfl
  exact hv (baseDsts_expand l ▸ fst_mem_baseDsts h hp)

/-- Everything a line that completes can do: it puts words of its destination variables in front, the same words on
every host that agrees on the variables it reads. -/
theorem runLine_some_inv {k : Cfg} {env env' : HostVars} {l : Line} (h : runLine k env l = some env') :
    ∃ ws : HostVars, env' = ws ++ env ∧ (∀ v, v ∉ lineDsts l → ws.lookup v = none) ∧
      ∀ env₂ : HostVars, (∀ v ∈ lineReads l, env₂.lookup v = env.lookup v) → runLine k env₂ l = some (ws ++ env₂) := by
  rw [runLine_eq_baseWrites] at h
  obtain ⟨ws, hws, rfl⟩ := Option.map_eq_some_iff.1 h
  refine ⟨ws, rfl, fun v hv => lookup_baseWrites_eq_none hws hv, fun env₂ hagree => ?_⟩
  rw [runLine_eq_baseWrites, baseWrites_expand_congr hagree, hws, Option.map_some]

/-! ## Two lines, one after the other -/

theorem lookup_append_of_lookup_none {ws env : HostVars} {v : Nat} (h : ws.lookup v = none) :
    (ws ++ env).lookup v = env.lookup v := by
  rw [List.lookup_append, h, Option.none_or]

/-- Two blocks of writes of which no variable stands in both may be swapped. -/
theorem lookup_append_append_swap {ws ws' env : HostVars} {v : Nat} (h : ws.lookup v = none ∨ ws'.lookup v = none) :
    (ws ++ (ws' ++ env)).lookup v = (ws' ++ (ws ++ env)).lookup v := by
  simp only [List.lookup_append]
  rcases h with h | h <;> simp only [h, Option.none_or]

theorem runProgram_nil (k : Cfg) (env : HostVars) : runProgram k env [] = some env := rfl

theorem runProgram_cons (k : Cfg) (env : HostVars) (l : Line) (rest : List Line) :
    runProgram k env (l :: rest) = (runLine k env l).bind fun env' => runProgram k env' rest := by
  rw [runProgram]
  cases runLine k env l <;> rfl

/-- A program of two lines runs to its end when both lines do, the second from where the first ends. -/
theorem runProgram_pair {k : Cfg} {env env' : HostVars} {l l' : Line} :
    runProgram k env [l, l'] = some env' ↔ ∃ mid, runLine k env l = some mid ∧ runLine k mid l' = some env' := by
  simp only [runProgram_cons, runProgram_nil, Option.bind_eq_some_iff, Option.some.injEq, exists_eq_right]

end Sys2Proof.Machine
end

section
/-! PROOFS. The statements on what one transaction, request or host line leaves to the next (20_memory.md R38, R41;
70_reset_and_hazards.md R222). -/

namespace Sys2Proof.Proofs

open Sys2Proof.Machine

/-- Settles O9: each result of the sequence is that of the request on its own, so a reordering is a reordering of a
`map`. -/
theorem requestsAreServedAsIfAlone : Obligations.RequestsAreServedAsIfAlone := by
  refine fun s qs => ⟨serve_eq_map s State.reset qs, fun qs' hperm => ?_⟩
  rw [serve_eq_map s State.reset, serve_eq_map s State.reset]
  exact hperm.map _

/-- Settles O56: neither line's writes are read by the other, so each writes the same words in either order; and no
variable is written by both, so the order of the writes does not show. -/
theorem independentHostLinesCommute : Obligations.IndependentHostLinesCommute := by
  intro k env env' l l' hl hl' hrun
  obtain ⟨mid, hmid, hend⟩ := runProgram_pair.1 hrun
  obtain ⟨ws, rfl, hws, hsame⟩ := runLine_some_inv hmid
  obtain ⟨ws', rfl, hws', hsame'⟩ := runLine_some_inv hend
  have hfirst : runLine k env l' = some (ws' ++ env) := hsame' env fun v hv =>
    (lookup_append_of_lookup_none (hws v fun hd => (hl v hd).1 hv)).symm
  have hsecond : runLine k (ws' ++ env) l = some (ws ++ (ws' ++ env)) := hsame _ fun v hv =>
    lookup_append_of_lookup_none (hws' v fun hd => hl' v hd hv)
  refine ⟨_, runProgram_pair.2 ⟨_, hfirst, hsecond⟩, fun v => lookup_append_append_swap ?_⟩
  by_cases hv : v ∈ lineDsts l
  · exact .inr (hws' v (hl v hv).2)
  · exact .inl (hws v hv)

/-- Settles O8: the step changes the result ports alone, so the same command word and operand words stand on the input
ports, and they give the same result words. -/
theorem stepIsIdempotent : Obligations.StepIsIdempotent := by
  intro s t h
  obtain ⟨i, hi, rfl⟩ := step_next_iff.1 h
  exact step_next_iff.2 ⟨i, hi, rfl⟩

end Sys2Proof.Proofs
end

section
/-! PROOFS. The shape of the result words: which words the arithmetic and the bit operations can return (40 to 47, R100),
and for every operation the words of its transaction (30_encoding.md R59). -/

namespace Sys2Proof

/-- The NaN words of a valid configuration are quiet (R100). -/
theorem Cfg.Valid.isQuietNaN_nanOf {k : Cfg} (h : k.Valid) (i : Instr) (ws : List Word) :
    Machine.isQuietNaN (Machine.nanOf k i ws) = true := by
  obtain ⟨-, hnan⟩ := h
  exact hnan _ _

/-- R8: the denominator of log2 has degree 2 or 3. -/
theorem Cfg.Valid.two_le_length_log2Q {k : Cfg} (h : k.Valid) : 2 ≤ k.log2Q.length := by
  obtain ⟨hconst, -⟩ := h
  simp only [Cfg.constantsOk, log2CoeffsOk, Bool.and_eq_true, Bool.or_eq_true, beq_iff_eq] at hconst
  omega

/-- R8: `EXP2_C` has six coefficients. -/
theorem Cfg.Valid.length_exp2C {k : Cfg} (h : k.Valid) : k.exp2C.length = 6 := by
  obtain ⟨hconst, -⟩ := h
  simp only [Cfg.constantsOk, Bool.and_eq_true, beq_iff_eq] at hconst
  omega

end Sys2Proof

namespace Sys2Proof.Machine

/-! ## Results of the arithmetic that are no NaNs (R96, R97) -/

/-- Rounding to an integer stays representable: a word of magnitude 2^23 or more is whole, and a smaller one goes to at
most 2^23. -/
theorem representable_round {w : Word} (h : isFinite w = true) :
    Representable ((magUnits w + 2 ^ 148) / 2 ^ 149 * 2 ^ 149) := by
  obtain ⟨f, k, hf, hk, hu⟩ := representable_magUnits h
  rcases Nat.lt_or_ge k 149 with hk' | hk'
  · have hlt : magUnits w < 2 ^ 24 * 2 ^ 148 := by
      calc magUnits w < 2 ^ 24 * 2 ^ k := hu ▸ Nat.mul_lt_mul_of_pos_right hf (Nat.two_pow_pos k)
        _ ≤ 2 ^ 24 * 2 ^ 148 := Nat.mul_le_mul_left _ (Nat.pow_le_pow_right (by omega) (by omega))
    exact representable_integer (by omega)
  · obtain ⟨j, rfl⟩ := Nat.exists_eq_add_of_le hk'
    have hwhole : magUnits w = f * 2 ^ j * 2 ^ 149 := by rw [hu, pow_add]; ring
    refine ⟨f, 149 + j, hf, hk, ?_⟩
    rw [← hu]
    omega

theorem isFinite_of_not_isNaN_of_not_isInf {w : Word} (hn : isNaN w = false) (hi : isInf w = false) :
    isFinite w = true := by
  rw [isFinite_eq, hn, hi]
  rfl

/-- R96: the floor of a word that is no NaN is none. -/
theorem isNaN_ffloor (nan : Word) {x : Word} (h : isNaN x = false) : isNaN (ffloor nan x) = false := by
  cases hi : isInf x
  · exact isNaN_of_isFinite (ffloor_of_isFinite nan (isFinite_of_not_isNaN_of_not_isInf h hi)).1
  · have hx : ffloor nan x = x := by simp [ffloor, h, hi]
    rw [hx, h]

/-- R97: the rounding of a word that is no NaN is none. -/
theorem isNaN_fround (nan : Word) {x : Word} (h : isNaN x = false) : isNaN (fround nan x) = false := by
  unfold fround
  rw [h, if_neg Bool.false_ne_true]
  split
  · exact h
  · next hne =>
    rw [Bool.or_eq_true, not_or, Bool.not_eq_true] at hne
    exact isNaN_of_isFinite
      (enc_representable _ (representable_round (isFinite_of_not_isNaN_of_not_isInf h hne.1))).1

/-- R98: clearing the sign keeps the quiet bit. -/
@[simp] theorem isQuietNaN_fabs (x : Word) : isQuietNaN (fabs x) = isQuietNaN x := by
  rw [isQuietNaN, isQuietNaN, isNaN_fabs, mantField_fabs]

/-! ## Fields that the bit operations set (R70, R72 to R74, R151) -/

/-- R72: the mantissa normaliser writes the exponent field of 1.0. -/
theorem expField_mant1 (a : Word) : expField (mant1 a) = 127#8 := by
  apply BitVec.eq_of_getLsbD_eq
  intro i hi
  have hkeep : (0x807FFFFF#32).getLsbD (23 + i) = false := by interval_cases i <;> rfl
  have hset : (0x3F800000#32).getLsbD (23 + i) = (127#8).getLsbD i := by interval_cases i <;> rfl
  rw [expField, mant1, BitVec.getLsbD_extractLsb', BitVec.getLsbD_or, BitVec.getLsbD_and, hkeep, hset]
  simp [hi]

/-- R73: the exponent reader returns the word of an integer between -127 and 128, whatever the operand is. -/
theorem isFinite_expf (nan a : Word) : isFinite (expf nan a) = true := by
  have := (expField a).isLt
  rw [expf_eq]
  exact isFinite_intWord (by omega)

/-- R74: outside the exponent field the power-of-two builder leaves zeros. -/
theorem pow2i_and_signMantMask (nan a : Word) : pow2i nan a &&& 0x807FFFFF#32 = 0#32 := by
  have hmasks : 0x7F800000#32 &&& 0x807FFFFF#32 = 0#32 := rfl
  rw [pow2i, BitVec.and_assoc, hmasks, BitVec.and_zero]

theorem paritySign_eq (m : Word) : paritySign m = one ∨ paritySign m = negOne := by
  unfold paritySign
  split
  · exact .inl rfl
  · exact .inr rfl

/-- Widening a field to a result word does not change its number (R70). -/
theorem toNat_setWidth_word_lt {n : ℕ} (h : n ≤ 32) (v : BitVec n) : (v.setWidth 32).toNat < 2 ^ n := by
  rw [BitVec.toNat_setWidth_of_le h]
  exact v.isLt

/-! ## The ports a transaction reads and drives (R51, R59) -/

/-- The operand words operation `i` reads, with zeros on the ports its format does not read. -/
def readPorts (i : Instr) (p : Ports) : Ports where
  a := p.a
  b := if 2 ≤ readsOf i then p.b else 0#32
  c := if 3 ≤ readsOf i then p.c else 0#32
  d := if 4 ≤ readsOf i then p.d else 0#32

/-- The result words operation `i` drives, with zeros on the ports its format does not drive. -/
def drivenResults (i : Instr) (r : Results) : Results where
  r0 := r.r0
  r1 := if drivesOf i < 2 then 0#32 else r.r1
  r2 := if drivesOf i < 3 then 0#32 else r.r2

/-- R59, first sentence: no word on an unread port enters the results. -/
theorem transaction_readPorts (k : Cfg) (i : Instr) (p : Ports) :
    transaction k i (readPorts i p) = transaction k i p := by
  cases i <;> rfl

/-- R59, second sentence: a transaction leaves zeros on the undriven ports. -/
theorem drivenResults_transaction (k : Cfg) (i : Instr) (p : Ports) :
    drivenResults i (transaction k i p) = transaction k i p := by
  cases i <;> rfl

/-- Ports that agree where the format reads look the same to the operation. -/
theorem readPorts_congr {i : Instr} {p q : Ports} (ha : p.a = q.a) (hb : 2 ≤ readsOf i → p.b = q.b)
    (hc : 3 ≤ readsOf i → p.c = q.c) (hd : 4 ≤ readsOf i → p.d = q.d) : readPorts i p = readPorts i q := by
  rw [readPorts, readPorts, ha, ite_congr rfl hb fun _ => rfl, ite_congr rfl hc fun _ => rfl,
    ite_congr rfl hd fun _ => rfl]

end Sys2Proof.Machine

namespace Sys2Proof.Safety

open Sys2Proof.Machine

/-! ## Quiet NaNs (R100) -/

theorem quietIfNaN_of_isQuietNaN {w : Word} (h : isQuietNaN w = true) : QuietIfNaN w := fun _ => h

theorem quietIfNaN_of_not_isNaN {w : Word} (h : isNaN w = false) : QuietIfNaN w := fun hn => by
  rw [h] at hn
  cases hn

theorem quietIfNaN_fabs {w : Word} (h : QuietIfNaN w) : QuietIfNaN (fabs w) := by
  rw [QuietIfNaN, isNaN_fabs, isQuietNaN_fabs]
  exact h

section
variable {nan : Word} (hnan : isQuietNaN nan = true)
include hnan

/-- The fused step returns the transaction's NaN word or no NaN; so do the sum, the difference and the product, which
are fused steps. -/
theorem quietIfNaN_fma (a b c : Word) : QuietIfNaN (fma nan a b c) := by
  rw [fma_eq]
  split
  · exact quietIfNaN_of_isQuietNaN hnan
  · exact quietIfNaN_of_not_isNaN (isNaN_fmaValue a b c)

theorem quietIfNaN_fdiv (x y : Word) : QuietIfNaN (fdiv nan x y) := by
  rw [fdiv_eq]
  split
  · exact quietIfNaN_of_isQuietNaN hnan
  · exact quietIfNaN_of_not_isNaN (isNaN_fdivValue x y)

theorem quietIfNaN_ffloor (x : Word) : QuietIfNaN (ffloor nan x) := by
  cases h : isNaN x
  · exact quietIfNaN_of_not_isNaN (isNaN_ffloor nan h)
  · rw [ffloor_of_isNaN nan h]
    exact quietIfNaN_of_isQuietNaN hnan

theorem quietIfNaN_fround (x : Word) : QuietIfNaN (fround nan x) := by
  cases h : isNaN x
  · exact quietIfNaN_of_not_isNaN (isNaN_fround nan h)
  · rw [fround_of_isNaN nan h]
    exact quietIfNaN_of_isQuietNaN hnan

/-- A polynomial of degree one or more ends in a fused step; one of degree zero would return its coefficient. -/
theorem quietIfNaN_horner (t : Word) {l : List Word} (hl : 2 ≤ l.length) : QuietIfNaN (horner nan t l) := by
  match l, hl with
  | c :: c' :: rest, _ =>
    rw [horner_cons]
    exact quietIfNaN_fma hnan _ _ _

end

/-! ## The results of a transaction -/

/-- R59 in the terms of the ports' invariant. -/
theorem undrivenAreZero_transaction (k : Cfg) (i : Instr) (p : Ports) : UndrivenAreZero i (transaction k i p) := by
  rw [← drivenResults_transaction]
  exact ⟨fun h => if_pos h, fun h => if_pos h⟩

/-- Under a valid configuration every transaction returns words of its operation's shape. -/
theorem drivenShape_transaction {k : Cfg} (hk : k.Valid) (i : Instr) (p : Ports) :
    DrivenShape i (transaction k i p) := by
  have hnan : ∀ ws, isQuietNaN (nanOf k i ws) = true := hk.isQuietNaN_nanOf i
  cases i with
  | decomp =>
    exact ⟨toNat_setWidth_word_lt (by omega) (BitVec.ofBool (signBit p.a)),
      toNat_setWidth_word_lt (by omega) (expField p.a), toNat_setWidth_word_lt (by omega) (mantField p.a)⟩
  | mant1 => exact expField_mant1 p.a
  | expf => exact isFinite_expf _ _
  | pow2i => exact pow2i_and_signMantMask _ _
  | fabs => exact signBit_fabs p.a
  | div => exact quietIfNaN_fdiv (hnan _) _ _
  | floor => exact quietIfNaN_ffloor (hnan _) _
  | round => exact quietIfNaN_fround (hnan _) _
  | plog2d => exact quietIfNaN_horner (hnan _) _ hk.two_le_length_log2Q
  | pexp2 => exact quietIfNaN_horner (hnan _) _ (by rw [hk.length_exp2C]; omega)
  | redsin =>
    exact ⟨quietIfNaN_fma (hnan _) _ _ _, quietIfNaN_fabs (quietIfNaN_fma (hnan _) _ _ _), signBit_fabs _⟩
  | redcos => exact ⟨quietIfNaN_fma (hnan _) _ _ _, paritySign_eq _⟩
  | fma | plog2n | psin | halley | dfdiv => exact quietIfNaN_fma (hnan _) _ _ _
  | dfmul | dfmuls | dfqts => exact ⟨quietIfNaN_fma (hnan _) _ _ _, quietIfNaN_fma (hnan _) _ _ _⟩
  | compose | cbseed | mulsign | log2 | exp2 | sin | cos | cbrt | cbrta => trivial

end Sys2Proof.Safety
end

section
/-! PROOFS. The statements on the shape of the result words (30_encoding.md R59; R70 to R74, R98, R100, R150, R151). -/

namespace Sys2Proof.Proofs

open Sys2Proof.Machine Sys2Proof.Safety

/-- Settles O11: the result words after a step are those of the transaction of the operation on port `op`, whatever
stood on the result ports before. -/
theorem stepKeepsPortsInvariant : Obligations.StepKeepsPortsInvariant := by
  intro s t _ hstep
  obtain ⟨i, hi, rfl⟩ := step_next_iff.1 hstep
  intro j r hj hr
  obtain rfl : i = j := Option.some.inj (hi.symm.trans hj)
  obtain rfl : transaction Config.cfg i s.ports = r := Option.some.inj hr
  exact ⟨undrivenAreZero_transaction _ _ _, drivenShape_transaction Config.cfg_valid _ _⟩

/-- Settles O7: both states give the transaction of the words the format reads, and it drives zeros on the other result
ports. -/
theorem unreadPortsIgnoredUndrivenPortsZero : Obligations.UnreadPortsIgnoredUndrivenPortsZero := by
  intro i s t ha hb hc hd
  have hread : readPorts i t.ports = readPorts i s.ports := (readPorts_congr ha hb hc hd).symm
  have hsame : transaction Config.cfg i t.ports = transaction Config.cfg i s.ports := by
    rw [← transaction_readPorts, hread, transaction_readPorts]
  exact ⟨_, exec_of_transaction rfl, exec_of_transaction hsame, undrivenAreZero_transaction _ _ _⟩

end Sys2Proof.Proofs
end

section
/-! PROOFS. The decoder and the encoder as maps between the 29 operations and the 256 command words (30_encoding.md R50,
R52, R54). -/

namespace Sys2Proof

/-- The operations, in the order of the opcode table. -/
def operations : List Instr :=
  [.decomp, .compose, .mant1, .expf, .pow2i, .cbseed, .fma, .div, .floor, .round, .fabs, .mulsign, .plog2n, .plog2d,
    .log2, .pexp2, .exp2, .redsin, .redcos, .psin, .sin, .cos, .halley, .cbrt, .cbrta, .dfmul, .dfmuls, .dfqts, .dfdiv]

/-- The codes of R54, which no operation has. -/
abbrev ReservedCode (n : ℕ) : Prop :=
  (0x06 ≤ n ∧ n ≤ 0x0F) ∨ (0x15 ≤ n ∧ n ≤ 0x1F) ∨ (0x21 ≤ n ∧ n ≤ 0x2F) ∨ (0x33 ≤ n ∧ n ≤ 0x3F) ∨
    (0x42 ≤ n ∧ n ≤ 0x4F) ∨ (0x55 ≤ n ∧ n ≤ 0x5F) ∨ (0x63 ≤ n ∧ n ≤ 0x6F) ∨ (0x74 ≤ n ∧ n ≤ 0x7F) ∨
    (0x80 ≤ n ∧ n ≤ 0xFF)

/-- R50: a command word is its two fields. -/
theorem command_ext {v w : Command} (hfam : famField v = famField w) (hidx : idxField v = idxField w) : v = w := by
  have hsplit : ∀ u : Command, u.extractLsb' 4 4 ++ u.extractLsb' 0 4 = u := by
    intro u
    apply BitVec.eq_of_getLsbD_eq
    intro i hi
    rw [BitVec.getLsbD_append, BitVec.getLsbD_extractLsb', BitVec.getLsbD_extractLsb']
    by_cases h : i < 4
    · simp [h]
    · simp [h, show i - 4 < 4 by omega, show 4 + (i - 4) = i by omega]
  rw [← hsplit v, ← hsplit w, BitVec.eq_of_toNat_eq hfam, BitVec.eq_of_toNat_eq hidx]

@[simp] theorem decode_encode (i : Instr) : decode (encode i) = some i := by
  cases i <;> rfl

/-- The decoder reads the fields of the operation's own command word and no others. -/
theorem fields_of_decode {w : Command} {i : Instr} (h : decode w = some i) :
    famField (encode i) = famField w ∧ idxField (encode i) = idxField w := by
  unfold decode at h
  split at h
  all_goals cases h
  all_goals next hfam hidx => exact ⟨hfam.symm, hidx.symm⟩

theorem decode_eq_some_iff {w : Command} {i : Instr} : decode w = some i ↔ encode i = w := by
  constructor
  · intro h
    obtain ⟨hfam, hidx⟩ := fields_of_decode h
    exact command_ext hfam hidx
  · rintro rfl
    exact decode_encode i

/-- A table word of 8 bits is a command word. -/
@[simp] theorem decodeTableWord_toNat (w : Command) : decodeTableWord 8 w.toNat = decode w := by
  have hw : w.toNat % 2 ^ 8 = w.toNat := Nat.mod_eq_of_lt w.isLt
  rw [decodeTableWord, commandOfTable, hw, if_pos w.isLt, BitVec.ofNat_toNat, BitVec.setWidth_eq]

/-- R54 on each of the 256 command words. -/
theorem decode_eq_none_iff (w : Command) : decode w = none ↔ ReservedCode w.toNat := by
  revert w
  decide +kernel

end Sys2Proof
end

section
/-! PROOFS. The statements on the encoding (30_encoding.md R50, R52, R54; 70_reset_and_hazards.md R224). -/

namespace Sys2Proof.Proofs

open Sys2Proof.Machine

/-- Settles O1: both sides are the transaction of the decoded operation on the input ports. -/
theorem stepRunsTheDecodedOperation : Obligations.StepRunsTheDecodedOperation := by
  intro s i h
  rw [step_of_decode_some h, exec_of_transaction rfl]

/-- Settles O3: the reserved codes are those that decode to nothing, and a step on any other is a transaction. -/
theorem reservedCommandsAreRefused : Obligations.ReservedCommandsAreRefused := by
  intro s
  refine ⟨fun hres => step_of_decode_none s ((decode_eq_none_iff s.op).2 hres), fun hres => ?_⟩
  obtain ⟨i, hi⟩ := Option.ne_none_iff_exists'.1 (mt (decode_eq_none_iff s.op).1 hres)
  exact ⟨_, step_of_decode_some hi⟩

/-- Settles O4: row by row the table is `encode` and `formatOf`, so its codes decode to their operations. -/
theorem opcodeMapIsTheTable : Obligations.OpcodeMapIsTheTable := by
  have hrows : ∀ row ∈ operations.map fun i => (encode i, i, formatOf i),
      decode row.1 = some row.2.1 ∧ formatOf row.2.1 = row.2.2 :=
    List.forall_mem_map.2 fun i _ => ⟨decode_encode i, rfl⟩
  exact hrows

/-- Settles O5: the decoder is the inverse of the encoder, since a command word is determined by its two fields. -/
theorem decodeAndEncodeAgree : Obligations.DecodeAndEncodeAgree :=
  ⟨fun i => ⟨decode_encode i, by rw [decodeTableWord_toNat, decode_encode]⟩, fun _ _ => decode_eq_some_iff.1⟩

end Sys2Proof.Proofs
end

section
/-! PROOFS. What a line of a host program does when its sources can be read: it completes and binds its destination
variables (30_encoding.md R57, R58; 60_exceptions.md R212). -/

namespace Sys2Proof.Machine

/-! ## Transactions and copies of the host -/

theorem readSrc_word (env : HostVars) (w : Word) : readSrc env (.word w) = some w := rfl

theorem readSrc_litOne (env : HostVars) : readSrc env litOne = some one := by
  have h : floatLiteral false 10 1 = one := by decide +kernel
  rw [litOne, readSrc, h]

theorem readSrc_litNegOne (env : HostVars) : readSrc env litNegOne = some negOne := by
  have h : floatLiteral true 10 1 = negOne := by decide +kernel
  rw [litNegOne, readSrc, h]

theorem readSrc_litNegZero (env : HostVars) : readSrc env litNegZero = some negZero := rfl

/-- An FMA line whose sources hold words writes their fused step. -/
theorem runBase_fma {k : Cfg} {env : HostVars} {r : ℕ} {sa sb sc : Src} {a b c : Word}
    (ha : readSrc env sa = some a) (hb : readSrc env sb = some b) (hc : readSrc env sc = some c) :
    runBase k env (.transaction .fma [r] [sa, sb, sc]) = some ((r, fma (nanOf k .fma [a, b, c]) a b c) :: env) := by
  have hwords : [sa, sb, sc].mapM (readSrc env) = some [a, b, c] := by
    simp [List.mapM_cons, ha, hb, hc]
  rw [runBase, if_pos ⟨rfl, rfl⟩, hwords]
  rfl

/-- A MULSIGN line whose sources hold words writes the first with the sign transferred. -/
theorem runBase_mulsign {k : Cfg} {env : HostVars} {r : ℕ} {sa sb : Src} {a b : Word}
    (ha : readSrc env sa = some a) (hb : readSrc env sb = some b) :
    runBase k env (.transaction .mulsign [r] [sa, sb]) = some ((r, mulsign a b) :: env) := by
  have hwords : [sa, sb].mapM (readSrc env) = some [a, b] := by
    simp [List.mapM_cons, ha, hb]
  rw [runBase, if_pos ⟨rfl, rfl⟩, hwords]
  rfl

theorem runBase_copy {k : Cfg} {env : HostVars} {r : ℕ} {s : Src} {x : Word} (hx : readSrc env s = some x) :
    runBase k env (.copy r s) = some ((r, x) :: env) := by
  rw [runBase, hx, Option.map_some]

/-- Transferring the sign of -0.0 flips the sign bit (R58's FNEG). -/
theorem mulsign_negZero (x : Word) : mulsign x negZero = fneg x := by
  rw [mulsign, negZero, BitVec.and_self, fneg]

/-! ## Well-formed base lines -/

/-- What R57 asks of a line, of its expansion: the counts are the format's, and the sources may be read. -/
def BaseOk (known : List ℕ) (l : BaseLine) : Prop :=
  match l with
  | .transaction i dsts srcs =>
    dsts.length = drivesOf i ∧ srcs.length = readsOf i ∧ ∀ x ∈ srcs, srcOk known x = true
  | .copy _ x => srcOk known x = true

/-- R58: the expansion of a well-formed line is well-formed, since the literals it adds may always be read. -/
theorem baseOk_expand {known : List ℕ} {l : Line} (h : lineOk known l = true) : BaseOk known (expand l) := by
  have hone : srcOk known litOne = true := rfl
  have hnegOne : srcOk known litNegOne = true := rfl
  have hnegZero : srcOk known litNegZero = true := rfl
  cases l with
  | op i dsts srcs => simpa [lineOk, expand, BaseOk, and_assoc] using h
  | fadd r x y | fsub r x y | fmul r x y =>
    obtain ⟨hx, hy⟩ := Bool.and_eq_true_iff.1 h
    refine ⟨rfl, rfl, ?_⟩
    simp [hx, hy, hone, hnegOne, hnegZero]
  | fneg r x =>
    have hx : srcOk known x = true := h
    refine ⟨rfl, rfl, ?_⟩
    simp [hx, hnegZero]
  | f2b r x | b2f r x => exact h

/-- A host variable holds a word when some line has written it. -/
theorem lookup_isSome_iff_mem {env : HostVars} {v : ℕ} : (env.lookup v).isSome = true ↔ v ∈ env.map Prod.fst := by
  simp only [List.lookup_isSome_iff, List.mem_map, beq_iff_eq]
  simp only [eq_comm]

theorem exists_readSrc {env : HostVars} {x : Src} (h : srcOk (env.map Prod.fst) x = true) :
    ∃ w, readSrc env x = some w := by
  cases x with
  | word w => exact ⟨w, rfl⟩
  | float neg digits scale => exact ⟨_, rfl⟩
  | var v => exact Option.isSome_iff_exists.1 (lookup_isSome_iff_mem.2 (List.contains_iff_mem.1 h))

theorem exists_mapM_readSrc {env : HostVars} {srcs : List Src}
    (h : ∀ x ∈ srcs, srcOk (env.map Prod.fst) x = true) : ∃ ws, srcs.mapM (readSrc env) = some ws := by
  induction srcs with
  | nil => exact ⟨[], rfl⟩
  | cons x rest ih =>
    obtain ⟨hx, hrest⟩ := List.forall_mem_cons.1 h
    obtain ⟨w, hw⟩ := exists_readSrc hx
    obtain ⟨ws, hws⟩ := ih hrest
    exact ⟨w :: ws, by rw [List.mapM_cons, hw, hws]; rfl⟩

/-- R51: no format drives more than the three result ports. -/
theorem drivesOf_le_three (i : Instr) : drivesOf i ≤ 3 := by
  rw [drivesOf]
  cases formatOf i <;> decide

/-- A well-formed base line writes each of its destination variables, in their order. -/
theorem exists_baseWrites {k : Cfg} {env : HostVars} {l : BaseLine} (h : BaseOk (env.map Prod.fst) l) :
    ∃ ws, baseWrites k env l = some ws ∧ ws.map Prod.fst = baseDsts l := by
  cases l with
  | copy r x =>
    obtain ⟨w, hw⟩ := exists_readSrc h
    exact ⟨[(r, w)], by rw [baseWrites, hw, Option.map_some], rfl⟩
  | transaction i dsts srcs =>
    obtain ⟨hdsts, hsrcs, hread⟩ := h
    obtain ⟨ws, hws⟩ := exists_mapM_readSrc hread
    refine ⟨_, by rw [baseWrites, if_pos ⟨hdsts, hsrcs⟩, hws, Option.map_some], ?_⟩
    exact List.map_fst_zip (hdsts.trans_le (drivesOf_le_three i))

/-- A well-formed line completes, and the host then has words for the line's destinations and for the variables it had
before. -/
theorem exists_runLine {k : Cfg} {env : HostVars} {l : Line} (h : lineOk (env.map Prod.fst) l = true) :
    ∃ env', runLine k env l = some env' ∧ env'.map Prod.fst = lineDsts l ++ env.map Prod.fst := by
  obtain ⟨ws, hws, hdsts⟩ := exists_baseWrites (k := k) (baseOk_expand h)
  refine ⟨ws ++ env, by rw [runLine_eq_baseWrites, hws, Option.map_some], ?_⟩
  rw [List.map_append, hdsts, baseDsts_expand]

/-- A well-formed program completes, and the host then has words for the variables of its lines and for those it had
before. -/
theorem exists_runProgram {k : Cfg} {env : HostVars} {prog : List Line}
    (h : programOk (env.map Prod.fst) prog = true) :
    ∃ env', runProgram k env prog = some env' ∧
      ∀ v, v ∈ env'.map Prod.fst ↔ v ∈ env.map Prod.fst ∨ ∃ l ∈ prog, v ∈ lineDsts l := by
  induction prog generalizing env with
  | nil => exact ⟨env, runProgram_nil k env, by simp⟩
  | cons l rest ih =>
    obtain ⟨hline, hrest⟩ := Bool.and_eq_true_iff.1 h
    obtain ⟨mid, hmid, hvars⟩ := exists_runLine (k := k) hline
    rw [← hvars] at hrest
    obtain ⟨env', hrun, hmem⟩ := ih hrest
    refine ⟨env', by rw [runProgram_cons, hmid, Option.bind_some, hrun], fun v => ?_⟩
    rw [hmem, hvars, List.mem_append, List.exists_mem_cons_iff]
    tauto

end Sys2Proof.Machine
end

section
/-! PROOFS. The statements on host programs and their pseudo-instructions (30_encoding.md R57, R58; 60_exceptions.md
R200, R212). -/

namespace Sys2Proof.Proofs

open Sys2Proof.Machine

/-- Settles O54: both sides of each expansion are a transaction on the same words, and its result is the function. -/
theorem pseudoInstructionsComputeTheirFunctions : Obligations.PseudoInstructionsComputeTheirFunctions := by
  intro k env r sx sy x y hx hy
  have hadd : runLine k env (.fadd r sx sy) = some ((r, fadd (nanOf k .fma [x, one, y]) x y) :: env) :=
    runBase_fma hx (readSrc_litOne env) hy
  have hsub : runLine k env (.fsub r sx sy) = some ((r, fsub (nanOf k .fma [y, negOne, x]) x y) :: env) :=
    runBase_fma hy (readSrc_litNegOne env) hx
  have hmul : runLine k env (.fmul r sx sy) = some ((r, fmul (nanOf k .fma [x, y, negZero]) x y) :: env) :=
    runBase_fma hx hy (readSrc_litNegZero env)
  have hneg : runLine k env (.fneg r sx) = some ((r, fneg x) :: env) := by
    rw [← mulsign_negZero]
    exact runBase_mulsign hx (readSrc_litNegZero env)
  exact ⟨hadd.trans (runBase_fma hx (readSrc_word env one) hy).symm, hadd,
    hsub.trans (runBase_fma hy (readSrc_word env negOne) hx).symm, hsub,
    hmul.trans (runBase_fma hx hy (readSrc_word env negZero)).symm, hmul,
    hneg.trans ((mulsign_negZero x) ▸ (runBase_mulsign hx (readSrc_word env negZero)).symm), hneg,
    runBase_copy hx, runBase_copy hx⟩

/-- Settles O55: by induction over the program, whose lines each leave the host with the variables that the next line
may read. -/
theorem wellFormedHostProgramsComplete : Obligations.WellFormedHostProgramsComplete := by
  intro k env prog h
  obtain ⟨env', hrun, hmem⟩ := exists_runProgram (k := k) h
  exact ⟨env', hrun, fun v hv => lookup_isSome_iff_mem.2 ((hmem v).2 hv)⟩

end Sys2Proof.Proofs
end

section
/-! PROOFS. The fields of a word as numbers (00_scope.md R14), and the bit operations on them: splitting and joining
(40_bitdecomposition.md R70, R71, R77), the mantissa normaliser (R72), the word of a power of two (R74) and the
cube-root seed (R75). -/

namespace Sys2Proof.Machine

/-! ## Meanings and transactions -/

/-- The result words of a completed meaning are those of its transaction. -/
theorem transaction_eq_of_exec {i : Instr} {s : State} {r : Results}
    (h : exec i s = .next { s with out := some r }) : transaction Config.cfg i s.ports = r := by
  rw [exec_eq_answer, State.answer_next_iff] at h
  exact (Option.some.inj (congrArg State.out h)).symm

/-! ## Fields as numbers (R14) -/

theorem toNat_ofBool_signBit (w : Word) : (BitVec.ofBool (signBit w)).toNat = w.toNat / 2 ^ 31 := by
  have hw := w.isLt
  rw [signBit, BitVec.msb_eq_decide, BitVec.toNat_ofBool]
  by_cases h : 2 ^ (32 - 1) ≤ w.toNat
  · rw [decide_eq_true h, Bool.toNat_true]
    omega
  · rw [decide_eq_false h, Bool.toNat_false]
    omega

theorem toNat_expField (w : Word) : (expField w).toNat = w.toNat / 2 ^ 23 % 2 ^ 8 := by
  rw [expField, BitVec.extractLsb'_toNat, Nat.shiftRight_eq_div_pow]

theorem toNat_mantField (w : Word) : (mantField w).toNat = w.toNat % 2 ^ 23 := by
  rw [mantField, BitVec.extractLsb'_toNat, Nat.shiftRight_zero]

/-- The concatenation of R14 is a sum: the fields do not overlap. -/
theorem toNat_joinFields (s : BitVec 1) (e : BitVec 8) (m : BitVec 23) :
    (joinFields s e m).toNat = s.toNat * 2 ^ 31 + e.toNat * 2 ^ 23 + m.toNat := by
  have he : (s ++ e).toNat = s.toNat * 2 ^ 8 + e.toNat := by
    rw [BitVec.toNat_append, ← Nat.shiftLeft_add_eq_or_of_lt e.isLt, Nat.shiftLeft_eq]
  have hm : (joinFields s e m).toNat = (s ++ e).toNat * 2 ^ 23 + m.toNat := by
    rw [joinFields, BitVec.toNat_append, ← Nat.shiftLeft_add_eq_or_of_lt m.isLt, Nat.shiftLeft_eq]
  rw [hm, he]
  ring

/-! ## Right-aligned fields in words (R70, R71) -/

/-- A field read back from the word it was widened to. -/
theorem extractLsb'_setWidth_word {n : ℕ} (h : n ≤ 32) (v : BitVec n) : (v.setWidth 32).extractLsb' 0 n = v := by
  apply BitVec.eq_of_toNat_eq
  rw [BitVec.extractLsb'_toNat, BitVec.toNat_setWidth_of_le h, Nat.shiftRight_zero, Nat.mod_eq_of_lt v.isLt]

/-- A word in the range of a field is the widening of its low bits. -/
theorem setWidth_extractLsb'_of_lt {n : ℕ} (h : n ≤ 32) {x : Word} (hx : x.toNat < 2 ^ n) :
    (x.extractLsb' 0 n).setWidth 32 = x := by
  apply BitVec.eq_of_toNat_eq
  rw [BitVec.toNat_setWidth_of_le h, BitVec.extractLsb'_toNat, Nat.shiftRight_zero, Nat.mod_eq_of_lt hx]

/-- R71 as arithmetic. -/
theorem toNat_compose (a b c : Word) :
    (compose a b c).toNat = a.toNat % 2 * 2 ^ 31 + b.toNat % 2 ^ 8 * 2 ^ 23 + c.toNat % 2 ^ 23 := by
  rw [compose, toNat_joinFields]
  simp only [BitVec.extractLsb'_toNat, Nat.shiftRight_zero, pow_one]

/-- R77: joining the widened fields of a word gives the word. -/
theorem compose_fields (w : Word) :
    compose ((BitVec.ofBool (signBit w)).setWidth 32) ((expField w).setWidth 32) ((mantField w).setWidth 32) = w := by
  rw [compose, extractLsb'_setWidth_word (by omega), extractLsb'_setWidth_word (by omega),
    extractLsb'_setWidth_word (by omega), joinFields_fields]

theorem ofBool_signBit_compose (a b c : Word) : BitVec.ofBool (signBit (compose a b c)) = a.extractLsb' 0 1 := by
  apply BitVec.eq_of_toNat_eq
  rw [compose, toNat_ofBool_signBit, toNat_joinFields]
  have hb := (b.extractLsb' 0 8).isLt
  have hc := (c.extractLsb' 0 23).isLt
  omega

@[simp] theorem expField_compose (a b c : Word) : expField (compose a b c) = b.extractLsb' 0 8 :=
  expField_joinFields _ _ _

@[simp] theorem mantField_compose (a b c : Word) : mantField (compose a b c) = c.extractLsb' 0 23 :=
  mantField_joinFields _ _ _

/-- R77: splitting the join of three fields in range gives the fields. -/
theorem decompTx_compose (k : Cfg) {p : Ports} {a b c : Word} (ha : a.toNat < 2) (hb : b.toNat < 256)
    (hc : c.toNat < 2 ^ 23) (hp : p.a = compose a b c) : decompTx k p = drive3 a b c := by
  rw [decompTx, hp, ofBool_signBit_compose, expField_compose, mantField_compose,
    setWidth_extractLsb'_of_lt (by omega) (by omega), setWidth_extractLsb'_of_lt (by omega) (by omega),
    setWidth_extractLsb'_of_lt (by omega) hc]

/-! ## The mantissa normaliser (R72) -/

theorem signBit_mant1 (a : Word) : signBit (mant1 a) = signBit a := by
  rw [signBit_eq_getLsbD, signBit_eq_getLsbD, mant1, BitVec.getLsbD_or, BitVec.getLsbD_and]
  simp

theorem mantField_mant1 (a : Word) : mantField (mant1 a) = mantField a := by
  apply BitVec.eq_of_getLsbD_eq
  intro i hi
  have hkeep : (0x807FFFFF#32).getLsbD i = true := by interval_cases i <;> rfl
  have hset : (0x3F800000#32).getLsbD i = false := by interval_cases i <;> rfl
  simp [mantField, mant1, hkeep, hset]

/-- R15's row for a positive normal word. -/
theorem val_of_positive_normal {w : Word} (hs : signBit w = false) (hn : isNormal w = true) :
    val w = (2 ^ 23 + (mantField w).toNat : ℚ) * (2 : ℚ) ^ ((expField w).toNat - 150 : ℤ) := by
  obtain ⟨hne, -⟩ := (isNormal_iff w).1 hn
  rw [val, hs, if_neg Bool.false_ne_true, if_neg hne, one_mul]
  push_cast
  rfl

theorem isNormal_mant1 (a : Word) : isNormal (mant1 a) = true := by
  rw [isNormal_iff, expField_mant1]
  decide

/-- R72 on a nonnegative operand: the value is `1 + M / 2^23`. -/
theorem val_mant1 {a : Word} (hs : signBit a = false) : val (mant1 a) = 1 + (mantField a).toNat / 2 ^ 23 := by
  rw [val_of_positive_normal ((signBit_mant1 a).trans hs) (isNormal_mant1 a), expField_mant1, mantField_mant1]
  norm_num
  ring

/-- R72: scaling the normalised mantissa by the operand's power of two gives the operand's value back. -/
theorem val_mant1_mul {a : Word} (hs : signBit a = false) (hn : isNormal a = true) :
    val (mant1 a) * (2 : ℚ) ^ ((expField a).toNat - 127 : ℤ) = val a := by
  rw [val_mant1 hs, val_of_positive_normal hs hn,
    show ((expField a).toNat - 127 : ℤ) = ((expField a).toNat - 150) + 23 by ring, zpow_add₀ (by norm_num)]
  norm_num
  ring

/-! ## The power of two and the cube-root seed (R74, R75) -/

theorem toNat_powerWord {n : ℤ} (hlo : -126 ≤ n) (hhi : n ≤ 127) :
    (powerWord n).toNat = (n + 127).toNat * 2 ^ 23 := by
  have he := toNat_biasedExponent hlo hhi
  rw [powerWord, toNat_joinFields]
  simp only [BitVec.toNat_ofNat, Nat.zero_mod] at he ⊢
  omega

/-- R75 as arithmetic. -/
theorem toNat_cbseed (k : Cfg) (a : Word) :
    (cbseed k a).toNat = (a.toNat / 3 + k.cbrtMagic.toNat) % 2 ^ 32 := by
  rw [cbseed_eq, BitVec.toNat_add, BitVec.toNat_udiv]
  rfl

end Sys2Proof.Machine
end

section
/-! PROOFS. The statements on BitDecomposition (40_bitdecomposition.md R70 to R77). -/

namespace Sys2Proof.Proofs

open Sys2Proof.Machine

/-- Settles O13: widening the three fields to result words keeps their numbers. -/
theorem decompSplitsTheFields : Obligations.DecompSplitsTheFields := by
  refine ⟨rfl, fun s => ⟨_, exec_of_transaction rfl, ?_, ?_, ?_⟩⟩
  · exact (BitVec.toNat_setWidth_of_le (by omega)).trans (toNat_ofBool_signBit s.a)
  · exact (BitVec.toNat_setWidth_of_le (by omega)).trans (toNat_expField s.a)
  · exact (BitVec.toNat_setWidth_of_le (by omega)).trans (toNat_mantField s.a)

/-- Settles O14: the join is the sum of its shifted fields. -/
theorem composeJoinsTheFields : Obligations.ComposeJoinsTheFields :=
  ⟨rfl, fun s => ⟨_, exec_of_transaction rfl, toNat_compose s.a s.b s.c⟩⟩

/-- Settles O15: the words of one transaction are the operands of the other. -/
theorem fieldRoundTrip : Obligations.FieldRoundTrip := by
  refine ⟨fun s t r hexec ha hb hc => ?_, fun s t w ha hb hc hexec hw => ?_⟩
  · obtain rfl := transaction_eq_of_exec hexec
    have hjoin : compose t.a t.b t.c = s.a := by
      rw [ha, hb, hc]
      exact compose_fields s.a
    exact exec_of_transaction (congrArg drive1 hjoin)
  · have hjoin : compose s.a s.b s.c = w := congrArg Results.r0 (transaction_eq_of_exec hexec)
    exact exec_of_transaction (decompTx_compose Config.cfg ha hb hc (hw.trans hjoin.symm))

/-- Settles O16: the value clauses follow from `1 + M / 2^23` with `M` below 2^23. -/
theorem mantOneNormalises : Obligations.MantOneNormalises := by
  refine ⟨rfl, fun s => ⟨mant1 s.a, exec_of_transaction rfl, rfl, signBit_mant1 s.a, mantField_mant1 s.a,
    expField_mant1 s.a, fun hs hn => ⟨?_, ?_, val_mant1_mul hs hn⟩⟩⟩
  · rw [val_mant1 hs, le_add_iff_nonneg_right]
    positivity
  · have hm : ((mantField s.a).toNat : ℚ) < 2 ^ 23 := by exact_mod_cast (mantField s.a).isLt
    have hfrac : ((mantField s.a).toNat : ℚ) / 2 ^ 23 < 1 := (div_lt_one (by positivity)).2 hm
    rw [val_mant1 hs]
    linarith

/-- Settles O17: the synthetic float is that of the exponent field, and the difference to 383 is an integer word. -/
theorem expfReadsTheUnbiasedExponent : Obligations.ExpfReadsTheUnbiasedExponent := by
  refine ⟨rfl, fun s => ⟨expf (nanOf Config.cfg .expf [s.a]) s.a, exec_of_transaction rfl, ?_, rfl,
    isFinite_expf _ _, ?_, fun h127 => ?_⟩⟩
  · exact (congrArg val (expWord_eq s.a)).trans (val_syntheticFloat _)
  · have := (expField s.a).isLt
    rw [expf_eq, val_intWord (by omega)]
    push_cast
    rfl
  · rw [expf_eq, h127]
    exact intWord_zero

/-- Settles O18: on an integer in [-126, 127] the builder returns `powerWord`. -/
theorem powTwoBuildsThePower : Obligations.PowTwoBuildsThePower := by
  refine ⟨rfl, fun s => ⟨pow2i (nanOf Config.cfg .pow2i [s.a]) s.a, exec_of_transaction rfl, rfl,
    fun i hfin hval hlo hhi => ?_⟩⟩
  rw [pow2i_of_integer _ hfin hval hlo hhi]
  exact ⟨toNat_powerWord hlo hhi, val_powerWord hlo hhi⟩

/-- Settles O19: CBSEED is the seed function on port `a`. -/
theorem cbseedDividesAndBiases : Obligations.CbseedDividesAndBiases :=
  ⟨rfl, fun s => ⟨_, exec_of_transaction rfl, toNat_cbseed Config.cfg s.a⟩⟩

end Sys2Proof.Proofs
end

section
/-! PROOFS. The block's rounding is the rounding rule over the rationals (41_fusedstep.md R92): the rule's `q` and `f` of
a positive magnitude, their thresholds, and that no finite word is nearer than the rounded one. -/

namespace Sys2Proof.Machine

/-! ## Signs and magnitudes (R15) -/

theorem abs_signed (neg : Bool) (r : ℚ) : |(if neg then -1 else 1) * r| = |r| := by
  cases neg <;> simp

theorem signed_lt_zero_iff (neg : Bool) {r : ℚ} (hr : 0 < r) : (if neg then -1 else 1) * r < 0 ↔ neg = true := by
  cases neg
  · simpa using hr.le
  · simpa using hr

theorem val_eq_magUnits (w : Word) : val w = (if signBit w then -1 else 1) * ((magUnits w : ℚ) / 2 ^ 149) := by
  rw [val_eq_valUnits, valUnits]
  cases signBit w
  · simp
  · simp [neg_div]

theorem abs_val (w : Word) : |val w| = (magUnits w : ℚ) / 2 ^ 149 := by
  rw [val_eq_magUnits, abs_signed, abs_of_nonneg (by positivity)]

theorem val_eq_abs (w : Word) : val w = (if signBit w then -1 else 1) * |val w| := by
  rw [abs_val, ← val_eq_magUnits]

/-- A word of magnitude zero is the zero word of its sign. -/
theorem eq_zeroWord_of_magUnits {w : Word} (h : magUnits w = 0) : w = zeroWord (signBit w) := by
  have henc : ∀ s : Bool, enc s 0 = zeroWord s := fun s => by cases s <;> rfl
  rw [← henc, ← h, enc_magUnits]

/-- A power of two, in units of 2^-149. -/
theorem zpow_sub_unit (z : ℤ) : (2 : ℚ) ^ (z - 149) = 2 ^ z / 2 ^ 149 := zpow_sub₀ two_ne_zero z 149

/-- R91: the magnitude of a finite word is a significand below 2^24 times a power of two not below 2^-149. -/
theorem exists_abs_val_eq {v : Word} (h : isFinite v = true) :
    ∃ (g : ℕ) (j : ℤ), g < 2 ^ 24 ∧ -149 ≤ j ∧ |val v| = g * (2 : ℚ) ^ j := by
  obtain ⟨g, k, hg, -, hu⟩ := representable_magUnits h
  refine ⟨g, k - 149, hg, by omega, ?_⟩
  rw [abs_val, hu, zpow_sub_unit, zpow_natCast, Nat.cast_mul, Nat.cast_pow, Nat.cast_ofNat, mul_div_assoc]

/-- R92's exponent `e` of `n / d` units, and the model's spacing as `q` of that exponent. -/
theorem exists_exponent {n d : ℕ} (hn : 0 < n) (hd : 0 < d) :
    ∃ e : ℤ, (2 : ℚ) ^ e ≤ (n : ℚ) / d / 2 ^ 149 ∧ (n : ℚ) / d / 2 ^ 149 < (2 : ℚ) ^ (e + 1) ∧
      (spacing n d : ℤ) - 149 = max e (-126) - 23 := by
  have hr : (0 : ℚ) < (n : ℚ) / d := by positivity
  refine ⟨Int.log 2 ((n : ℚ) / d) - 149, ?_, ?_, ?_⟩
  · rw [zpow_sub_unit, div_le_div_iff_of_pos_right (by positivity)]
    exact Int.zpow_log_le_self one_lt_two hr
  · rw [sub_add_eq_add_sub, zpow_sub_unit, div_lt_div_iff_of_pos_right (by positivity)]
    exact Int.lt_zpow_succ_log_self one_lt_two _
  · rw [spacing]
    rcases Nat.lt_or_ge n d with h | h
    · have hneg : Int.log 2 ((n : ℚ) / d) < 0 := by
        rw [← Int.lt_zpow_iff_log_lt one_lt_two hr, zpow_zero, div_lt_one (by positivity)]
        exact_mod_cast h
      rw [Nat.div_eq_of_lt h, Nat.log2_zero]
      omega
    · have hone : (1 : ℚ) ≤ (n : ℚ) / d := by
        rw [one_le_div (by positivity)]
        exact_mod_cast h
      rw [Int.log_of_one_le_right 2 hone, Nat.floor_div_eq_div, Nat.log2_eq_log_two]
      omega

end Sys2Proof.Machine

namespace Sys2Proof.Safety

open Sys2Proof.Machine

/-! ## The nearest integer, ties to even -/

/-- The model's `nearestEven` is the nearest integer of the rule. -/
theorem isNearestEven_nearestEven (n : ℕ) {d : ℕ} (hd : 0 < d) : IsNearestEven ((n : ℚ) / d) (nearestEven n d) := by
  obtain ⟨⟨hup, hlo⟩, htie⟩ := nearestEven_spec n hd
  generalize nearestEven n d = f at *
  have hd' : (0 : ℚ) < d := by exact_mod_cast hd
  have herr : (n : ℚ) / d - f = (2 * n - 2 * f * d) / (2 * d) := by field_simp
  have hup' : (2 * n : ℚ) ≤ (2 * f + 1) * d := by exact_mod_cast hup
  have hlo' : (2 * f * d : ℚ) ≤ 2 * n + d := by exact_mod_cast hlo
  rw [IsNearestEven, herr]
  refine ⟨?_, fun habs => ?_⟩
  · rw [abs_le, le_div_iff₀ (by positivity), div_le_iff₀ (by positivity)]
    constructor <;> linarith
  · refine Nat.even_iff.2 (htie ?_)
    rcases eq_or_eq_neg_of_abs_eq habs with h | h <;> rw [div_eq_iff (by positivity)] at h
    · exact .inl (by exact_mod_cast (by linarith : (2 * n : ℚ) = (2 * f + 1) * d))
    · exact .inr (by exact_mod_cast (by linarith : (2 * f * d : ℚ) = 2 * n + d))

/-- The nearest integer is no farther than any other integer. -/
theorem IsNearestEven.abs_sub_le_abs_sub {m : ℚ} {f : ℕ} (h : IsNearestEven m f) (t : ℕ) : |f - m| ≤ |t - m| := by
  obtain ⟨hhalf, -⟩ := h
  rcases eq_or_ne f t with rfl | hne
  · exact le_rfl
  · have hone : (1 : ℚ) ≤ |(t : ℚ) - f| := by
      exact_mod_cast Int.one_le_abs (sub_ne_zero.2 (Int.ofNat_inj.not.2 hne.symm))
    have htri : |(t : ℚ) - f| ≤ |t - m| + |m - f| := abs_sub_le _ _ _
    rw [abs_sub_comm (f : ℚ) m]
    linarith

/-- The half below an even integer goes up to it. -/
theorem IsNearestEven.even_le_iff {m : ℚ} {f g : ℕ} (h : IsNearestEven m f) (hg : Even g) :
    g ≤ f ↔ (g : ℚ) - 1 / 2 ≤ m := by
  obtain ⟨hhalf, htie⟩ := h
  obtain ⟨hlo, hhi⟩ := abs_le.1 hhalf
  refine ⟨fun hgf => ?_, fun hm => ?_⟩
  · have : (g : ℚ) ≤ f := by exact_mod_cast hgf
    linarith
  · by_contra hlt
    have hfg : (f : ℚ) + 1 ≤ g := by exact_mod_cast not_le.1 hlt
    have hsucc : f + 1 = g := by exact_mod_cast (by linarith : (f : ℚ) + 1 = g)
    have heven : Even f := htie (by rw [show m - f = 1 / 2 by linarith]; norm_num)
    rw [← hsucc, Nat.even_add_one] at hg
    exact hg heven

/-- The half above an even integer goes down to it. -/
theorem IsNearestEven.le_even_iff {m : ℚ} {f g : ℕ} (h : IsNearestEven m f) (hg : Even g) :
    f ≤ g ↔ m ≤ (g : ℚ) + 1 / 2 := by
  obtain ⟨hhalf, htie⟩ := h
  obtain ⟨hlo, hhi⟩ := abs_le.1 hhalf
  refine ⟨fun hfg => ?_, fun hm => ?_⟩
  · have : (f : ℚ) ≤ g := by exact_mod_cast hfg
    linarith
  · by_contra hlt
    have hgf : (g : ℚ) + 1 ≤ f := by exact_mod_cast not_le.1 hlt
    have hsucc : g + 1 = f := by exact_mod_cast (by linarith : (g : ℚ) + 1 = f)
    have heven : Even f := htie (by rw [show m - f = -(1 / 2) by linarith]; norm_num)
    rw [← hsucc, Nat.even_add_one] at heven
    exact heven hg

/-! ## R92's `q` and `f` -/

/-- `q` and `f` are those of R92 for the positive magnitude `y`. -/
def IsRounded (y : ℚ) (q : ℤ) (f : ℕ) : Prop :=
  ∃ e : ℤ, (2 : ℚ) ^ e ≤ y ∧ y < (2 : ℚ) ^ (e + 1) ∧ q = max e (-126) - 23 ∧ IsNearestEven (y / (2 : ℚ) ^ q) f

section
variable {y : ℚ} {q : ℤ} {f : ℕ}

theorem IsRounded.isNearestEven (h : IsRounded y q f) : IsNearestEven (y / (2 : ℚ) ^ q) f := by
  obtain ⟨e, -, -, -, hnear⟩ := h
  exact hnear

/-- The scaled magnitude is below 2^24, and above the least spacing it is at least 2^23. -/
theorem IsRounded.bounds (h : IsRounded y q f) :
    -149 ≤ q ∧ y < 2 ^ 24 * (2 : ℚ) ^ q ∧ (-149 < q → 2 ^ 23 * (2 : ℚ) ^ q ≤ y) := by
  obtain ⟨e, hlo, hhi, hq, -⟩ := h
  have hpow : ∀ n : ℕ, 2 ^ n * (2 : ℚ) ^ q = 2 ^ (n + q) := fun n => by rw [zpow_add₀ two_ne_zero, zpow_natCast]
  rw [hpow, hpow]
  refine ⟨by omega, hhi.trans_le ?_, fun hpos => le_trans ?_ hlo⟩
  · exact zpow_le_zpow_right₀ one_le_two (by push_cast; omega)
  · exact zpow_le_zpow_right₀ one_le_two (by push_cast; omega)

/-- The rounded magnitude meets the same bounds, the upper one included. -/
theorem IsRounded.significand_bounds (h : IsRounded y q f) :
    f * (2 : ℚ) ^ q ≤ 2 ^ 24 * (2 : ℚ) ^ q ∧ (-149 < q → 2 ^ 23 * (2 : ℚ) ^ q ≤ f * (2 : ℚ) ^ q) := by
  obtain ⟨-, hhi, hlo⟩ := h.bounds
  have hpos : (0 : ℚ) < 2 ^ q := by positivity
  have hup := h.isNearestEven.le_even_iff (g := 2 ^ 24) (by decide)
  have hdown := h.isNearestEven.even_le_iff (g := 2 ^ 23) (by decide)
  push_cast at hup hdown
  refine ⟨mul_le_mul_of_nonneg_right ?_ hpos.le, fun hq => mul_le_mul_of_nonneg_right ?_ hpos.le⟩
  · exact_mod_cast hup.2 (by linarith [(div_lt_iff₀ hpos).2 hhi])
  · exact_mod_cast hdown.2 (by linarith [(le_div_iff₀ hpos).2 (hlo hq)])

/-- The lower threshold of R92: the rounded magnitude is zero just up to half the least spacing. -/
theorem IsRounded.eq_zero_iff (h : IsRounded y q f) : f = 0 ↔ y ≤ (2 : ℚ) ^ (-150 : ℤ) := by
  obtain ⟨hq, -, hlo⟩ := h.bounds
  obtain ⟨-, hflo⟩ := h.significand_bounds
  have hpos : (0 : ℚ) < 2 ^ q := by positivity
  rcases hq.eq_or_lt with rfl | hgt
  · rw [← Nat.le_zero, h.isNearestEven.le_even_iff Even.zero, Nat.cast_zero, zero_add, div_le_iff₀ hpos,
      show (1 / 2 : ℚ) * 2 ^ (-149 : ℤ) = 2 ^ (-150 : ℤ) by norm_num]
  · refine iff_of_false (fun h0 => ?_) (not_le.2 ?_)
    · have hle := hflo hgt
      rw [h0, Nat.cast_zero, zero_mul] at hle
      linarith
    · have hpow : (2 : ℚ) ^ (-150 : ℤ) ≤ 2 ^ q := zpow_le_zpow_right₀ one_le_two (by omega)
      linarith [hlo hgt]

/-- The upper threshold of R92: the rounded magnitude reaches 2^128 just from half a spacing below it. At `q = 104` the
significand 2^24 is even, so the half goes up. -/
theorem IsRounded.overflow_iff (h : IsRounded y q f) :
    (2 : ℚ) ^ 128 ≤ f * (2 : ℚ) ^ q ↔ (2 : ℚ) ^ 128 - 2 ^ 103 ≤ y := by
  obtain ⟨-, hhi, hlo⟩ := h.bounds
  obtain ⟨hfhi, hflo⟩ := h.significand_bounds
  rcases lt_trichotomy q 104 with hlt | rfl | hgt
  · have hpow : (2 : ℚ) ^ q ≤ 2 ^ (103 : ℤ) := zpow_le_zpow_right₀ one_le_two (Int.le_of_lt_add_one hlt)
    have hgap : (2 : ℚ) ^ 24 * 2 ^ (103 : ℤ) < 2 ^ 128 - 2 ^ 103 := by norm_num
    exact iff_of_false (not_le.2 (by linarith)) (not_le.2 (by linarith))
  · have hpos : (0 : ℚ) < 2 ^ (104 : ℤ) := by positivity
    have hsig : (2 : ℚ) ^ 128 ≤ f * 2 ^ (104 : ℤ) ↔ 2 ^ 24 ≤ f := by
      rw [show (2 : ℚ) ^ 128 = 2 ^ 24 * 2 ^ (104 : ℤ) by norm_num, mul_le_mul_iff_left₀ hpos]
      exact_mod_cast Iff.rfl
    rw [hsig, h.isNearestEven.even_le_iff (by decide), le_div_iff₀ hpos]
    norm_num
  · have hpow : (2 : ℚ) ^ (105 : ℤ) ≤ 2 ^ q := zpow_le_zpow_right₀ one_le_two hgt
    have htop : (2 : ℚ) ^ 23 * 2 ^ (105 : ℤ) = 2 ^ 128 := by norm_num
    have hy := hlo (by omega)
    have hf := hflo (by omega)
    exact iff_of_true (by linarith) (by linarith)

/-- No whole multiple of the spacing is nearer than the rounded magnitude. -/
theorem IsRounded.abs_sub_le_natCast (h : IsRounded y q f) (t : ℕ) :
    |f * (2 : ℚ) ^ q - y| ≤ |t * (2 : ℚ) ^ q - y| := by
  have hpos : (0 : ℚ) < 2 ^ q := by positivity
  have hscale : ∀ g : ℕ, |g * (2 : ℚ) ^ q - y| = |g - y / 2 ^ q| * 2 ^ q := fun g => by
    rw [← abs_of_pos hpos, ← abs_mul, abs_of_pos hpos, sub_mul, div_mul_cancel₀ _ hpos.ne']
  rw [hscale, hscale]
  exact mul_le_mul_of_nonneg_right (h.isNearestEven.abs_sub_le_abs_sub t) hpos.le

/-- No finite magnitude is nearer than the rounded one: it is a whole multiple of the spacing, or at most `2^23 * 2^q`,
which is a whole multiple not above `y`. -/
theorem IsRounded.abs_sub_le_of_isFinite (h : IsRounded y q f) {v : Word} (hv : isFinite v = true) :
    |f * (2 : ℚ) ^ q - y| ≤ |(|val v|) - y| := by
  obtain ⟨-, -, hlo⟩ := h.bounds
  obtain ⟨g, j, hg, hj, hval⟩ := exists_abs_val_eq hv
  rcases le_or_gt q j with hqj | hqj
  · have hmul : |val v| = (g * 2 ^ (j - q).toNat : ℕ) * (2 : ℚ) ^ q := by
      rw [hval, Nat.cast_mul, Nat.cast_pow, Nat.cast_ofNat, ← zpow_natCast, Int.toNat_of_nonneg (by omega), mul_assoc,
        ← zpow_add₀ two_ne_zero, sub_add_cancel]
    rw [hmul]
    exact h.abs_sub_le_natCast _
  · have hy := hlo (by omega)
    have hle : |val v| ≤ (2 ^ 23 : ℕ) * (2 : ℚ) ^ q := by
      have hg' : (g : ℚ) ≤ 2 ^ 24 := by exact_mod_cast hg.le
      have hpow : (2 : ℚ) ^ j ≤ 2 ^ (q - 1) := zpow_le_zpow_right₀ one_le_two (by omega)
      calc |val v| = g * (2 : ℚ) ^ j := hval
        _ ≤ 2 ^ 24 * 2 ^ (q - 1) := mul_le_mul hg' hpow (by positivity) (by positivity)
        _ = (2 ^ 23 : ℕ) * (2 : ℚ) ^ q := by rw [zpow_sub_one₀ two_ne_zero]; push_cast; ring
    calc |f * (2 : ℚ) ^ q - y| ≤ |(2 ^ 23 : ℕ) * (2 : ℚ) ^ q - y| := h.abs_sub_le_natCast _
      _ = y - (2 ^ 23 : ℕ) * (2 : ℚ) ^ q := by rw [abs_sub_comm, abs_of_nonneg (by push_cast; linarith)]
      _ ≤ y - |val v| := by linarith
      _ ≤ |(|val v|) - y| := by rw [abs_sub_comm]; exact le_abs_self _

end

/-! ## R92's result -/

/-- `w` is R92's word of sign `neg` for the rounded magnitude `m`: an infinity, or the finite word of that magnitude, a
zero included. -/
def IsResult (neg : Bool) (m : ℚ) (w : Word) : Prop :=
  ((2 : ℚ) ^ 128 ≤ m ∧ w = infWord neg) ∨ (m < (2 : ℚ) ^ 128 ∧ isFinite w = true ∧ signBit w = neg ∧ |val w| = m)

section
variable {neg : Bool} {m : ℚ} {w : Word}

theorem IsResult.eq_infWord_iff (h : IsResult neg m w) : w = infWord neg ↔ (2 : ℚ) ^ 128 ≤ m := by
  rcases h with ⟨hmax, rfl⟩ | ⟨hmax, hfin, -⟩
  · exact iff_of_true rfl hmax
  · refine iff_of_false (fun hw => ?_) (not_le.2 hmax)
    have := isInf_of_isFinite hfin
    rw [hw, isInf_infWord] at this
    exact absurd this (by decide)

theorem IsResult.eq_zeroWord_iff (h : IsResult neg m w) : w = zeroWord neg ↔ m = 0 := by
  rcases h with ⟨hmax, rfl⟩ | ⟨-, -, rfl, rfl⟩
  · refine iff_of_false (fun hw => ?_) (fun h0 => ?_)
    · cases neg <;> exact absurd hw (by decide)
    · rw [h0] at hmax
      norm_num at hmax
  · rw [abs_val, div_eq_zero_iff, or_iff_left (by positivity), Nat.cast_eq_zero, ← isZero_iff_magUnits]
    exact ⟨fun hw => by rw [hw, isZero_zeroWord], fun hz => eq_zeroWord_of_magUnits ((isZero_iff_magUnits w).1 hz)⟩

/-- The rule itself (R92), from its `q`, `f` and result. -/
theorem roundsTo_of_isRounded {y : ℚ} {q : ℤ} {f : ℕ} (hy : 0 < y) (h : IsRounded y q f)
    (hw : IsResult neg (f * (2 : ℚ) ^ q) w) : RoundsTo ((if neg then -1 else 1) * y) w := by
  obtain ⟨e, hlo, hhi, hq, hnear⟩ := h
  have hneg := signed_lt_zero_iff neg hy
  have hsign : decide ((if neg then -1 else 1) * y < 0) = neg := by rw [Bool.eq_iff_iff, decide_eq_true_iff, hneg]
  refine ⟨e, q, f, ?_⟩
  rw [abs_signed, abs_of_pos hy, hsign]
  refine ⟨hlo, hhi, hq, hnear, ?_⟩
  rcases hw with ⟨hmax, hinf⟩ | ⟨hmax, hfin, rfl, hval⟩
  · rwa [if_pos (by exact_mod_cast hmax)]
  · rw [if_neg (not_le.2 (by exact_mod_cast hmax))]
    split
    · next h0 =>
      rw [h0, Nat.cast_zero, zero_mul, abs_val, div_eq_zero_iff] at hval
      exact eq_zeroWord_of_magUnits (by simpa using hval)
    · refine ⟨hfin, ?_⟩
      rw [← hval, abs_val, val_eq_magUnits, if_congr hneg rfl rfl]

end

/-- The model's rounding computes R92's `q`, `f` and result. -/
theorem rnd_isRounded (neg : Bool) {num den : ℕ} (hnum : 0 < num) (hden : 0 < den) :
    ∃ q f, IsRounded ((num : ℚ) / den) q f ∧ IsResult neg (f * (2 : ℚ) ^ q) (rnd neg num den) := by
  have hy : (((num * 2 ^ 149 : ℕ) : ℚ)) / den / 2 ^ 149 = num / den := by
    rw [Nat.cast_mul, Nat.cast_pow, Nat.cast_ofNat, div_right_comm, mul_div_cancel_right₀ _ (by positivity)]
  obtain ⟨e, hlo, hhi, hq⟩ := exists_exponent (n := num * 2 ^ 149) (by positivity) hden
  rw [hy] at hlo hhi
  refine ⟨spacing (num * 2 ^ 149) den - 149, nearestEven (num * 2 ^ 149) (den * 2 ^ spacing (num * 2 ^ 149) den),
    ⟨e, hlo, hhi, hq, ?_⟩, ?_⟩
  · rw [← hy, zpow_sub_unit, zpow_natCast, div_div_div_cancel_right₀ (by positivity), div_div]
    exact_mod_cast isNearestEven_nearestEven (num * 2 ^ 149) (Nat.mul_pos hden (Nat.two_pow_pos _))
  · have hspec := rnd_spec neg num hden
    simp only at hspec
    generalize nearestEven (num * 2 ^ 149) (den * 2 ^ spacing (num * 2 ^ 149) den) = f at *
    generalize spacing (num * 2 ^ 149) den = k at *
    have hval : (f : ℚ) * 2 ^ ((k : ℤ) - 149) = ((f * 2 ^ k : ℕ) : ℚ) / 2 ^ 149 := by
      rw [zpow_sub_unit, zpow_natCast, Nat.cast_mul, Nat.cast_pow, Nat.cast_ofNat, mul_div_assoc]
    rw [IsResult, hval, le_div_iff₀ (by positivity), div_lt_iff₀ (by positivity), mul_comm ((2 : ℚ) ^ 128)]
    rcases hspec with ⟨hmax, hw⟩ | ⟨hmax, hfin, hsign, hmag⟩
    · exact .inl ⟨by exact_mod_cast hmax, hw⟩
    · exact .inr ⟨by exact_mod_cast hmax, hfin, hsign, by rw [abs_val, hmag]⟩

theorem roundsTo_rnd (neg : Bool) {num den : ℕ} (hnum : 0 < num) (hden : 0 < den) :
    RoundsTo ((if neg then -1 else 1) * ((num : ℚ) / den)) (rnd neg num den) := by
  obtain ⟨q, f, hf, hw⟩ := rnd_isRounded neg hnum hden
  exact roundsTo_of_isRounded (by positivity) hf hw

end Sys2Proof.Safety
end

section
/-! PROOFS. The fused multiply-add, its three derived functions and division round the exact rational result once
(41_fusedstep.md R93 to R95). -/

namespace Sys2Proof.Machine

open Sys2Proof.Safety

/-! ## Zeros (R15) -/

theorem isZero_iff_valUnits (w : Word) : isZero w = true ↔ valUnits w = 0 := by
  rw [isZero_iff_magUnits, ← natAbs_valUnits, Int.natAbs_eq_zero]

theorem isZero_iff_val (w : Word) : isZero w = true ↔ val w = 0 := by
  rw [isZero_iff_valUnits, val_eq_valUnits, div_eq_zero_iff, or_iff_left (by positivity), Int.cast_eq_zero]

theorem val_mul_eq_zero_iff (a b : Word) : val a * val b = 0 ↔ valUnits a * valUnits b = 0 := by
  rw [mul_eq_zero, mul_eq_zero, ← isZero_iff_val, ← isZero_iff_val, isZero_iff_valUnits, isZero_iff_valUnits]

/-- A zero word is told by its value and its sign. -/
theorem eq_zeroWord_iff (w : Word) (s : Bool) : w = zeroWord s ↔ val w = 0 ∧ signBit w = s := by
  rw [← isZero_iff_val]
  constructor
  · rintro rfl
    exact ⟨isZero_zeroWord s, signBit_zeroWord s⟩
  · rintro ⟨hzero, rfl⟩
    exact eq_zeroWord_of_magUnits ((isZero_iff_magUnits w).1 hzero)

theorem val_negZero : val negZero = 0 := (isZero_iff_val negZero).1 rfl

/-- The sum of two zeros is `-0` for two negative ones only. -/
theorem zeroSum_eq (s t : Bool) : zeroSum s t = if s = true ∧ t = true then 0x80000000#32 else 0#32 := by
  cases s <;> cases t <;> rfl

theorem zeroSum_true (s : Bool) : zeroSum s true = zeroWord s := by
  cases s <;> rfl

/-! ## The fused multiply-add (R93) -/

/-- An integer quotient is rounded under the integer's own sign. -/
theorem roundsTo_rnd_int {z : ℤ} {d : ℕ} (hz : z ≠ 0) (hd : 0 < d) :
    RoundsTo ((z : ℚ) / d) (rnd (decide (z < 0)) z.natAbs d) := by
  have hsigned : (z : ℚ) = (if decide (z < 0) then -1 else 1) * (z.natAbs : ℚ) := by
    rcases lt_or_gt_of_ne hz with h | h
    · rw [if_pos (decide_eq_true h), Nat.cast_natAbs, abs_of_neg h, Int.cast_neg, neg_mul, one_mul, neg_neg]
    · rw [if_neg (by simpa using h.le), Nat.cast_natAbs, abs_of_pos h, one_mul]
  have hround := roundsTo_rnd (decide (z < 0)) (Int.natAbs_pos.2 hz) hd
  rwa [← mul_div_assoc, ← hsigned] at hround

/-- The exact value of the fused step is a whole number of units of 2^-298. -/
theorem val_mul_add_val (a b c : Word) : val a * val b + val c =
    ((valUnits a * valUnits b + valUnits c * 2 ^ 149 : ℤ) : ℚ) / (2 ^ 149 * 2 ^ 149 : ℕ) := by
  rw [val_eq_valUnits, val_eq_valUnits, val_eq_valUnits, Int.cast_add, Int.cast_mul, Int.cast_mul, Int.cast_pow,
    Int.cast_ofNat, Nat.cast_mul, Nat.cast_pow, Nat.cast_ofNat, add_div, div_mul_div_comm,
    mul_div_mul_right _ _ (by positivity)]

/-- R93 case 5, a nonzero value: it is rounded once. -/
theorem roundsTo_fmaFinite {a b c : Word} (h : val a * val b + val c ≠ 0) :
    RoundsTo (val a * val b + val c) (fmaFinite a b c) := by
  rw [val_mul_add_val] at h ⊢
  have hz : valUnits a * valUnits b + valUnits c * 2 ^ 149 ≠ 0 := fun hz => h (by rw [hz, Int.cast_zero, zero_div])
  rw [fmaFinite, if_pos hz]
  exact roundsTo_rnd_int hz (by positivity)

/-- R93 case 5, an exact zero: the signs decide when product and addend are zeros, and it is `+0` when they cancel. -/
theorem fmaFinite_of_eq_zero {a b c : Word} (h : val a * val b + val c = 0) :
    fmaFinite a b c = if val a * val b = 0 then zeroSum (signBit a ^^ signBit b) (signBit c) else 0#32 := by
  have hz : valUnits a * valUnits b + valUnits c * 2 ^ 149 = 0 := by
    rwa [val_mul_add_val, div_eq_zero_iff, or_iff_left (by positivity), Int.cast_eq_zero] at h
  rw [fmaFinite, if_neg (not_not.2 hz), if_congr (val_mul_eq_zero_iff a b) rfl rfl]
  by_cases hp : valUnits a * valUnits b = 0
  · rw [if_pos hp, zeroSum]
    by_cases hs : (signBit a ^^ signBit b) = signBit c
    · rw [if_pos ⟨hp, hs⟩, if_pos hs, hs]
    · rw [if_neg (fun hc => hs hc.2), if_neg hs]
  · rw [if_neg (fun hc => hp hc.1), if_neg hp]
    rfl

/-! ## Sum, difference and product (R94) -/

section
variable {a b c x y : Word} {v : ℚ} (nan : Word) (ha : isFinite a = true) (hb : isFinite b = true)
  (hc : isFinite c = true) (hx : isFinite x = true) (hy : isFinite y = true)

include ha hb hc in
/-- The fused step on finite operands of exact value `v`, not zero. -/
theorem roundsTo_fma (hv : val a * val b + val c = v) (h : v ≠ 0) : RoundsTo v (fma nan a b c) := by
  subst hv
  rw [fma_of_isFinite nan ha hb hc]
  exact roundsTo_fmaFinite h

include ha hb hc in
/-- The fused step on finite operands of exact value zero: `-0` when both terms are negative zeros, else `+0`. -/
theorem fma_of_eq_zero (h : val a * val b + val c = 0) : fma nan a b c =
    if val a * val b = 0 ∧ (signBit a ^^ signBit b) = true ∧ signBit c = true then 0x80000000#32 else 0#32 := by
  rw [fma_of_isFinite nan ha hb hc, fmaFinite_of_eq_zero h, zeroSum_eq, ← ite_and]

include hx hy in
theorem fadd_of_eq_zero (h : val x + val y = 0) :
    fadd nan x y = if x = 0x80000000#32 ∧ y = 0x80000000#32 then 0x80000000#32 else 0#32 := by
  have hsum : val x * val one + val y = 0 := by rw [val_one, mul_one, h]
  have hzeros : val x = 0 → val y = 0 := fun hx0 => by rwa [hx0, zero_add] at h
  have hboth : (val x * val one = 0 ∧ (signBit x ^^ signBit one) = true ∧ signBit y = true) ↔
      x = zeroWord true ∧ y = zeroWord true := by
    rw [val_one, mul_one, show signBit one = false from rfl, Bool.xor_false, eq_zeroWord_iff, eq_zeroWord_iff]
    tauto
  rw [fadd, fma_of_eq_zero nan hx rfl hy hsum, if_congr hboth rfl rfl]
  rfl

include hx hy in
theorem fsub_of_eq_zero (h : val x - val y = 0) :
    fsub nan x y = if x = 0x80000000#32 ∧ y = 0#32 then 0x80000000#32 else 0#32 := by
  have hdiff : val y * val negOne + val x = 0 := by rw [val_negOne, ← h]; ring
  have hzeros : val y = 0 → val x = 0 := fun hy0 => by rwa [hy0, sub_zero] at h
  have hboth : (val y * val negOne = 0 ∧ (signBit y ^^ signBit negOne) = true ∧ signBit x = true) ↔
      x = zeroWord true ∧ y = zeroWord false := by
    rw [val_negOne, mul_neg_one, neg_eq_zero, show signBit negOne = true from rfl, Bool.xor_true, Bool.not_eq_true',
      eq_zeroWord_iff, eq_zeroWord_iff]
    tauto
  rw [fsub, fma_of_eq_zero nan hy rfl hx hdiff, if_congr hboth rfl rfl]
  rfl

include hx hy in
theorem fmul_of_eq_zero (h : val x * val y = 0) : fmul nan x y = zeroWord (signBit x ^^ signBit y) := by
  have hprod : val x * val y + val negZero = 0 := by rw [val_negZero, add_zero, h]
  rw [fmul, fma_of_isFinite nan hx hy rfl, fmaFinite_of_eq_zero hprod, if_pos h]
  exact zeroSum_true _

end

/-! ## Division (R95) -/

/-- The exact quotient, by signs and magnitudes. -/
theorem val_div_val (x y : Word) : val x / val y =
    (if signBit x ^^ signBit y then -1 else 1) * ((magUnits x : ℚ) / magUnits y) := by
  rw [val_eq_magUnits x, val_eq_magUnits y, mul_div_mul_comm, div_div_div_cancel_right₀ (by positivity)]
  cases signBit x <;> cases signBit y <;> norm_num

theorem magUnits_pos {w : Word} (h : ¬ isZero w = true) : 0 < magUnits w :=
  Nat.pos_of_ne_zero fun h0 => h ((isZero_iff_magUnits w).2 h0)

/-- R95 case 6: the exact quotient is rounded once. -/
theorem roundsTo_quotient {x y : Word} (hx : ¬ isZero x = true) (hy : ¬ isZero y = true) :
    RoundsTo (val x / val y) (rnd (signBit x ^^ signBit y) (magUnits x) (magUnits y)) := by
  rw [val_div_val]
  exact roundsTo_rnd _ (magUnits_pos hx) (magUnits_pos hy)

end Sys2Proof.Machine
end

section
/-! PROOFS. Rounding to an integer, with ties away from zero and with ties to even (41_fusedstep.md R96, R97), and the
sign operations (R98, R99; 42_signtransfer.md R120). -/

namespace Sys2Proof.Machine

open Sys2Proof.Safety

/-! ## Infinities and zeros (R96, R97) -/

section
variable (nan : Word) {x : Word}

theorem ffloor_of_isInf_or_isZero (hn : ¬ isNaN x = true) (h : isInf x = true ∨ isZero x = true) :
    ffloor nan x = x := by
  rw [ffloor, if_neg hn, if_pos (by rwa [Bool.or_eq_true])]

theorem fround_of_isInf_or_isZero (hn : ¬ isNaN x = true) (h : isInf x = true ∨ isZero x = true) :
    fround nan x = x := by
  rw [fround, if_neg hn, if_pos (by rwa [Bool.or_eq_true])]

/-- What is left besides NaNs, infinities and zeros is finite. -/
theorem isFinite_of_others (hn : ¬ isNaN x = true) (h : ¬ (isInf x = true ∨ isZero x = true)) : isFinite x = true := by
  obtain ⟨hinf, -⟩ := not_or.1 h
  exact isFinite_of_not_isNaN_of_not_isInf (Bool.eq_false_iff.2 hn) (Bool.eq_false_iff.2 hinf)

/-! ## Finite words, both tie rules (R97) -/

theorem enc_signBit_zero (hz : isZero x = true) : enc (signBit x) 0 = x := by
  rw [← (isZero_iff_magUnits x).1 hz, enc_magUnits]

/-- On finite words, zeros included, the rounded magnitude is encoded under the operand's sign. -/
theorem fround_of_isFinite (h : isFinite x = true) :
    fround nan x = enc (signBit x) ((magUnits x + 2 ^ 148) / 2 ^ 149 * 2 ^ 149) := by
  rw [fround, isNaN_of_isFinite h, isInf_of_isFinite h, if_neg Bool.false_ne_true, Bool.false_or]
  split
  · next hz =>
    rw [(isZero_iff_magUnits x).1 hz]
    exact (enc_signBit_zero hz).symm
  · rfl

/-- The same with ties to even. -/
theorem froundEven_of_isFinite (h : isFinite x = true) :
    froundEven nan x = enc (signBit x) (nearestEven (magUnits x) (2 ^ 149) * 2 ^ 149) := by
  rw [froundEven, isNaN_of_isFinite h, isInf_of_isFinite h, if_neg Bool.false_ne_true, Bool.false_or]
  split
  · next hz =>
    rw [(isZero_iff_magUnits x).1 hz]
    exact (enc_signBit_zero hz).symm
  · rfl

/-- One half is 2^148 units. -/
theorem half_eq_units : (1 / 2 : ℚ) = 2 ^ 148 / 2 ^ 149 := by norm_num

theorem floor_abs_val_add_half (x : Word) : ⌊|val x| + 1 / 2⌋ = ((magUnits x + 2 ^ 148) / 2 ^ 149 : ℕ) := by
  have hsum : |val x| + 1 / 2 = ((magUnits x + 2 ^ 148 : ℕ) : ℚ) / (2 ^ 149 : ℕ) := by
    rw [abs_val, half_eq_units, ← add_div, Nat.cast_add, Nat.cast_pow, Nat.cast_pow, Nat.cast_ofNat]
  rw [hsum, ← Nat.floor_div_eq_div (K := ℚ), Int.natCast_floor_eq_floor (by positivity)]

/-- R97 on finite words, zeros included: magnitude `floor(|val(x)| + 1/2)`, with the operand's sign bit. -/
theorem fround_spec (h : isFinite x = true) : isFinite (fround nan x) = true ∧
    |val (fround nan x)| = ((⌊|val x| + 1 / 2⌋ : ℤ) : ℚ) ∧ signBit (fround nan x) = signBit x := by
  obtain ⟨hfin, hmag⟩ := enc_representable (signBit x) (representable_round h)
  rw [fround_of_isFinite nan h]
  refine ⟨hfin, ?_, signBit_enc _ _⟩
  rw [abs_val, hmag, floor_abs_val_add_half, Nat.cast_mul, Nat.cast_pow, Nat.cast_ofNat,
    mul_div_cancel_right₀ _ (by positivity), Int.cast_natCast]

end

/-! ## Halves (R97) -/

theorem abs_val_eq_half_iff (x : Word) (n : ℕ) : |val x| = n + 1 / 2 ↔ magUnits x = n * 2 ^ 149 + 2 ^ 148 := by
  have hhalf : (n : ℚ) + 1 / 2 = ((n * 2 ^ 149 + 2 ^ 148 : ℕ) : ℚ) / 2 ^ 149 := by
    rw [half_eq_units, Nat.cast_add, add_div, Nat.cast_mul, Nat.cast_pow, Nat.cast_pow, Nat.cast_ofNat,
      mul_div_cancel_right₀ _ (by positivity)]
  rw [abs_val, hhalf, div_left_inj' (by positivity), Nat.cast_inj]

theorem nearestEven_of_not_half {u : ℕ} (h : ∀ n, u ≠ n * 2 ^ 149 + 2 ^ 148) :
    nearestEven u (2 ^ 149) = (u + 2 ^ 148) / 2 ^ 149 := by
  have := h (u / 2 ^ 149)
  unfold nearestEven
  split_ifs <;> omega

theorem nearestEven_half (n : ℕ) : nearestEven (n * 2 ^ 149 + 2 ^ 148) (2 ^ 149) = if n % 2 = 0 then n else n + 1 := by
  have hdiv : (n * 2 ^ 149 + 2 ^ 148) / 2 ^ 149 = n := by omega
  have hmod : (n * 2 ^ 149 + 2 ^ 148) % 2 ^ 149 = 2 ^ 148 := by omega
  rw [nearestEven, hdiv, hmod, if_neg (by omega), if_neg (by omega)]

/-- The integer part of a finite word's magnitude is representable: it is the floor of the word's absolute value. -/
theorem representable_truncate {x : Word} (h : isFinite x = true) : Representable (magUnits x / 2 ^ 149 * 2 ^ 149) := by
  have hfin : isFinite (fabs x) = true := by rwa [isFinite_iff, expField_fabs, ← isFinite_iff]
  have hval : valUnits (fabs x) = magUnits x := by rw [valUnits, signBit_fabs, if_neg Bool.false_ne_true, magUnits_fabs]
  have hfloor := representable_floor hfin
  rw [hval] at hfloor
  exact_mod_cast hfloor

/-- R91: no two representable magnitudes share a word. -/
theorem enc_inj {neg : Bool} {u v : ℕ} (hu : Representable u) (hv : Representable v) :
    enc neg u = enc neg v ↔ u = v := by
  refine ⟨fun h => ?_, fun h => by rw [h]⟩
  rw [← (enc_representable neg hu).2, h, (enc_representable neg hv).2]

/-! ## Bit 31 (R98, R99, R120) -/

/-- R98 as arithmetic. -/
theorem toNat_fabs (x : Word) : (fabs x).toNat = x.toNat % 2 ^ 31 := by
  rw [fabs, BitVec.toNat_and]
  exact Nat.and_two_pow_sub_one_eq_mod x.toNat 31

@[simp] theorem fabs_fneg (x : Word) : fabs (fneg x) = fabs x := word_ext (by simp) (by simp) (by simp)

theorem toNat_fneg_mod (x : Word) : (fneg x).toNat % 2 ^ 31 = x.toNat % 2 ^ 31 := by
  rw [← toNat_fabs, fabs_fneg, toNat_fabs]

theorem and_signMask (y : Word) : y &&& 0x80000000#32 = if signBit y then 0x80000000#32 else 0#32 := by
  apply BitVec.eq_of_getLsbD_eq
  intro i hi
  rw [BitVec.getLsbD_and, getLsbD_signMask, signBit_eq_getLsbD]
  by_cases h : i = 31
  · subst h
    cases y.getLsbD 31 <;> rfl
  · cases y.getLsbD 31 <;> simp [h, getLsbD_signMask]

/-- R120: the sign bit of `y` says whether `x` is negated. -/
theorem mulsign_eq (x y : Word) : mulsign x y = if signBit y then fneg x else x := by
  rw [mulsign, and_signMask]
  cases signBit y
  · exact BitVec.xor_zero
  · rfl

end Sys2Proof.Machine
end

section
/-! PROOFS. The statements on the one rounding and on FusedStep and SignTransfer (41_fusedstep.md R92 to R108;
42_signtransfer.md R120, R121). -/

namespace Sys2Proof.Proofs

open Sys2Proof.Machine Sys2Proof.Safety

/-- Settles O20: the model's spacing and nearest integer are R92's `q` and `f`, and its word is R92's result. -/
theorem roundingFollowsItsRule : Obligations.RoundingFollowsItsRule :=
  fun neg _ _ hnum hden => roundsTo_rnd neg hnum hden

/-- Settles O21, from the thresholds and the nearness of R92's rounded magnitude. -/
theorem roundingIsNearestWithItsThresholds : Obligations.RoundingIsNearestWithItsThresholds := by
  intro neg num den hnum hden x w
  obtain ⟨q, f, hf, hw⟩ := rnd_isRounded neg hnum hden
  have habs : |x| = (num : ℚ) / den := by rw [abs_signed, abs_of_pos (by positivity)]
  rw [habs]
  refine ⟨hw.eq_infWord_iff.trans hf.overflow_iff, ?_, fun hinf => ?_⟩
  · rw [hw.eq_zeroWord_iff, ← hf.eq_zero_iff, mul_eq_zero, or_iff_left (by positivity), Nat.cast_eq_zero]
  · rcases hw with ⟨-, hw⟩ | ⟨-, hfin, hsign, hval⟩
    · exact absurd hw hinf
    · refine ⟨hfin, fun v hv => ?_⟩
      calc |val w - x| = |f * (2 : ℚ) ^ q - num / den| := by
            rw [val_eq_abs w, hval, hsign, ← mul_sub, abs_signed]
        _ ≤ |(|val v|) - num / den| := hf.abs_sub_le_of_isFinite hv
        _ ≤ |val v - x| := habs ▸ abs_abs_sub_abs_le_abs_sub _ _

/-- Settles O22: the cases of R93 are those of `fma` in their order, and the fifth is `fmaFinite`. -/
theorem fmaFollowsTheCasesOfItsRule : Obligations.FmaFollowsTheCasesOfItsRule := by
  refine ⟨rfl, fun s => ⟨Config.cfg_valid.isQuietNaN_nanOf _ _,
    fma (nanOf Config.cfg .fma [s.a, s.b, s.c]) s.a s.b s.c, exec_of_transaction rfl, ?_⟩⟩
  simp only [fma, Bool.or_eq_true, Bool.and_eq_true, bne_iff_ne, or_assoc]
  split_ifs with hnan hinvalid hinf hopposite hinfc hsum hprod
  · rfl
  · rfl
  · rfl
  · rfl
  · rfl
  · exact roundsTo_fmaFinite hsum
  · rw [fmaFinite_of_eq_zero (not_not.1 hsum), if_pos hprod]
  · rw [fmaFinite_of_eq_zero (not_not.1 hsum), if_neg hprod]

/-- Settles O23: each function is the fused step whose exact value is the sum, the difference or the product. -/
theorem sumDifferenceProductAreIeee : Obligations.SumDifferenceProductAreIeee := by
  intro nan x y hx hy
  have hadd : val x * val one + val y = val x + val y := by rw [val_one, mul_one]
  have hsub : val y * val negOne + val x = val x - val y := by rw [val_negOne]; ring
  have hmul : val x * val y + val negZero = val x * val y := by rw [val_negZero, add_zero]
  exact ⟨roundsTo_fma nan hx rfl hy hadd, fadd_of_eq_zero nan hx hy, roundsTo_fma nan hy rfl hx hsub,
    fsub_of_eq_zero nan hx hy, roundsTo_fma nan hx hy rfl hmul, fmul_of_eq_zero nan hx hy⟩

/-- Settles O25: the cases of R95 are those of `fdiv` in their order, and the last divides two nonzero magnitudes. -/
theorem divFollowsTheCasesOfItsRule : Obligations.DivFollowsTheCasesOfItsRule := by
  refine ⟨rfl, fun s => ⟨fdiv (nanOf Config.cfg .div [s.a, s.b]) s.a s.b, exec_of_transaction rfl, ?_⟩⟩
  simp only [fdiv, Bool.or_eq_true]
  split_ifs with hnan hinfa hinfb hinfb hzerob hzeroa hzeroa
  · rfl
  · rfl
  · rfl
  · rfl
  · rfl
  · rfl
  · rfl
  · exact roundsTo_quotient hzeroa hzerob

/-- Settles O26: `ffloor` is exact on every finite word. -/
theorem floorIsTheIntegerBelow : Obligations.FloorIsTheIntegerBelow := by
  refine ⟨rfl, fun s => ⟨ffloor (nanOf Config.cfg .floor [s.a]) s.a, exec_of_transaction rfl, ?_⟩⟩
  split_ifs with hnan hsame
  · exact ffloor_of_isNaN _ hnan
  · exact ffloor_of_isInf_or_isZero _ hnan hsame
  · exact ffloor_of_isFinite _ (isFinite_of_others hnan hsame)

/-- Settles O27: `fround` is exact on every finite word. -/
theorem roundIsTheNearestIntegerTiesAway : Obligations.RoundIsTheNearestIntegerTiesAway := by
  refine ⟨rfl, fun s => ⟨fround (nanOf Config.cfg .round [s.a]) s.a, exec_of_transaction rfl, ?_⟩⟩
  split_ifs with hnan hsame
  · exact fround_of_isNaN _ hnan
  · exact fround_of_isInf_or_isZero _ hnan hsame
  · exact fround_spec _ (isFinite_of_others hnan hsame)

/-- Settles O28: both rules encode an integer; apart from halves it is the same one, and on `n + 1/2` the integers are
`n + 1` and the even one of `n` and `n + 1`. -/
theorem tieRuleMattersOnlyAtHalves : Obligations.TieRuleMattersOnlyAtHalves := by
  intro nan x hx
  simp only [ne_eq, abs_val_eq_half_iff, froundEven_of_isFinite nan hx, fround_of_isFinite nan hx]
  refine ⟨fun hne => by rw [nearestEven_of_not_half hne], fun n hhalf => ?_⟩
  have hdown : magUnits x / 2 ^ 149 = n := by omega
  have hup : (magUnits x + 2 ^ 148) / 2 ^ 149 = n + 1 := by omega
  rw [hup, hhalf, nearestEven_half]
  rcases Nat.mod_two_eq_zero_or_one n with heven | hodd
  · rw [if_pos heven, enc_inj (hdown ▸ representable_truncate hx) (hup ▸ representable_round hx)]
    omega
  · rw [if_neg (by omega)]
    exact iff_of_true rfl hodd

/-- Settles O29: FABS keeps the word modulo 2^31, and MULSIGN negates or does not. -/
theorem signOperationsMoveOnlyBitThirtyOne : Obligations.SignOperationsMoveOnlyBitThirtyOne := by
  refine ⟨rfl, rfl, fun s => ⟨fabs s.a, exec_of_transaction rfl, toNat_fabs s.a⟩,
    fun s => ⟨mulsign s.a s.b, exec_of_transaction rfl, ?_⟩, fun x => ⟨toNat_fneg_mod x, signBit_fneg x⟩⟩
  rw [mulsign_eq]
  cases signBit s.b
  · exact ⟨rfl, (Bool.xor_false _).symm⟩
  · exact ⟨toNat_fneg_mod s.a, (signBit_fneg s.a).trans (Bool.xor_true _).symm⟩

/-- Settles O24: no NaN is met, so the NaN word is any word; the rounded product loses the 2^-46 that the fused step
keeps. -/
theorem singleRoundingIsRequired : Obligations.SingleRoundingIsRequired := by
  refine ⟨fun s ha hb hc => ?_, fun nan => ?_⟩
  · have hfused : ∀ nan, fma nan s.a s.b s.c = 0x28800000#32 := fun nan => by
      rw [ha, hb, hc, fma_of_isFinite nan rfl rfl rfl]
      decide +kernel
    exact exec_of_transaction (congrArg drive1 (hfused _))
  · have hprod : fmul nan 0x3F800001#32 0x3F800001#32 = 0x3F800002#32 := by
      rw [fmul, fma_of_isFinite nan rfl rfl rfl]
      decide +kernel
    rw [hprod, fadd, fma_of_isFinite nan rfl rfl rfl]
    decide +kernel

end Sys2Proof.Proofs
end

section
/-! PROOFS. The fused step when its exact value is that of a word, the sum and the polynomial evaluator at a zero, and
the words of powers of two (41_fusedstep.md R93 to R95; 43_log2.md R125, R129). -/

namespace Sys2Proof.Machine

open Sys2Proof.Safety

/-! ## Words told by their values (R15) -/

theorem isFinite_of_isZero {w : Word} (h : isZero w = true) : isFinite w = true := by
  simp [isFinite, h]

theorem eq_infWord_of_isInf {w : Word} (h : isInf w = true) : w = infWord (signBit w) := by
  obtain ⟨he, hm⟩ := (isInf_iff w).1 h
  rw [infWord, ← he, ← hm, joinFields_fields]

theorem valUnits_ne_zero_iff (w : Word) : valUnits w ≠ 0 ↔ val w ≠ 0 := by
  rw [ne_eq, ne_eq, ← isZero_iff_valUnits, isZero_iff_val]

/-- A nonzero value is encoded back to its word. -/
theorem enc_valUnits {w : Word} (h : valUnits w ≠ 0) : enc (decide (valUnits w < 0)) (valUnits w).natAbs = w := by
  have hsign : decide (valUnits w < 0) = signBit w := by
    cases hs : signBit w
    · exact decide_eq_false (not_lt.2 (valUnits_nonneg_of_signBit hs))
    · exact decide_eq_true (lt_of_le_of_ne (valUnits_nonpos_of_signBit hs) h)
  rw [hsign, natAbs_valUnits, enc_magUnits]

/-- No two words have the same nonzero value. -/
theorem eq_of_val_eq {v w : Word} (h : val v = val w) (h0 : val w ≠ 0) : v = w := by
  have hunits : valUnits v = valUnits w := by
    have hcast : (valUnits v : ℚ) = valUnits w := by rw [valUnits_eq_val, valUnits_eq_val, h]
    exact_mod_cast hcast
  have hne := (valUnits_ne_zero_iff w).2 h0
  rw [← enc_valUnits (hunits ▸ hne : valUnits v ≠ 0), hunits, enc_valUnits hne]

@[simp] theorem signBit_powerWord (n : ℤ) : signBit (powerWord n) = false := by
  rw [powerWord, signBit_joinFields]
  rfl

/-- The word of 2^n is the only one of its value. -/
theorem eq_powerWord {w : Word} {n : ℤ} (hlo : -126 ≤ n) (hhi : n ≤ 127) (h : val w = (2 : ℚ) ^ n) :
    w = powerWord n := by
  have hval := val_powerWord hlo hhi
  exact eq_of_val_eq (h.trans hval.symm) (by rw [hval]; positivity)

/-! ## The mantissa and the exponent of a power of two (R72, R73) -/

/-- The normalised mantissa of a power of two is 1.0. -/
theorem mant1_powerWord (n : ℤ) : mant1 (powerWord n) = one := by
  apply word_ext
  · rw [signBit_mant1, signBit_powerWord]
    rfl
  · rw [expField_mant1]
    rfl
  · rw [mantField_mant1, powerWord, mantField_joinFields]
    rfl

theorem expf_powerWord (nan : Word) {n : ℤ} (hlo : -126 ≤ n) (hhi : n ≤ 127) :
    expf nan (powerWord n) = intWord n := by
  rw [expf_eq, powerWord, expField_joinFields, toNat_biasedExponent hlo hhi, add_sub_cancel_right]

theorem isPositiveNormal_powerWord {n : ℤ} (hlo : -126 ≤ n) (hhi : n ≤ 127) :
    isPositiveNormal (powerWord n) = true := by
  rw [isPositiveNormal, signBit_powerWord, isNormal_powerWord hlo hhi]
  rfl

/-! ## The fused step on a zero product (R93, R94) -/

section
variable (nan : Word) {a b c w x y : Word}

/-- A fused step whose exact value is the nonzero value of a finite word returns that word. -/
theorem fma_of_val_eq (ha : isFinite a = true) (hb : isFinite b = true) (hc : isFinite c = true)
    (hw : isFinite w = true) (hv : val a * val b + val c = val w) (h0 : val w ≠ 0) : fma nan a b c = w := by
  have hunits : valUnits a * valUnits b + valUnits c * 2 ^ 149 = valUnits w * 2 ^ 149 := by
    rw [val_mul_add_val, div_eq_iff (by positivity), Nat.cast_mul, Nat.cast_pow, Nat.cast_ofNat, ← mul_assoc,
      ← valUnits_eq_val] at hv
    exact_mod_cast hv
  have hne := (valUnits_ne_zero_iff w).2 h0
  rw [fma_of_representable nan ha hb hc hunits hne (natAbs_valUnits w ▸ representable_magUnits hw), enc_valUnits hne]

/-- A zero factor leaves a nonzero addend as it is. -/
theorem fma_of_isZero_right (ha : isFinite a = true) (hb : isZero b = true) (hc : isFinite c = true)
    (h0 : ¬ isZero c = true) : fma nan a b c = c := by
  refine fma_of_val_eq nan ha (isFinite_of_isZero hb) hc hc ?_ fun hv => h0 ((isZero_iff_val c).2 hv)
  rw [(isZero_iff_val b).1 hb, mul_zero, zero_add]

/-- With a zero factor a finite addend gives a finite result, a zero of either sign when the addend is one. -/
theorem isFinite_fma_of_isZero_right (ha : isFinite a = true) (hb : isZero b = true) (hc : isFinite c = true) :
    isFinite (fma nan a b c) = true := by
  by_cases h0 : isZero c = true
  · have hsum : val a * val b + val c = 0 := by
      rw [(isZero_iff_val b).1 hb, (isZero_iff_val c).1 h0, mul_zero, zero_add]
    rw [fma_of_eq_zero nan ha (isFinite_of_isZero hb) hc hsum]
    split <;> rfl
  · rwa [fma_of_isZero_right nan ha hb hc h0]

/-- Adding a zero of either sign changes no finite word but `-0`. -/
theorem fadd_of_isZero_right (hx : isFinite x = true) (hy : isZero y = true) (hneg : x ≠ 0x80000000#32) :
    fadd nan x y = x := by
  have hsum : val x + val y = val x := by rw [(isZero_iff_val y).1 hy, add_zero]
  by_cases h0 : val x = 0
  · rw [fadd_of_eq_zero nan hx (isFinite_of_isZero hy) (hsum.trans h0), if_neg fun h => hneg h.1]
    have hsign : signBit x = false :=
      Bool.eq_false_iff.2 fun hs => hneg ((eq_zeroWord_iff x true).2 ⟨h0, hs⟩)
    exact ((eq_zeroWord_iff x false).2 ⟨h0, hsign⟩).symm
  · exact fma_of_val_eq nan hx rfl (isFinite_of_isZero hy) hx (by rwa [val_one, mul_one]) h0

/-- R95: a zero over anything but a zero or a NaN is a zero. -/
theorem fdiv_of_isZero_left (hx : isZero x = true) (hy : isZero y = false) (hn : isNaN y = false) :
    fdiv nan x y = zeroWord (signBit x ^^ signBit y) := by
  have hfin := isFinite_of_isZero hx
  simp [fdiv, hx, hy, hn, isNaN_of_isFinite hfin, isInf_of_isFinite hfin]

end

/-! ## The sum does not depend on the order (R94) -/

/-- R94's exact sum, in units of 2^-298, rounded once or a zero. -/
theorem fmaFinite_one_comm {x y : Word} (hx : isFinite x = true) (hy : isFinite y = true) :
    fmaFinite x one y = fmaFinite y one x := by
  have hone : valUnits one = 2 ^ 149 := by decide +kernel
  by_cases h : val x + val y = 0
  · have hleft := fadd_of_eq_zero 0#32 hx hy h
    have hright := fadd_of_eq_zero 0#32 hy hx ((add_comm _ _).trans h)
    rw [fadd, fma_of_isFinite _ hx rfl hy] at hleft
    rw [fadd, fma_of_isFinite _ hy rfl hx] at hright
    rw [hleft, hright, if_congr and_comm rfl rfl]
  · have hz : valUnits x * valUnits one + valUnits y * 2 ^ 149 ≠ 0 := by
      intro hz
      refine h ?_
      rw [← mul_one (val x), ← val_one, val_mul_add_val, hz, Int.cast_zero, zero_div]
    have hcomm : valUnits y * valUnits one + valUnits x * 2 ^ 149 =
        valUnits x * valUnits one + valUnits y * 2 ^ 149 := by rw [hone, add_comm]
    simp only [fmaFinite]
    rw [hcomm, if_pos hz, if_pos hz]

/-- R93's cases for the sum: the factor 1.0 is no NaN, no infinity and no zero, and it is positive. -/
theorem fadd_eq (nan x y : Word) : fadd nan x y =
    if isNaN x = true ∨ isNaN y = true then nan
    else if isInf x = true then (if isInf y = true ∧ signBit y ≠ signBit x then nan else infWord (signBit x))
    else if isInf y = true then y else fmaFinite x one y := by
  obtain ⟨hnan, hinf, hzero, hsign⟩ :
      isNaN one = false ∧ isInf one = false ∧ isZero one = false ∧ signBit one = false := ⟨rfl, rfl, rfl, rfl⟩
  simp [fadd, fma, hnan, hinf, hzero, hsign]

/-- R94: the sum is commutative on every two words, infinities and NaNs included. -/
theorem fadd_comm (nan x y : Word) : fadd nan x y = fadd nan y x := by
  rw [fadd_eq, fadd_eq, if_congr (or_comm (a := isNaN y = true)) rfl rfl]
  split
  · rfl
  · next hnan =>
    obtain ⟨hnx, hny⟩ := not_or.1 hnan
    by_cases hix : isInf x = true <;> by_cases hiy : isInf y = true
    · by_cases hs : signBit y = signBit x
      · simp [hix, hiy, hs]
      · simp [hix, hiy, hs, Ne.symm hs]
    · rw [if_pos hix, if_neg fun h => hiy h.1, if_neg hiy, if_pos hix]
      exact (eq_infWord_of_isInf hix).symm
    · rw [if_neg hix, if_pos hiy, if_pos hiy, if_neg fun h => hix h.1]
      exact eq_infWord_of_isInf hiy
    · rw [if_neg hix, if_neg hiy, if_neg hiy, if_neg hix]
      exact fmaFinite_one_comm (isFinite_of_not_isNaN_of_not_isInf (Bool.eq_false_iff.2 hnx) (Bool.eq_false_iff.2 hix))
        (isFinite_of_not_isNaN_of_not_isInf (Bool.eq_false_iff.2 hny) (Bool.eq_false_iff.2 hiy))

/-! ## The polynomial evaluator (R125) -/

/-- R125's chain: it starts at the last entry and takes one fused step for each entry before it, down to the first. -/
theorem horner_eq_foldl (nan t : Word) {l : List Word} (h : l ≠ []) :
    horner nan t l = (l.dropLast.reverse).foldl (fun p c => fma nan p t c) (l.getLast h) := by
  induction l with
  | nil => exact absurd rfl h
  | cons c rest ih =>
    cases rest with
    | nil => rfl
    | cons c' rest =>
      rw [horner_cons, ih (List.cons_ne_nil c' rest), List.dropLast_cons_cons, List.reverse_cons, List.foldl_append,
        List.getLast_cons_cons]
      rfl

/-- At a zero every step of the chain has a zero product, so no step leaves the finite words. -/
theorem isFinite_horner_of_isZero (nan : Word) {t : Word} (ht : isZero t = true) {l : List Word}
    (hl : l.all isFinite = true) : isFinite (horner nan t l) = true := by
  induction l with
  | nil =>
    rw [horner]
    rfl
  | cons c rest ih =>
    rw [List.all_cons, Bool.and_eq_true] at hl
    obtain ⟨hc, hrest⟩ := hl
    cases rest with
    | nil => exact hc
    | cons c' rest =>
      rw [horner_cons]
      exact isFinite_fma_of_isZero_right nan (ih hrest) ht hc

/-- At a zero of either sign the chain ends in a nonzero constant term, exactly. -/
theorem horner_of_isZero (nan : Word) {t c : Word} {rest : List Word} (ht : isZero t = true)
    (hl : (c :: rest).all isFinite = true) (h0 : isZero c = false) : horner nan t (c :: rest) = c := by
  cases rest with
  | nil => rfl
  | cons c' rest =>
    rw [List.all_cons, Bool.and_eq_true] at hl
    obtain ⟨hc, hrest⟩ := hl
    rw [horner_cons]
    exact fma_of_isZero_right nan (isFinite_horner_of_isZero nan ht hrest) ht hc (Bool.eq_false_iff.1 h0)

/-! ## The logarithm at a normalised mantissa of 1.0 (R126, R129) -/

/-- R126 at 1.0: the factor `m - 1` is `+0`, so the numerator is a zero when `P(1.0)` is finite. -/
theorem isZero_plog2n_one {k : Cfg} {nan : Word} (h : isFinite (horner nan one k.log2P) = true) :
    isZero (plog2n k nan one) = true := by
  have hfactor : fsub nan one one = zeroWord false :=
    (fsub_of_eq_zero nan rfl rfl (sub_self (val one))).trans (if_neg (by decide))
  have hprod : val (zeroWord false) * val (horner nan one k.log2P) = 0 := by
    rw [(isZero_iff_val _).1 (isZero_zeroWord false), zero_mul]
  rw [plog2n, hfactor, fmul_of_eq_zero nan (isFinite_zeroWord false) h hprod]
  exact isZero_zeroWord _

/-- The word of an integer is not `-0`. -/
theorem intWord_ne_negZero {n : ℤ} (h : n.natAbs < 2 ^ 24) : intWord n ≠ 0x80000000#32 := by
  intro hw
  have hval : (n : ℚ) = 0 := by rw [← val_intWord h, hw]; exact val_negZero
  rw [Int.cast_eq_zero.1 hval] at hw
  exact absurd hw (by decide)

/-- R129: the quotient of the two polynomials is a zero, and adding it to the exponent changes nothing. -/
theorem log2_powerWord {k : Cfg} {nan : Word} {n : ℤ} (hlo : -126 ≤ n) (hhi : n ≤ 127)
    (hP : isFinite (horner nan one k.log2P) = true) (hQ0 : isZero (horner nan one k.log2Q) = false)
    (hQn : isNaN (horner nan one k.log2Q) = false) : log2 k nan (powerWord n) = intWord n := by
  have hquot : isZero (fdiv nan (plog2n k nan one) (plog2d k nan one)) = true := by
    rw [plog2d, fdiv_of_isZero_left nan (isZero_plog2n_one hP) hQ0 hQn]
    exact isZero_zeroWord _
  simp only [log2, mant1_powerWord, expf_powerWord nan hlo hhi]
  exact fadd_of_isZero_right nan (isFinite_intWord (by omega)) hquot (intWord_ne_negZero (by omega))

end Sys2Proof.Machine
end

section
/-! PROOFS. Agreement up to the NaN word passes through the arithmetic (41_fusedstep.md R93 to R95, R100), through the
polynomial evaluator (43_log2.md R125) and through the two polynomials of the logarithm (R126, R127). -/

namespace Sys2Proof.Safety

open Sys2Proof.Machine

theorem SameOrNaN.refl (w : Word) : SameOrNaN w w := .inl rfl

theorem SameOrNaN.isNaN_eq {u v : Word} (h : SameOrNaN u v) : isNaN u = isNaN v := by
  rcases h with rfl | ⟨hu, hv⟩
  · rfl
  · rw [hu, hv]

theorem SameOrNaN.eq_of_not_isNaN {u v : Word} (h : SameOrNaN u v) (hu : ¬ isNaN u = true) : u = v :=
  h.resolve_right fun hnan => hu hnan.1

section
variable {nan nan' : Word} (hn : isNaN nan = true) (hn' : isNaN nan' = true)
include hn hn'

/-- A NaN operand gives both NaN words; on equal operands the NaN words enter on the invalid ones only. -/
theorem sameOrNaN_fma {a a' b b' c c' : Word} (ha : SameOrNaN a a') (hb : SameOrNaN b b') (hc : SameOrNaN c c') :
    SameOrNaN (fma nan a b c) (fma nan' a' b' c') := by
  by_cases h : isNaN a = true ∨ isNaN b = true ∨ isNaN c = true
  · rw [fma_of_isNaN nan h]
    rw [ha.isNaN_eq, hb.isNaN_eq, hc.isNaN_eq] at h
    rw [fma_of_isNaN nan' h]
    exact .inr ⟨hn, hn'⟩
  · obtain ⟨hna, hnb, hnc⟩ : ¬ isNaN a = true ∧ ¬ isNaN b = true ∧ ¬ isNaN c = true := by
      rwa [not_or, not_or] at h
    rw [← ha.eq_of_not_isNaN hna, ← hb.eq_of_not_isNaN hnb, ← hc.eq_of_not_isNaN hnc, fma_eq, fma_eq]
    split
    · exact .inr ⟨hn, hn'⟩
    · exact .refl _

/-- The same for the quotient. -/
theorem sameOrNaN_fdiv {x x' y y' : Word} (hx : SameOrNaN x x') (hy : SameOrNaN y y') :
    SameOrNaN (fdiv nan x y) (fdiv nan' x' y') := by
  by_cases h : isNaN x = true ∨ isNaN y = true
  · have h' := h
    rw [hx.isNaN_eq, hy.isNaN_eq] at h'
    rw [fdiv, fdiv, if_pos (by rwa [Bool.or_eq_true]), if_pos (by rwa [Bool.or_eq_true])]
    exact .inr ⟨hn, hn'⟩
  · obtain ⟨hnx, hny⟩ := not_or.1 h
    rw [← hx.eq_of_not_isNaN hnx, ← hy.eq_of_not_isNaN hny, fdiv_eq, fdiv_eq]
    split
    · exact .inr ⟨hn, hn'⟩
    · exact .refl _

/-- The chain is made of fused steps on one argument and the same coefficients. -/
theorem sameOrNaN_horner {t t' : Word} (ht : SameOrNaN t t') (l : List Word) :
    SameOrNaN (horner nan t l) (horner nan' t' l) := by
  induction l with
  | nil => exact .refl _
  | cons c rest ih =>
    cases rest with
    | nil => exact .refl _
    | cons c' rest => exact sameOrNaN_fma hn hn' ih ht (.refl c)

theorem sameOrNaN_plog2n (k : Cfg) (m : Word) : SameOrNaN (plog2n k nan m) (plog2n k nan' m) := by
  have hfactor : SameOrNaN (fsub nan m one) (fsub nan' m one) :=
    sameOrNaN_fma hn hn' (.refl one) (.refl negOne) (.refl m)
  exact sameOrNaN_fma hn hn' hfactor (sameOrNaN_horner hn hn' (.refl m) k.log2P) (.refl negZero)

theorem sameOrNaN_plog2d (k : Cfg) (m : Word) : SameOrNaN (plog2d k nan m) (plog2d k nan' m) :=
  sameOrNaN_horner hn hn' (.refl m) k.log2Q

end

end Sys2Proof.Safety
end

section
/-! PROOFS. The statements on the polynomial evaluator and the logarithm (43_log2.md R125 to R129). -/

namespace Sys2Proof.Proofs

open Sys2Proof.Machine Sys2Proof.Safety

/-- Settles O30: the chain by induction on the list; at a zero, by the last step, whose product is a zero. -/
theorem hornerIsTheDescendingChain : Obligations.HornerIsTheDescendingChain := by
  refine fun nan t l h => ⟨horner_eq_foldl nan t h, fun hfin ht h0 => ?_⟩
  cases l with
  | nil => exact absurd rfl h
  | cons c rest => exact horner_of_isZero nan ht hfin h0

/-- Settles O33: the operand is the word of its power, whose mantissa is 1.0 and whose exponent is `j`. -/
theorem logIsExactAtPowersOfTwo : Obligations.LogIsExactAtPowersOfTwo := by
  intro k p j hlo hhi _ hval nan hP hQ0 hQn
  have hdom : isPositiveNormal p.a = true := by
    rw [eq_powerWord hlo hhi hval]
    exact isPositiveNormal_powerWord hlo hhi
  have hlog : log2 k nan p.a = intWord j := by
    rw [eq_powerWord hlo hhi hval]
    exact log2_powerWord hlo hhi hP hQ0 hQn
  refine ⟨intWord j, ?_, isFinite_intWord (by omega), val_intWord (by omega), fun h0 => by rw [h0, intWord_zero]⟩
  rw [transaction_public rfl, if_pos hdom]
  exact congrArg drive1 hlog

/-- Settles O49: the exponent reader meets no NaN, the two polynomials and their quotient agree up to the NaN word, and
the last sum does not depend on the order of its terms. -/
theorem logEqualsItsHostSequence : Obligations.LogEqualsItsHostSequence := by
  intro k x hk hx m e n q t
  have hnan : ∀ i ws, isNaN (nanOf k i ws) = true := fun i ws => isNaN_of_isQuietNaN (hk.isQuietNaN_nanOf i ws)
  have hexp : ∀ nan, expf nan x = e := fun _ => (expf_eq _ x).trans (expf_eq _ x).symm
  have hquot : ∀ nan, isNaN nan = true → SameOrNaN (fdiv nan (plog2n k nan m) (plog2d k nan m)) t := fun nan h =>
    sameOrNaN_fdiv h (hnan _ _) (sameOrNaN_plog2n h (hnan _ _) k m) (sameOrNaN_plog2d h (hnan _ _) k m)
  have hlog : (transaction k .log2 ⟨x, 0#32, 0#32, 0#32⟩).r0 = log2 k (nanOf k .log2 [x]) x := by
    rw [transaction_public rfl, if_pos hx]
    rfl
  rw [hlog, log2, hexp, fadd_comm]
  exact sameOrNaN_fma (hnan _ _) (hnan _ _) (hquot _ (hnan _ _)) (.refl one) (.refl e)

/-- Settles O31: neither polynomial has a domain test. -/
theorem logPolynomialsFollowTheirSteps : Obligations.LogPolynomialsFollowTheirSteps :=
  ⟨rfl, rfl, fun _ => exec_of_transaction rfl, fun _ => exec_of_transaction rfl⟩

end Sys2Proof.Proofs
end

section
/-! PROOFS. The exponential's operand: an integer value is of no subnormal word, the floor of a word of the domain is an
integer in [-126, 127], and at an integer the fraction is a zero (00_scope.md R10, R15; 44_exp2.md R140 to R142). -/

namespace Sys2Proof

/-- R8: the coefficients of the exponential are finite and the constant term is 1.0. -/
theorem Cfg.Valid.exp2C_ok {k : Cfg} (h : k.Valid) :
    k.exp2C.all Machine.isFinite = true ∧ k.exp2C.head? = some Machine.one := by
  obtain ⟨hconst, -⟩ := h
  simp only [Cfg.constantsOk, Bool.and_eq_true, beq_iff_eq] at hconst
  obtain ⟨⟨⟨⟨-, ⟨-, hfin⟩, hhead⟩, -⟩, -⟩, -⟩ := hconst
  exact ⟨hfin, hhead⟩

end Sys2Proof

namespace Sys2Proof.Machine

/-! ## The domain (R10) -/

/-- A subnormal word is below one in magnitude, so the value of none but a zero is an integer. -/
theorem not_isSubnormal_of_integer {x : Word} {j : ℤ} (hval : val x = j) : ¬ isSubnormal x = true := by
  intro hsub
  obtain ⟨he, hm⟩ := (isSubnormal_iff x).1 hsub
  have hunits : valUnits x = j * 2 ^ 149 := by
    have hcast : (valUnits x : ℚ) = (j * 2 ^ 149 : ℤ) := by
      rw [valUnits_eq_val, hval]
      push_cast
      rfl
    exact_mod_cast hcast
  have hmag : magUnits x = j.natAbs * 2 ^ 149 := by rw [← natAbs_valUnits, hunits, natAbs_mul_unit]
  have hsmall : magUnits x < 2 ^ 23 := by
    rw [magUnits, if_pos he]
    exact (mantField x).isLt
  exact hm ((isZero_iff x).1 ((isZero_iff_magUnits x).2 (by omega))).2

theorem isZero_or_isNormal_of_integer {x : Word} {j : ℤ} (hx : isFinite x = true) (hval : val x = j) :
    isZero x = true ∨ isNormal x = true := by
  rw [isFinite, Bool.or_eq_true, Bool.or_eq_true] at hx
  exact hx.imp_left fun h => h.resolve_right (not_isSubnormal_of_integer hval)

theorem inExp2Domain_of_integer {x : Word} {j : ℤ} (hlo : -126 ≤ j) (hhi : j ≤ 127) (hx : isFinite x = true)
    (hval : val x = j) : inExp2Domain x = true := by
  refine (inExp2Domain_iff x).2 ⟨isZero_or_isNormal_of_integer hx hval, ?_, ?_⟩
  · rw [hval]
    exact_mod_cast hlo
  · rw [hval]
    exact_mod_cast Int.lt_add_one_of_le hhi

theorem isFinite_of_inExp2Domain {x : Word} (h : inExp2Domain x = true) : isFinite x = true := by
  obtain ⟨hclass, -, -⟩ := (inExp2Domain_iff x).1 h
  rcases hclass with h | h <;> simp [isFinite, h]

/-! ## The steps of the exponential (R140, R141) -/

/-- In the domain the power-of-two builder meets an integer in [-126, 127], whatever the two NaN words are. -/
theorem pow2i_ffloor (nan nan' : Word) {x : Word} (h : inExp2Domain x = true) :
    pow2i nan' (ffloor nan x) = powerWord ⌊val x⌋ := by
  obtain ⟨-, hlo, hhi⟩ := (inExp2Domain_iff x).1 h
  obtain ⟨hfin, hval, -⟩ := ffloor_of_isFinite nan (isFinite_of_inExp2Domain h)
  exact pow2i_of_integer nan' hfin hval (Int.le_floor.2 (by exact_mod_cast hlo))
    (Int.le_of_lt_add_one (Int.floor_lt.2 hhi))

/-- At an integer the fraction that enters the polynomial is a zero. -/
theorem isZero_fsub_ffloor (nan : Word) {x : Word} {j : ℤ} (hx : isFinite x = true) (hval : val x = j) :
    isZero (fsub nan x (ffloor nan x)) = true := by
  obtain ⟨hfin, hfloor, -⟩ := ffloor_of_isFinite nan hx
  have hfrac : val x - val (ffloor nan x) = 0 := by rw [hfloor, hval, Int.floor_intCast, sub_self]
  rw [fsub_of_eq_zero nan hx hfin hfrac]
  split <;> rfl

/-- R140 at a zero of either sign: the constant term. -/
theorem pexp2_of_isZero {k : Cfg} (nan : Word) {t : Word} (hfin : k.exp2C.all isFinite = true)
    (hhead : k.exp2C.head? = some one) (ht : isZero t = true) : pexp2 k nan t = one := by
  obtain ⟨rest, hlist⟩ := List.head?_eq_some_iff.1 hhead
  rw [hlist] at hfin
  rw [pexp2, hlist]
  exact horner_of_isZero nan ht hfin rfl

/-- Multiplying a nonzero finite word by 1.0 changes nothing. -/
theorem fmul_one (nan : Word) {x : Word} (hx : isFinite x = true) (h0 : val x ≠ 0) : fmul nan x one = x :=
  fma_of_val_eq nan hx rfl rfl hx (by rw [val_one, mul_one, val_negZero, add_zero]) h0

theorem isFinite_powerWord {n : ℤ} (hlo : -126 ≤ n) (hhi : n ≤ 127) : isFinite (powerWord n) = true := by
  rw [isFinite, isNormal_powerWord hlo hhi, Bool.or_true]

/-- The word of 2^n as a number: the biased exponent, 23 bits up. -/
theorem powerWord_eq_ofNat {n : ℤ} (hlo : -126 ≤ n) (hhi : n ≤ 127) :
    powerWord n = BitVec.ofNat 32 ((n + 127).toNat * 2 ^ 23) := by
  apply BitVec.eq_of_toNat_eq
  rw [powerWord, joinFields, BitVec.toNat_append, BitVec.toNat_append]
  simp only [BitVec.toNat_ofNat, Nat.zero_mod, Nat.shiftLeft_eq, Nat.zero_mul, Nat.zero_or, Nat.or_zero]
  omega

/-- R142: at an integer the polynomial is 1.0 and the product is the power itself. -/
theorem exp2_of_integer {k : Cfg} (nan : Word) {x : Word} {j : ℤ} (hfin : k.exp2C.all isFinite = true)
    (hhead : k.exp2C.head? = some one) (hlo : -126 ≤ j) (hhi : j ≤ 127) (hx : isFinite x = true) (hval : val x = j) :
    exp2 k nan x = powerWord j := by
  have hpow : pow2i nan (ffloor nan x) = powerWord j := by
    rw [pow2i_ffloor nan nan (inExp2Domain_of_integer hlo hhi hx hval), hval, Int.floor_intCast]
  have hne : val (powerWord j) ≠ 0 := by
    rw [val_powerWord hlo hhi]
    positivity
  rw [exp2, hpow, pexp2_of_isZero nan hfin hhead (isZero_fsub_ffloor nan hx hval),
    fmul_one nan (isFinite_powerWord hlo hhi) hne]

/-- R142 on the ports, under any configuration with finite coefficients and constant term 1.0. -/
theorem transaction_exp2_of_integer {k : Cfg} {p : Ports} {j : ℤ} (hfin : k.exp2C.all isFinite = true)
    (hhead : k.exp2C.head? = some one) (hlo : -126 ≤ j) (hhi : j ≤ 127) (hx : isFinite p.a = true)
    (hval : val p.a = j) :
    transaction k .exp2 p = ⟨BitVec.ofNat 32 ((j + 127).toNat * 2 ^ 23), 0#32, 0#32⟩ := by
  rw [transaction_public rfl, if_pos (inExp2Domain_of_integer hlo hhi hx hval), publicValue,
    exp2_of_integer _ hfin hhead hlo hhi hx hval, powerWord_eq_ofNat hlo hhi, drive1]

end Sys2Proof.Machine
end

section
/-! PROOFS. The statements on the exponential at integers and on its host sequence (44_exp2.md R141, R142). -/

namespace Sys2Proof.Proofs

open Sys2Proof.Machine Sys2Proof.Safety

/-- Settles O35: an integer operand is in the domain and the exponential returns the word of its power; the block's own
coefficients meet the two conditions. -/
theorem expIsExactAtIntegers : Obligations.ExpIsExactAtIntegers := by
  refine ⟨fun _ _ _ => transaction_exp2_of_integer, fun s j hlo hhi hx hval => ?_⟩
  obtain ⟨hfin, hhead⟩ := Config.cfg_valid.exp2C_ok
  exact exec_of_transaction (transaction_exp2_of_integer hfin hhead hlo hhi hx hval)

/-- Settles O50: the operand is finite, so floor and power are the same words on both sides; the fraction and the
polynomial agree up to the NaN word, and so does the last product. -/
theorem expEqualsItsHostSequence : Obligations.ExpEqualsItsHostSequence := by
  intro k x hk hx i f w p
  have hnan : ∀ i ws, isNaN (nanOf k i ws) = true := fun i ws => isNaN_of_isQuietNaN (hk.isQuietNaN_nanOf i ws)
  have hfloor : ∀ nan, ffloor nan x = i := fun nan =>
    ffloor_nan_irrelevant _ nan (isNaN_of_isFinite (isFinite_of_inExp2Domain hx))
  have hpow : ∀ nan, pow2i nan i = w := fun nan => (pow2i_ffloor _ nan hx).trans (pow2i_ffloor _ _ hx).symm
  have hfrac : ∀ nan, isNaN nan = true → SameOrNaN (fsub nan x i) f := fun nan h =>
    sameOrNaN_fma h (hnan _ _) (.refl i) (.refl negOne) (.refl x)
  have hpoly : ∀ nan, isNaN nan = true → SameOrNaN (pexp2 k nan (fsub nan x i)) p := fun nan h =>
    sameOrNaN_horner h (hnan _ _) (hfrac nan h) k.exp2C
  have hexp : (transaction k .exp2 ⟨x, 0#32, 0#32, 0#32⟩).r0 = exp2 k (nanOf k .exp2 [x]) x := by
    rw [transaction_public rfl, if_pos hx]
    rfl
  rw [hexp, exp2, hfloor, hpow]
  exact sameOrNaN_fma (hnan _ _) (hnan _ _) (.refl w) (hpoly _ (hnan _ _)) (.refl negZero)

end Sys2Proof.Proofs
end

section
/-! PROOFS. The parity of a word (45_sincos.md R155) is bit 149 of its magnitude in units of 2^-149, the bit of the unit
1. -/

namespace Sys2Proof.Machine

/-- R155 tests the bit of weight 1: on a finite word, of any magnitude, that is bit 149 of the units. -/
theorem odd_eq_testBit_magUnits {m : Word} (h : isFinite m = true) : odd m = (magUnits m).testBit 149 := by
  have hmant := (mantField m).isLt
  by_cases h0 : expField m = 0#8
  · have hsmall : magUnits m < 2 ^ 149 := by
      rw [magUnits, if_pos h0]
      omega
    rw [Nat.testBit_lt_two_pow hsmall, odd, h0]
    simp
  · have hexp : 1 ≤ (expField m).toNat := Nat.one_le_iff_ne_zero.2 fun hc => h0 (BitVec.eq_of_toNat_eq hc)
    have hzero : isZero m = false := Bool.eq_false_iff.2 fun hz => h0 ((isZero_iff m).1 hz).1
    rw [odd, hzero, isInf_of_isFinite h, isNaN_of_isFinite h, magUnits, if_neg h0, Nat.testBit_mul_two_pow,
      if_neg (by decide)]
    split_ifs with hlarge hsmall
    · simp [show ¬ (expField m).toNat - 1 ≤ 149 by omega]
    · have hbit : 2 ^ 23 + (mantField m).toNat < 2 ^ (149 - ((expField m).toNat - 1)) :=
        lt_of_lt_of_le (by omega : _ < 2 ^ 24) (Nat.pow_le_pow_right (by omega) (by omega))
      rw [Nat.testBit_lt_two_pow hbit, Bool.and_false]
    · rw [decide_eq_true (by omega : (expField m).toNat - 1 ≤ 149), Bool.true_and,
        show 149 - ((expField m).toNat - 1) = 150 - (expField m).toNat by omega]

theorem odd_of_isZero {m : Word} (h : isZero m = true) : odd m = false := by simp [odd, h]

theorem odd_of_isInf_or_isNaN {m : Word} (h : isInf m = true ∨ isNaN m = true) : odd m = false := by
  rcases h with h | h <;> simp [odd, h]

/-- The magnitude of a word with an integer value is that many units of 2^149. -/
theorem magUnits_of_val_eq_intCast {m : Word} {n : ℤ} (h : val m = n) : magUnits m = n.natAbs * 2 ^ 149 := by
  have hunits : valUnits m = n * 2 ^ 149 := by
    have hcast : (valUnits m : ℚ) = (n * 2 ^ 149 : ℤ) := by
      rw [valUnits_eq_val, h, Int.cast_mul, Int.cast_pow, Int.cast_ofNat]
    exact_mod_cast hcast
  rw [← natAbs_valUnits, hunits, natAbs_mul_unit]

theorem magUnits_lt_of_abs_val_lt_one {m : Word} (h : |val m| < 1) : magUnits m < 2 ^ 149 := by
  rw [abs_val, div_lt_one (by positivity)] at h
  exact_mod_cast h

/-- R155: the parity of a word with an integer value is the integer's, whatever its sign. -/
theorem odd_iff_emod_two {m : Word} {n : ℤ} (hm : isFinite m = true) (h : val m = n) : odd m = true ↔ n % 2 = 1 := by
  rw [odd_eq_testBit_magUnits hm, magUnits_of_val_eq_intCast h, Nat.testBit_mul_two_pow, decide_eq_true le_rfl,
    Bool.true_and, Nat.sub_self, Nat.testBit_zero, decide_eq_true_iff]
  omega

theorem odd_of_abs_val_lt_one {m : Word} (hm : isFinite m = true) (h : |val m| < 1) : odd m = false := by
  rw [odd_eq_testBit_magUnits hm, Nat.testBit_lt_two_pow (magUnits_lt_of_abs_val_lt_one h)]

end Sys2Proof.Machine
end

section
/-! PROOFS. Negation through the encoding, the rounding and the product (41_fusedstep.md R91 to R94, R99): the sign of a
product is the exclusive or of the signs of its factors, whatever the magnitudes are. -/

namespace Sys2Proof.Machine

theorem fneg_joinFields (s : Bool) (e : BitVec 8) (m : BitVec 23) :
    fneg (joinFields (BitVec.ofBool s) e m) = joinFields (BitVec.ofBool !s) e m :=
  word_ext (by simp) (by simp) (by simp)

theorem fneg_zeroWord (s : Bool) : fneg (zeroWord s) = zeroWord (!s) := fneg_joinFields s _ _

theorem fneg_infWord (s : Bool) : fneg (infWord s) = infWord (!s) := fneg_joinFields s _ _

theorem fneg_enc (s : Bool) (u : ℕ) : fneg (enc s u) = enc (!s) u := by
  unfold enc
  split <;> exact fneg_joinFields s _ _

theorem fneg_rnd (s : Bool) (num den : ℕ) : fneg (rnd s num den) = rnd (!s) num den := by
  simp only [rnd]
  split
  · exact fneg_infWord s
  · exact fneg_enc s _

theorem val_fneg (x : Word) : val (fneg x) = -val x := by
  rw [val_eq_valUnits, val_eq_valUnits, valUnits_fneg, Int.cast_neg, neg_div]

/-- Negating both factors changes no fused step. -/
theorem fma_fneg_fneg (nan a b c : Word) : fma nan (fneg a) (fneg b) c = fma nan a b c := by
  simp [fma, fmaFinite]

/-- R94's addend of the product, -0.0, takes no part in its value and lets a zero product keep its sign. -/
theorem fmaFinite_negZero (a b : Word) : fmaFinite a b negZero =
    if valUnits a * valUnits b = 0 then zeroWord (signBit a ^^ signBit b)
    else rnd (decide (valUnits a * valUnits b < 0)) (valUnits a * valUnits b).natAbs (2 ^ 149 * 2 ^ 149) := by
  have haddend : valUnits a * valUnits b + valUnits negZero * 2 ^ 149 = valUnits a * valUnits b := by
    rw [(isZero_iff_valUnits negZero).1 rfl, zero_mul, add_zero]
  have hsign : signBit negZero = true := rfl
  simp only [fmaFinite, haddend, hsign]
  by_cases hp : valUnits a * valUnits b = 0
  · rw [if_neg (not_not.2 hp), if_pos hp]
    cases signBit a ^^ signBit b <;> simp [hp]
  · rw [if_pos hp, if_neg hp]

theorem fmaFinite_fneg_negZero (a b : Word) : fmaFinite a (fneg b) negZero = fneg (fmaFinite a b negZero) := by
  rw [fmaFinite_negZero, fmaFinite_negZero, valUnits_fneg, mul_neg, Int.natAbs_neg, signBit_fneg, Bool.xor_not]
  by_cases hp : valUnits a * valUnits b = 0
  · rw [if_pos hp, if_pos (neg_eq_zero.2 hp), fneg_zeroWord]
  · have hflip : decide (-(valUnits a * valUnits b) < 0) = !decide (valUnits a * valUnits b < 0) := by
      rw [← decide_not, decide_eq_decide]
      omega
    rw [if_neg hp, if_neg (neg_ne_zero.2 hp), hflip, fneg_rnd]

/-- The product of a negated factor: the same operands are invalid, and on the others the result is negated. -/
theorem fmul_fneg_right (nan a b : Word) : fmul nan a (fneg b) =
    if fmaInvalid a b negZero then nan else fneg (fmaValue a b negZero) := by
  have hinf : isInf negZero = false := rfl
  have hinvalid : fmaInvalid a (fneg b) negZero = fmaInvalid a b negZero := by simp [fmaInvalid, hinf]
  have hvalue : fmaValue a (fneg b) negZero = fneg (fmaValue a b negZero) := by
    rw [fmaValue, fmaValue, isInf_fneg, hinf, signBit_fneg, Bool.xor_not]
    split
    · exact (fneg_infWord _).symm
    · exact fmaFinite_fneg_negZero a b
  rw [fmul, fma_eq, hinvalid, hvalue]

end Sys2Proof.Machine
end

section
/-! PROOFS. Agreement up to the NaN word passes through negation, rounding to integers, the sign selector and the parts
of the sine and the cosine (41_fusedstep.md R96 to R100; 45_sincos.md R150 to R155), and the polynomial core is odd that
far (R152). -/

namespace Sys2Proof.Safety

open Sys2Proof.Machine

/-! ## Functions that generate no NaN word (R98, R99, R120, R155) -/

theorem SameOrNaN.trans {u v w : Word} (huv : SameOrNaN u v) (hvw : SameOrNaN v w) : SameOrNaN u w := by
  rcases huv with rfl | ⟨hu, hv⟩
  · exact hvw
  · exact .inr ⟨hu, hvw.isNaN_eq ▸ hv⟩

/-- A function that keeps NaNs keeps agreement. -/
theorem SameOrNaN.map {f : Word → Word} (hf : ∀ w, isNaN (f w) = isNaN w) {u v : Word} (h : SameOrNaN u v) :
    SameOrNaN (f u) (f v) := by
  rcases h with rfl | ⟨hu, hv⟩
  · exact .refl _
  · exact .inr ⟨(hf u).trans hu, (hf v).trans hv⟩

/-- Transferring a sign makes no NaN and loses none (R120). -/
theorem isNaN_mulsign (x y : Word) : isNaN (mulsign x y) = isNaN x := by
  rw [mulsign_eq]
  split
  · exact isNaN_fneg x
  · rfl

/-- All NaNs have one parity, so words that agree have one sign selector. -/
theorem SameOrNaN.paritySign_eq {u v : Word} (h : SameOrNaN u v) : paritySign u = paritySign v := by
  rcases h with rfl | ⟨hu, hv⟩
  · rfl
  · rw [paritySign, paritySign, odd_of_isInf_or_isNaN (.inr hu), odd_of_isInf_or_isNaN (.inr hv)]

section
variable {nan nan' : Word} (hn : isNaN nan = true) (hn' : isNaN nan' = true)
include hn hn'

/-! ## Rounding to an integer (R96, R97) -/

theorem sameOrNaN_ffloor {x x' : Word} (h : SameOrNaN x x') : SameOrNaN (ffloor nan x) (ffloor nan' x') := by
  by_cases hx : isNaN x = true
  · rw [ffloor_of_isNaN nan hx, ffloor_of_isNaN nan' (h.isNaN_eq ▸ hx)]
    exact .inr ⟨hn, hn'⟩
  · rw [← h.eq_of_not_isNaN hx, ffloor_nan_irrelevant nan nan' (Bool.eq_false_iff.2 hx)]
    exact .refl _

theorem sameOrNaN_fround {x x' : Word} (h : SameOrNaN x x') : SameOrNaN (fround nan x) (fround nan' x') := by
  by_cases hx : isNaN x = true
  · rw [fround_of_isNaN nan hx, fround_of_isNaN nan' (h.isNaN_eq ▸ hx)]
    exact .inr ⟨hn, hn'⟩
  · rw [← h.eq_of_not_isNaN hx, fround_nan_irrelevant nan nan' (Bool.eq_false_iff.2 hx)]
    exact .refl _

/-! ## The reductions (R150, R151) -/

theorem sameOrNaN_sineResidual (recip high low x : Word) :
    SameOrNaN (sineResidual nan recip high low x) (sineResidual nan' recip high low x) := by
  have hindex : SameOrNaN (fround nan (fmul nan x recip)) (fround nan' (fmul nan' x recip)) :=
    sameOrNaN_fround hn hn' (sameOrNaN_fma hn hn' (.refl x) (.refl recip) (.refl negZero))
  exact sameOrNaN_fma hn hn' hindex (.refl low)
    (sameOrNaN_fma hn hn' (hindex.map isNaN_fneg) (.refl high) (.refl x))

theorem sameOrNaN_redsinY (k : Cfg) (x : Word) : SameOrNaN (redsinY k nan x) (redsinY k nan' x) :=
  (sameOrNaN_sineResidual hn hn' k.rpi k.piHi k.piLo x).map isNaN_fabs

theorem sameOrNaN_halfPeriodIndex (k : Cfg) (x : Word) :
    SameOrNaN (halfPeriodIndex k nan x) (halfPeriodIndex k nan' x) :=
  sameOrNaN_ffloor hn hn' (sameOrNaN_fma hn hn' (.refl x) (.refl k.invHalfHi)
    (sameOrNaN_fma hn hn' (.refl x) (.refl k.invHalfLo) (.refl negZero)))

theorem sameOrNaN_cosineStages (k : Cfg) {m m' : Word} (hm : SameOrNaN m m') (x : Word) :
    SameOrNaN (cosineStages k nan m x) (cosineStages k nan' m' x) := by
  have hfma {a a' b b' c c' : Word} : SameOrNaN a a' → SameOrNaN b b' → SameOrNaN c c' →
      SameOrNaN (fma nan a b c) (fma nan' a' b' c') := sameOrNaN_fma hn hn'
  have hhigh := hfma hm (.refl k.halfHi) (.refl k.quarterHi)
  have herror := hfma (hfma hm (.refl k.halfHi) (hhigh.map isNaN_fneg)) (.refl one) (.refl k.quarterHi)
  have hlow := hfma hm (.refl k.halfLo) (.refl k.quarterLo)
  exact hfma hlow (.refl negOne) (hfma herror (.refl negOne) (hfma hhigh (.refl negOne) (.refl x)))

theorem sameOrNaN_redcosX (k : Cfg) (x : Word) : SameOrNaN (redcosX k nan x) (redcosX k nan' x) :=
  sameOrNaN_cosineStages hn hn' k (sameOrNaN_halfPeriodIndex hn hn' k x) x

/-- The sign selector is 1.0 or -1.0, never a NaN, and so the same word. -/
theorem redcosS_nan_irrelevant (k : Cfg) (x : Word) : redcosS k nan x = redcosS k nan' x :=
  (sameOrNaN_halfPeriodIndex hn hn' k x).paritySign_eq

/-! ## The polynomial core (R152) -/

theorem sameOrNaN_psin (k : Cfg) {y y' : Word} (h : SameOrNaN y y') : SameOrNaN (psin k nan y) (psin k nan' y') := by
  have hsquare : SameOrNaN (fmul nan y y) (fmul nan' y' y') := sameOrNaN_fma hn hn' h h (.refl negZero)
  exact sameOrNaN_fma hn hn' (sameOrNaN_horner hn hn' hsquare k.sinC) h (.refl negZero)

/-- R94: a product is an odd function of its second factor. -/
theorem sameOrNaN_fmul_fneg_right (a b : Word) : SameOrNaN (fmul nan a (fneg b)) (fneg (fmul nan' a b)) := by
  rw [fmul_fneg_right, fmul, fma_eq]
  split
  · exact .inr ⟨hn, (isNaN_fneg nan').trans hn'⟩
  · exact .refl _

/-- R152: the square and with it the even polynomial do not see the sign of the argument; the last product does. -/
theorem sameOrNaN_psin_fneg (k : Cfg) (y : Word) : SameOrNaN (psin k nan (fneg y)) (fneg (psin k nan' y)) := by
  have hsquare : fmul nan (fneg y) (fneg y) = fmul nan y y := fma_fneg_fneg nan y y negZero
  rw [psin, hsquare]
  exact (sameOrNaN_fmul_fneg_right hn hn _ y).trans ((sameOrNaN_psin hn hn' k (.refl y)).map isNaN_fneg)

end

end Sys2Proof.Safety
end

section
/-! PROOFS. The words of REDSIN, REDCOS and PSIN, and the reductions of the sine and the cosine at zeros (45_sincos.md
R150 to R153): the index of the period is a zero, and the fused steps see zero products only. -/

namespace Sys2Proof

/-- R8: the coefficients of the sine polynomial are finite. -/
theorem Cfg.Valid.all_isFinite_sinC {k : Cfg} (h : k.Valid) : k.sinC.all Machine.isFinite = true := by
  obtain ⟨hconst, -⟩ := h
  simp only [Cfg.constantsOk, Bool.and_eq_true] at hconst
  obtain ⟨⟨⟨-, -, hfin⟩, -⟩, -⟩ := hconst
  exact hfin

/-- R8: the constants of the two reductions are finite. -/
theorem Cfg.Valid.isFinite_of_mem_reduction {k : Cfg} (h : k.Valid) {w : Word}
    (hw : w ∈ [k.rtau, k.tauHi, k.tauLo, k.rpi, k.piHi, k.piLo, k.invHalfHi, k.invHalfLo, k.halfHi, k.halfLo,
      k.quarterHi, k.quarterLo]) : Machine.isFinite w = true := by
  obtain ⟨hconst, -⟩ := h
  simp only [Cfg.constantsOk, Bool.and_eq_true] at hconst
  obtain ⟨⟨-, hfin⟩, -⟩ := hconst
  exact List.all_eq_true.1 hfin w hw

end Sys2Proof

namespace Sys2Proof.Machine

open Sys2Proof.Safety

/-! ## The transactions (R150 to R152) -/

theorem transaction_redsin (k : Cfg) (p : Ports) : transaction k .redsin p =
    ⟨redsinZ k (nanOf k .redsin [p.a]) p.a, redsinY k (nanOf k .redsin [p.a]) p.a, 0#32⟩ := rfl

theorem transaction_redcos (k : Cfg) (p : Ports) : transaction k .redcos p =
    ⟨redcosX k (nanOf k .redcos [p.a]) p.a, redcosS k (nanOf k .redcos [p.a]) p.a, 0#32⟩ := rfl

theorem transaction_psin (k : Cfg) (p : Ports) :
    transaction k .psin p = ⟨psin k (nanOf k .psin [p.a]) p.a, 0#32, 0#32⟩ := rfl

/-! ## The arithmetic at a zero operand (R93, R94, R96, R97) -/

/-- The two zeros, by their sign bits. -/
theorem eq_zeroWord_of_isZero {w : Word} (h : isZero w = true) : w = zeroWord (signBit w) :=
  eq_zeroWord_of_magUnits ((isZero_iff_magUnits w).1 h)

/-- Clearing the sign of a zero gives `+0` (R98). -/
theorem fabs_zeroWord (s : Bool) : fabs (zeroWord s) = 0#32 := by
  cases s <;> rfl

theorem zeroSum_eq_zeroWord (s t : Bool) : zeroSum s t = zeroWord (s && t) := by
  cases s <;> cases t <;> rfl

section
variable (nan : Word) {a b c x y : Word}

/-- A zero product plus a zero addend: a zero, negative when both terms are. -/
theorem fma_of_isZero_of_isZero (ha : isZero a = true) (hb : isFinite b = true) (hc : isZero c = true) :
    fma nan a b c = zeroWord ((signBit a ^^ signBit b) && signBit c) := by
  have hprod : val a * val b = 0 := by rw [(isZero_iff_val a).1 ha, zero_mul]
  rw [fma_of_isFinite nan (isFinite_of_isZero ha) hb (isFinite_of_isZero hc),
    fmaFinite_of_eq_zero (by rw [hprod, (isZero_iff_val c).1 hc, add_zero]), if_pos hprod, zeroSum_eq_zeroWord]

/-- A zero first factor leaves a nonzero addend as it is. -/
theorem fma_of_isZero_left (ha : isZero a = true) (hb : isFinite b = true) (hc : isFinite c = true)
    (h0 : isZero c = false) : fma nan a b c = c := by
  refine fma_of_val_eq nan (isFinite_of_isZero ha) hb hc hc ?_ fun hv =>
    Bool.eq_false_iff.1 h0 ((isZero_iff_val c).2 hv)
  rw [(isZero_iff_val a).1 ha, zero_mul, zero_add]

theorem fmul_of_isZero_left (hx : isZero x = true) (hy : isFinite y = true) :
    fmul nan x y = zeroWord (signBit x ^^ signBit y) :=
  fmul_of_eq_zero nan (isFinite_of_isZero hx) hy (by rw [(isZero_iff_val x).1 hx, zero_mul])

theorem ffloor_of_isZero (hx : isZero x = true) : ffloor nan x = x :=
  ffloor_of_isInf_or_isZero nan (Bool.eq_false_iff.1 (isNaN_of_isFinite (isFinite_of_isZero hx))) (.inr hx)

theorem fround_of_isZero (hx : isZero x = true) : fround nan x = x :=
  fround_of_isInf_or_isZero nan (Bool.eq_false_iff.1 (isNaN_of_isFinite (isFinite_of_isZero hx))) (.inr hx)

/-- Subtracting a zero changes no nonzero word. -/
theorem fsub_of_isZero_right (hx : isFinite x = true) (hy : isZero y = true) (h0 : isZero x = false) :
    fsub nan x y = x :=
  fma_of_isZero_left nan hy rfl hx h0

/-- Subtracting a nonzero word from a zero negates it. -/
theorem fsub_of_isZero_left (hx : isZero x = true) (hy : isFinite y = true) (h0 : isZero y = false) :
    fsub nan x y = fneg y := by
  refine fma_of_val_eq nan hy rfl (isFinite_of_isZero hx) ((isFinite_fneg y).trans hy) ?_ fun hv => ?_
  · rw [val_negOne, (isZero_iff_val x).1 hx, val_fneg, mul_neg_one, add_zero]
  · rw [← isZero_iff_val, isZero_fneg, h0] at hv
    cases hv

/-- A nonzero word and its negation cancel to `+0`. -/
theorem fadd_fneg_self (hx : isFinite x = true) (h0 : isZero x = false) : fadd nan (fneg x) x = 0#32 := by
  rw [fadd_of_eq_zero nan ((isFinite_fneg x).trans hx) hx (by rw [val_fneg, neg_add_cancel]), if_neg]
  rintro ⟨-, rfl⟩
  cases h0

/-! ## The sine (R150, R152, R153) -/

/-- A residual of a zero is a zero, negative only when the operand and both products are. -/
theorem sineResidual_of_isZero {recip high low : Word} (hrecip : isFinite recip = true) (hhigh : isFinite high = true)
    (hlow : isFinite low = true) (hx : isZero x = true) : sineResidual nan recip high low x =
      zeroWord ((signBit x ^^ signBit recip ^^ signBit low) &&
        ((!(signBit x ^^ signBit recip) ^^ signBit high) && signBit x)) := by
  simp only [sineResidual, fmul_of_isZero_left nan hx hrecip, fround_of_isZero nan (isZero_zeroWord _), fneg_zeroWord,
    fma_of_isZero_of_isZero nan (isZero_zeroWord _) hhigh hx,
    fma_of_isZero_of_isZero nan (isZero_zeroWord _) hlow (isZero_zeroWord _), signBit_zeroWord]

theorem redsinY_of_isZero {k : Cfg} (hk : k.Valid) (hx : isZero x = true) : redsinY k nan x = 0#32 := by
  rw [redsinY, sineResidual_of_isZero nan (hk.isFinite_of_mem_reduction (by simp))
    (hk.isFinite_of_mem_reduction (by simp)) (hk.isFinite_of_mem_reduction (by simp)) hx]
  exact fabs_zeroWord _

/-- R150 for `+0`, and for `-0` when neither RTAU nor TAU_HI has its sign bit set. -/
theorem redsinZ_of_isZero {k : Cfg} (hk : k.Valid) (hx : isZero x = true)
    (hsigns : signBit x = true → signBit k.rtau = false ∧ signBit k.tauHi = false) : redsinZ k nan x = 0#32 := by
  rw [redsinZ, sineResidual_of_isZero nan (hk.isFinite_of_mem_reduction (by simp))
    (hk.isFinite_of_mem_reduction (by simp)) (hk.isFinite_of_mem_reduction (by simp)) hx]
  cases hs : signBit x
  · rw [Bool.and_false, Bool.and_false]
    rfl
  · obtain ⟨hr, hh⟩ := hsigns hs
    rw [hr, hh, Bool.and_true]
    exact congrArg zeroWord (Bool.and_false _)

/-- R152 at `+0`: the product of the constant term and the argument. -/
theorem psin_zero {k : Cfg} {coeff : Word} (hk : k.Valid) (hhead : k.sinC.head? = some coeff)
    (h0 : isZero coeff = false) : psin k nan 0#32 = zeroWord (signBit coeff) := by
  obtain ⟨rest, hlist⟩ := List.head?_eq_some_iff.1 hhead
  have hfin := hk.all_isFinite_sinC
  rw [hlist] at hfin
  have hcoeff : isFinite coeff = true := by
    rw [List.all_cons, Bool.and_eq_true] at hfin
    exact hfin.1
  have hsquare : isZero (fmul nan 0#32 0#32) = true := by rw [fmul_of_isZero_left nan rfl rfl]; rfl
  rw [psin, hlist, horner_of_isZero nan hsquare hfin h0,
    fmul_of_eq_zero nan hcoeff rfl (by rw [(isZero_iff_val 0#32).1 rfl, mul_zero])]
  exact congrArg zeroWord (Bool.xor_false _)

/-! ## The cosine (R151) -/

/-- The index of the half period that holds a zero is a zero. -/
theorem isZero_halfPeriodIndex {k : Cfg} (hk : k.Valid) (hx : isZero x = true) :
    isZero (halfPeriodIndex k nan x) = true := by
  have hhi : isFinite k.invHalfHi = true := hk.isFinite_of_mem_reduction (by simp)
  have hlo : isFinite k.invHalfLo = true := hk.isFinite_of_mem_reduction (by simp)
  rw [halfPeriodIndex, fmul_of_isZero_left nan hx hlo, fma_of_isZero_of_isZero nan hx hhi (isZero_zeroWord _),
    ffloor_of_isZero nan (isZero_zeroWord _)]
  exact isZero_zeroWord _

/-- R151 with a zero index and operand: `high` is QUARTER_HI, its error `+0`, and `low` is QUARTER_LO or, when that is a
zero, a zero of some sign, which the last subtraction does not see. -/
theorem cosineStages_of_isZero {k : Cfg} (hk : k.Valid) {m : Word} (hm : isZero m = true) (hx : isZero x = true)
    (h0 : isZero k.quarterHi = false) :
    cosineStages k nan m x = fsub nan (fneg k.quarterHi) k.quarterLo := by
  have hhalfHi : isFinite k.halfHi = true := hk.isFinite_of_mem_reduction (by simp)
  have hhalfLo : isFinite k.halfLo = true := hk.isFinite_of_mem_reduction (by simp)
  have hhi : isFinite k.quarterHi = true := hk.isFinite_of_mem_reduction (by simp)
  have hlo : isFinite k.quarterLo = true := hk.isFinite_of_mem_reduction (by simp)
  have hnegFin : isFinite (fneg k.quarterHi) = true := (isFinite_fneg _).trans hhi
  have hneg0 : isZero (fneg k.quarterHi) = false := (isZero_fneg _).trans h0
  have hlow : fsub nan (fneg k.quarterHi) (fma nan m k.halfLo k.quarterLo) =
      fsub nan (fneg k.quarterHi) k.quarterLo := by
    cases hz : isZero k.quarterLo
    · rw [fma_of_isZero_left nan hm hhalfLo hlo hz]
    · rw [fma_of_isZero_of_isZero nan hm hhalfLo hz, fsub_of_isZero_right nan hnegFin (isZero_zeroWord _) hneg0,
        fsub_of_isZero_right nan hnegFin hz hneg0]
  simp only [cosineStages]
  rw [fma_of_isZero_left nan hm hhalfHi hhi h0, fma_of_isZero_left nan hm hhalfHi hnegFin hneg0,
    fadd_fneg_self nan hhi h0, fsub_of_isZero_left nan hx hhi h0, fsub_of_isZero_right nan hnegFin rfl hneg0, hlow]

/-- R155: zero is even, so the sign selector is -1.0. -/
theorem redcosS_of_isZero {k : Cfg} (hk : k.Valid) (hx : isZero x = true) : redcosS k nan x = negOne := by
  rw [redcosS, paritySign, odd_of_isZero (isZero_halfPeriodIndex nan hk hx)]
  rfl

end

end Sys2Proof.Machine
end

section
/-! PROOFS. The statements on the sine and the cosine (45_sincos.md R150 to R155). -/

namespace Sys2Proof.Proofs

open Sys2Proof.Machine Sys2Proof.Safety

/-- Settles O38: the parity is the bit of weight 1 of the magnitude. -/
theorem parityIsTheResidueModuloTwo : Obligations.ParityIsTheResidueModuloTwo :=
  ⟨fun _ _ => odd_iff_emod_two, fun _ => odd_of_isInf_or_isNaN, fun _ => odd_of_abs_val_lt_one⟩

/-- Settles O40: the polynomial core is odd up to the NaN word, and its result here is no NaN. -/
theorem sinePolynomialIsOdd : Obligations.SinePolynomialIsOdd := by
  intro k p p' hk hneg hresult
  have hnan : ∀ ws, isNaN (nanOf k .psin ws) = true := fun ws => isNaN_of_isQuietNaN (hk.isQuietNaN_nanOf .psin ws)
  have hodd : SameOrNaN (transaction k .psin p').r0 (fneg (transaction k .psin p).r0) := by
    rw [transaction_psin, transaction_psin, hneg]
    exact sameOrNaN_psin_fneg (hnan _) (hnan _) k p.a
  refine hodd.eq_of_not_isNaN ?_
  rw [hodd.isNaN_eq, isNaN_fneg, hresult]
  exact Bool.false_ne_true

/-- Settles O41: the residuals of a zero are `+0`, the polynomial of `+0` is a zero of its constant term's sign, and the
index of the half period of a zero is an even zero. -/
theorem reductionsAtZero : Obligations.ReductionsAtZero := by
  intro k p hk
  refine ⟨fun ha => ?_, fun hzero h0 => ?_⟩
  · have hzero : isZero p.a = true := by
      rcases ha with ha | ⟨ha, -⟩ <;> rw [ha] <;> rfl
    have hsigns : signBit p.a = true → signBit k.rtau = false ∧ signBit k.tauHi = false := by
      rcases ha with ha | ⟨-, hsigns⟩
      · rw [ha]
        exact fun h => absurd h (by decide)
      · exact fun _ => hsigns
    refine ⟨?_, fun c hhead hc hpos => ?_⟩
    · rw [transaction_redsin, redsinZ_of_isZero _ hk hzero hsigns, redsinY_of_isZero _ hk hzero]
    · rw [transaction_public rfl, if_pos (by rw [isZeroOrNormal, hzero, Bool.true_or]), publicValue, sin,
        redsinZ_of_isZero _ hk hzero hsigns, redsinY_of_isZero _ hk hzero, psin_zero _ hk hhead hc, hpos]
      rfl
  · rw [transaction_redcos, redcosX, cosineStages_of_isZero _ hk (isZero_halfPeriodIndex _ hk hzero) hzero h0,
      redcosS_of_isZero _ hk hzero, negOne]

/-- Settles O51: each part agrees up to the NaN word; the residual whose sign the sine takes is no NaN and so the same
word on both sides, and so is the sign selector of the cosine. -/
theorem sineAndCosineEqualTheirHostSequences : Obligations.SineAndCosineEqualTheirHostSequences := by
  intro k x hk hx
  have hnan : ∀ i ws, isNaN (nanOf k i ws) = true := fun i ws => isNaN_of_isQuietNaN (hk.isQuietNaN_nanOf i ws)
  refine ⟨fun hz => ?_, ?_⟩
  · have hresidual : ∀ nan, isNaN nan = true → redsinZ k nan x = redsinZ k (nanOf k .redsin [x]) x := fun nan h =>
      ((sameOrNaN_sineResidual (hnan _ _) h k.rtau k.tauHi k.tauLo x).eq_of_not_isNaN (Bool.eq_false_iff.1 hz)).symm
    rw [transaction_public rfl, if_pos hx, publicValue, sin, hresidual _ (hnan _ _)]
    exact (sameOrNaN_psin (hnan _ _) (hnan _ _) k (sameOrNaN_redsinY (hnan _ _) (hnan _ _) k x)).map
      (isNaN_mulsign · _)
  · rw [transaction_public (i := .cos) rfl, if_pos hx, publicValue, cos,
      redcosS_nan_irrelevant (hnan _ _) (hnan .redcos [x]) k x]
    exact sameOrNaN_psin (hnan _ _) (hnan _ _) k
      (sameOrNaN_fma (hnan _ _) (hnan _ _) (sameOrNaN_redcosX (hnan _ _) (hnan _ _) k x) (.refl _) (.refl negZero))

/-- Settles O36: the residuals are the steps of R150. -/
theorem sineReductionFollowsItsSteps : Obligations.SineReductionFollowsItsSteps :=
  ⟨rfl, fun _ => exec_of_transaction rfl⟩

/-- Settles O37: the stages are the steps of R151. -/
theorem cosineReductionFollowsItsSteps : Obligations.CosineReductionFollowsItsSteps :=
  ⟨rfl, fun _ => exec_of_transaction rfl⟩

end Sys2Proof.Proofs
end

section
/-! PROOFS. The fused step does not see the order of its factors, keeps zeros and bounds by powers of two, and answers a
finite word on finite operands only (41_fusedstep.md R92 to R94). -/

namespace Sys2Proof.Safety

open Sys2Proof.Machine

/-! ## Rounding is monotone in magnitude (R92) -/

section
variable {y : ℚ} {q : ℤ} {f : ℕ} {v : Word}

/-- A finite magnitude that is not below the exact one is not below the rounded one, which is nearest. -/
theorem IsRounded.le_of_le (h : IsRounded y q f) (hv : isFinite v = true) (hy : y ≤ |val v|) :
    f * (2 : ℚ) ^ q ≤ |val v| := by
  have hnear := h.abs_sub_le_of_isFinite hv
  rw [abs_of_nonneg (sub_nonneg.2 hy)] at hnear
  linarith [le_abs_self (f * (2 : ℚ) ^ q - y)]

/-- A finite magnitude that is not above the exact one is not above the rounded one. -/
theorem IsRounded.ge_of_ge (h : IsRounded y q f) (hv : isFinite v = true) (hy : |val v| ≤ y) :
    |val v| ≤ f * (2 : ℚ) ^ q := by
  have hnear := h.abs_sub_le_of_isFinite hv
  rw [abs_of_nonpos (sub_nonpos.2 hy)] at hnear
  linarith [neg_abs_le (f * (2 : ℚ) ^ q - y)]

end

/-- R92's `q` and `f`; the word is finite just when the rounded magnitude is below 2^128, and then has that magnitude. -/
theorem RoundsTo.exists_isRounded {x : ℚ} {w : Word} (h : RoundsTo x w) : ∃ q f, IsRounded |x| q f ∧
    (isFinite w = true ↔ f * (2 : ℚ) ^ q < 2 ^ 128) ∧ (isFinite w = true → |val w| = f * (2 : ℚ) ^ q) := by
  obtain ⟨e, q, f, hlo, hhi, hq, hnear, hw⟩ := h
  refine ⟨q, f, ⟨e, hlo, hhi, hq, hnear⟩, ?_⟩
  by_cases hmax : (2 : ℚ) ^ (128 : ℤ) ≤ f * (2 : ℚ) ^ q
  · rw [if_pos hmax] at hw
    have hinf : ¬ isFinite w = true := by
      rw [hw, isFinite_eq, isInf_infWord, Bool.not_true, Bool.and_false]
      exact Bool.false_ne_true
    exact ⟨iff_of_false hinf (not_lt.2 (by exact_mod_cast hmax)), fun hfin => absurd hfin hinf⟩
  · rw [if_neg hmax] at hw
    obtain ⟨hfin, hval⟩ : isFinite w = true ∧ |val w| = f * (2 : ℚ) ^ q := by
      split at hw
      · next hzero =>
        rw [hw, hzero, (isZero_iff_val _).1 (isZero_zeroWord _), abs_zero, Nat.cast_zero, zero_mul]
        exact ⟨isFinite_zeroWord _, rfl⟩
      · obtain ⟨hfin, hval⟩ := hw
        have habs := abs_signed (decide (x < 0)) (f * (2 : ℚ) ^ q)
        simp only [decide_eq_true_eq] at habs
        rw [hval, habs, abs_of_nonneg (by positivity)]
        exact ⟨hfin, rfl⟩
    exact ⟨iff_of_true hfin (by exact_mod_cast not_le.1 hmax), fun _ => hval⟩

end Sys2Proof.Safety

namespace Sys2Proof.Machine

open Sys2Proof.Safety

/-! ## The order of the factors (R93) -/

theorem fmaInvalid_mul_comm (a b c : Word) : fmaInvalid a b c = fmaInvalid b a c := by
  simp only [fmaInvalid, Bool.xor_comm (signBit a)]
  ac_rfl

theorem fmaFinite_mul_comm (a b c : Word) : fmaFinite a b c = fmaFinite b a c := by
  simp only [fmaFinite, mul_comm (valUnits a), Bool.xor_comm (signBit a)]

/-- R93 treats the two factors alike, infinities and NaNs included. -/
theorem fma_mul_comm (nan a b c : Word) : fma nan a b c = fma nan b a c := by
  rw [fma_eq, fma_eq, fmaInvalid_mul_comm, fmaValue, fmaValue, fmaFinite_mul_comm, Bool.or_comm (isInf a),
    Bool.xor_comm (signBit a)]

/-! ## Finite results (R92, R93) -/

/-- The words of the powers of two from 1 up are finite. -/
theorem powerWord_natCast {n : ℕ} (hn : n ≤ 127) :
    isFinite (powerWord n) = true ∧ |val (powerWord n)| = (2 : ℚ) ^ n := by
  refine ⟨isFinite_powerWord (by omega) (by omega), ?_⟩
  rw [val_powerWord (by omega) (by omega), abs_of_pos (by positivity), zpow_natCast]

section
variable {nan a b c x : Word}

/-- An infinite operand gives an infinity or a NaN, and a NaN operand a NaN. -/
theorem isFinite_of_isFinite_fma (hn : isNaN nan = true) (h : isFinite (fma nan a b c) = true) :
    isFinite a = true ∧ isFinite b = true ∧ isFinite c = true := by
  have hvalid : fmaInvalid a b c = false := (isNaN_fma hn a b c).symm.trans (isNaN_of_isFinite h)
  rw [fma_eq, hvalid, if_neg Bool.false_ne_true, fmaValue] at h
  split_ifs at h with hab hc
  · cases hs : signBit a ^^ signBit b <;> rw [hs] at h <;> cases h
  · rw [isFinite_eq, hc, Bool.not_true, Bool.and_false] at h
    cases h
  · simp only [fmaInvalid, Bool.or_eq_false_iff] at hvalid
    obtain ⟨⟨⟨⟨⟨hna, hnb⟩, hnc⟩, -⟩, -⟩, -⟩ := hvalid
    obtain ⟨hia, hib⟩ := Bool.or_eq_false_iff.1 (Bool.eq_false_iff.2 hab)
    exact ⟨isFinite_of_not_isNaN_of_not_isInf hna hia, isFinite_of_not_isNaN_of_not_isInf hnb hib,
      isFinite_of_not_isNaN_of_not_isInf hnc (Bool.eq_false_iff.2 hc)⟩

/-- A zero second factor and a zero addend give a zero. -/
theorem isZero_fma_of_isZero (ha : isFinite a = true) (hb : isZero b = true) (hc : isZero c = true) :
    isZero (fma nan a b c) = true := by
  rw [fma_mul_comm, fma_of_isZero_of_isZero nan hb ha hc, isZero_zeroWord]

theorem isZero_fsub_self (nan : Word) (hx : isFinite x = true) : isZero (fsub nan x x) = true := by
  rw [fsub_of_eq_zero nan hx hx (sub_self _)]
  split <;> rfl

section
variable (ha : isFinite a = true) (hb : isFinite b = true) (hc : isFinite c = true)
include ha hb hc

/-- Up to a power of two in the range the fused step stays finite and keeps the bound of its exact value. -/
theorem fma_abs_le_two_pow {n : ℕ} (hn : n ≤ 127) (h : |val a * val b + val c| ≤ 2 ^ n) :
    isFinite (fma nan a b c) = true ∧ |val (fma nan a b c)| ≤ 2 ^ n := by
  by_cases h0 : val a * val b + val c = 0
  · have hzero : isZero (fma nan a b c) = true := by
      rw [fma_of_eq_zero nan ha hb hc h0]
      split <;> rfl
    rw [(isZero_iff_val _).1 hzero, abs_zero]
    exact ⟨isFinite_of_isZero hzero, by positivity⟩
  · obtain ⟨q, f, hf, hfin, hval⟩ := (roundsTo_fma nan ha hb hc rfl h0).exists_isRounded
    obtain ⟨hpowFin, hpow⟩ := powerWord_natCast hn
    have hle : f * (2 : ℚ) ^ q ≤ 2 ^ n := hpow ▸ hf.le_of_le hpowFin (hpow.symm ▸ h)
    have hw := hfin.2 (hle.trans_lt (pow_lt_pow_right₀ one_lt_two (Nat.lt_succ_of_le hn)))
    exact ⟨hw, (hval hw).trans_le hle⟩

/-- A finite result is not below a power of two that the exact value reaches. -/
theorem two_pow_le_abs_val_fma {n : ℕ} (hn : n ≤ 127) (hw : isFinite (fma nan a b c) = true)
    (h : 2 ^ n ≤ |val a * val b + val c|) : 2 ^ n ≤ |val (fma nan a b c)| := by
  have h0 : val a * val b + val c ≠ 0 := abs_pos.1 (h.trans_lt' (by positivity))
  obtain ⟨q, f, hf, -, hval⟩ := (roundsTo_fma nan ha hb hc rfl h0).exists_isRounded
  obtain ⟨hpowFin, hpow⟩ := powerWord_natCast hn
  rw [hval hw, ← hpow]
  exact hf.ge_of_ge hpowFin (hpow.symm ▸ h)

/-- The result is finite only below R92's upper threshold. -/
theorem abs_lt_of_isFinite_fma (hw : isFinite (fma nan a b c) = true) : |val a * val b + val c| < 2 ^ 128 := by
  by_cases h0 : val a * val b + val c = 0
  · rw [h0, abs_zero]
    positivity
  · obtain ⟨q, f, hf, hfin, -⟩ := (roundsTo_fma nan ha hb hc rfl h0).exists_isRounded
    have hlt := hf.overflow_iff.not.1 (not_le.2 (hfin.1 hw))
    linarith

end

end

end Sys2Proof.Machine
end

section
/-! PROOFS. The fixed points of the refinement (46_cbrt.md R170): with a finite denominator nothing overflows, the
difference of the cube and the radicand is a zero, and so is the correction. -/

namespace Sys2Proof.Machine

open Sys2Proof.Safety

theorem val_two : val two = 2 := by decide +kernel
theorem val_three : val three = 3 := by decide +kernel

section
variable {nan s x : Word}

/-! ## Zeros -/

theorem isZero_halleyCube (hs : isZero s = true) : isZero (halleyCube nan s) = true := by
  have hfin := isFinite_of_isZero hs
  exact isZero_fma_of_isZero (isFinite_of_isZero (isZero_fma_of_isZero hfin hs rfl)) hs rfl

theorem isZero_halleyDenominator (hx : isZero x = true) : isZero (halleyDenominator nan x x) = true := by
  have hlinear : isZero (fma nan ten x (fmul nan sixteen x)) = true :=
    isZero_fma_of_isZero rfl hx (isZero_fma_of_isZero rfl hx rfl)
  exact isZero_fma_of_isZero (isFinite_of_isZero hlinear) hx (isZero_fma_of_isZero (isFinite_of_isZero hx) hx rfl)

/-! ## Bounds -/

/-- A product is finite only when the factors' magnitudes multiply to less than 2^128. -/
theorem abs_mul_abs_lt_of_isFinite_fmul {y : Word} (hx : isFinite x = true) (hy : isFinite y = true)
    (h : isFinite (fmul nan x y) = true) : |val x| * |val y| < 2 ^ 128 := by
  have hlt := abs_lt_of_isFinite_fma hx hy rfl h
  rwa [val_negZero, add_zero, abs_mul] at hlt

/-- The rounded square of `2^43` and more is at least `2^86`, so the cube would be at least `2^129`. -/
theorem abs_val_lt_of_isFinite_halleyCube (hn : isNaN nan = true) (h : isFinite (halleyCube nan s) = true) :
    |val s| < 2 ^ 43 := by
  obtain ⟨hsq, hs, -⟩ := isFinite_of_isFinite_fma hn h
  by_contra! hlarge
  have hsquare : 2 ^ 86 ≤ |val (fmul nan s s)| := by
    refine two_pow_le_abs_val_fma hs hs rfl (by decide) hsq ?_
    rw [val_negZero, add_zero, abs_mul]
    nlinarith
  have hcube := abs_mul_abs_lt_of_isFinite_fmul hsq hs h
  nlinarith

/-- The radicand's square is a term of the denominator. -/
theorem abs_val_lt_of_isFinite_halleyDenominator (hn : isNaN nan = true)
    (h : isFinite (halleyDenominator nan x x) = true) : |val x| < 2 ^ 64 := by
  obtain ⟨-, hx, hsq⟩ := isFinite_of_isFinite_fma hn h
  have hsquare := abs_mul_abs_lt_of_isFinite_fmul hx hx hsq
  by_contra! hlarge
  nlinarith

/-! ## The fixed point -/

/-- The factor `s^3 - x` of the numerator is a zero, and within the bounds the other factors are finite. -/
theorem isZero_halleyNumerator (hs : isFinite s = true) (hx : isFinite x = true) (hsb : |val s| < 2 ^ 43)
    (hxb : |val x| < 2 ^ 64) : isZero (halleyNumerator nan s x x) = true := by
  obtain ⟨ht, htb⟩ : isFinite (fmul nan three s) = true ∧ |val (fmul nan three s)| ≤ 2 ^ 45 := by
    refine fma_abs_le_two_pow rfl hs rfl (by decide) ?_
    rw [val_three, val_negZero, add_zero, abs_mul, abs_of_pos three_pos]
    linarith
  obtain ⟨hu, hub⟩ : isFinite (fma nan two x x) = true ∧ |val (fma nan two x x)| ≤ 2 ^ 66 := by
    refine fma_abs_le_two_pow rfl hx hx (by decide) ?_
    rw [val_two, ← add_one_mul, abs_mul, abs_of_pos (by norm_num)]
    linarith
  have hprod : isFinite (fmul nan (fmul nan three s) (fma nan two x x)) = true := by
    refine (fma_abs_le_two_pow (n := 111) ht hu rfl (by decide) ?_).1
    rw [val_negZero, add_zero, abs_mul]
    calc _ ≤ (2 : ℚ) ^ 45 * 2 ^ 66 := mul_le_mul htb hub (abs_nonneg _) (by positivity)
      _ = 2 ^ 111 := by norm_num
  exact isZero_fma_of_isZero hprod (isZero_fsub_self nan hx) rfl

/-- R170's fixed point. -/
theorem halley_of_exact (hn : isNaN nan = true) (hs : isFinite s = true) (hx : isFinite x = true)
    (hcube : halleyCube nan s = x) (hq : isFinite (halleyDenominator nan x x) = true)
    (hq0 : isZero (halleyDenominator nan x x) = false) : halley nan s x = s := by
  have hs0 : isZero s = false := by
    refine Bool.eq_false_iff.2 fun hs0 => Bool.eq_false_iff.1 hq0 (isZero_halleyDenominator ?_)
    rw [← hcube]
    exact isZero_halleyCube hs0
  have hnum : isZero (halleyNumerator nan s x x) = true :=
    isZero_halleyNumerator hs hx (abs_val_lt_of_isFinite_halleyCube hn (hcube ▸ hx))
      (abs_val_lt_of_isFinite_halleyDenominator hn hq)
  simp only [halley, hcube]
  rw [fdiv_of_isZero_left nan hnum hq0 (isNaN_of_isFinite hq), fsub_of_isZero_right nan hs (isZero_zeroWord _) hs0]

end

end Sys2Proof.Machine
end

section
/-! PROOFS. Agreement up to the NaN word passes through the refinement and the double-float primitives (46_cbrt.md R170,
R171; 47_doublefloat.md R185 to R188). -/

namespace Sys2Proof.Safety

open Sys2Proof.Machine

section
variable {nan nan' : Word} (hn : isNaN nan = true) (hn' : isNaN nan' = true)
include hn hn'

/-! ## Sum, difference and product (R94) -/

section
variable {x x' y y' : Word} (hx : SameOrNaN x x') (hy : SameOrNaN y y')
include hx hy

theorem sameOrNaN_fadd : SameOrNaN (fadd nan x y) (fadd nan' x' y') := sameOrNaN_fma hn hn' hx (.refl one) hy

theorem sameOrNaN_fsub : SameOrNaN (fsub nan x y) (fsub nan' x' y') := sameOrNaN_fma hn hn' hy (.refl negOne) hx

theorem sameOrNaN_fmul : SameOrNaN (fmul nan x y) (fmul nan' x' y') := sameOrNaN_fma hn hn' hx hy (.refl negZero)

end

/-! ## The refinement (R170, R171) -/

theorem sameOrNaN_halley {s s' : Word} (hs : SameOrNaN s s') (x : Word) :
    SameOrNaN (halley nan s x) (halley nan' s' x) := by
  have hcube : SameOrNaN (halleyCube nan s) (halleyCube nan' s') :=
    sameOrNaN_fmul hn hn' (sameOrNaN_fmul hn hn' hs hs) hs
  have hsum := sameOrNaN_fma hn hn' (.refl two) hcube (.refl x)
  have hdiff := sameOrNaN_fsub hn hn' hcube (.refl x)
  have hnum := sameOrNaN_fmul hn hn' (sameOrNaN_fmul hn hn' (sameOrNaN_fmul hn hn' (.refl three) hs) hsum) hdiff
  have hlinear := sameOrNaN_fma hn hn' (.refl ten) hcube (sameOrNaN_fmul hn hn' (.refl sixteen) (.refl x))
  have hden := sameOrNaN_fma hn hn' hlinear hcube (sameOrNaN_fmul hn hn' (.refl x) (.refl x))
  exact sameOrNaN_fsub hn hn' hs (sameOrNaN_fdiv hn hn' hnum hden)

theorem sameOrNaN_halleyIter (x : Word) (n : ℕ) {s s' : Word} (hs : SameOrNaN s s') :
    SameOrNaN (halleyIter nan x n s) (halleyIter nan' x n s') := by
  induction n generalizing s s' with
  | zero => exact hs
  | succ n ih => exact ih (sameOrNaN_halley hn hn' hs x)

theorem sameOrNaN_cbrt (k : Cfg) (x : Word) : SameOrNaN (cbrt k nan x) (cbrt k nan' x) :=
  sameOrNaN_halleyIter hn hn' x k.cbrtIters (.refl _)

/-! ## The double-float primitives (R185 to R188) -/

theorem sameOrNaN_dfmul {a a' b b' : Word} (ha : SameOrNaN a a') (hb : SameOrNaN b b') :
    SameOrNaN (dfmul nan a b).1 (dfmul nan' a' b').1 ∧ SameOrNaN (dfmul nan a b).2 (dfmul nan' a' b').2 := by
  have hp := sameOrNaN_fmul hn hn' ha hb
  exact ⟨hp, sameOrNaN_fma hn hn' ha hb (hp.map isNaN_fneg)⟩

section
variable {h h' l l' r r' : Word} (hh : SameOrNaN h h') (hl : SameOrNaN l l') (hr : SameOrNaN r r')
include hh hl hr

theorem sameOrNaN_dfmuls :
    SameOrNaN (dfmuls nan h l r).1 (dfmuls nan' h' l' r').1 ∧
      SameOrNaN (dfmuls nan h l r).2 (dfmuls nan' h' l' r').2 := by
  obtain ⟨hp, herror⟩ := sameOrNaN_dfmul hn hn' hh hr
  exact ⟨hp, sameOrNaN_fma hn hn' hl hr herror⟩

theorem sameOrNaN_dfqts :
    SameOrNaN (dfqts nan h l r).1 (dfqts nan' h' l' r').1 ∧
      SameOrNaN (dfqts nan h l r).2 (dfqts nan' h' l' r').2 := by
  have hsum := sameOrNaN_fadd hn hn' hh hr
  have herror := sameOrNaN_fsub hn hn' hr (sameOrNaN_fsub hn hn' hsum hh)
  exact ⟨hsum, sameOrNaN_fadd hn hn' herror hl⟩

end

theorem sameOrNaN_dfdiv {nh nh' nl nl' dh dh' dl dl' : Word} (hnh : SameOrNaN nh nh') (hnl : SameOrNaN nl nl')
    (hdh : SameOrNaN dh dh') (hdl : SameOrNaN dl dl') :
    SameOrNaN (dfdiv nan nh nl dh dl) (dfdiv nan' nh' nl' dh' dl') := by
  have hrc := sameOrNaN_fdiv hn hn' (.refl one) hdh
  have hq0 := sameOrNaN_fmul hn hn' hnh hrc
  have hneg := hq0.map isNaN_fneg
  have hr2 := sameOrNaN_fma hn hn' hneg hdl (sameOrNaN_fma hn hn' hneg hdh hnh)
  exact sameOrNaN_fma hn hn' (sameOrNaN_fadd hn hn' hr2 hnl) hrc hq0

end

end Sys2Proof.Safety
end

section
/-! PROOFS. The statements on the cube root (46_cbrt.md R170 to R172). -/

namespace Sys2Proof.Proofs

open Sys2Proof.Machine Sys2Proof.Safety

/-- Settles O42: the refinement is the steps of R170. -/
theorem halleyFollowsItsSteps : Obligations.HalleyFollowsItsSteps :=
  ⟨rfl, fun _ => exec_of_transaction rfl⟩

/-- Settles O43: a finite denominator and a finite cube bound the operands, so the numerator is a finite product by a
zero, and subtracting the zero quotient changes nothing. -/
theorem halleyFixesAnExactRoot : Obligations.HalleyFixesAnExactRoot := by
  intro s nan q hs hx hcube hq hq0 _
  have hn : isNaN nan = true := isNaN_of_isQuietNaN (Config.cfg_valid.isQuietNaN_nanOf _ _)
  exact exec_of_transaction (congrArg drive1 (halley_of_exact hn hs hx hcube hq hq0))

/-- Settles O52: every stage agrees up to the NaN word with that of the composite operation, one refinement or two for
CBRT; the last step of CBRTA has its factors in the other order. -/
theorem cubeRootsEqualTheirHostSequences : Obligations.CubeRootsEqualTheirHostSequences := by
  intro k x hk hx
  have hnan : ∀ i ws, isNaN (nanOf k i ws) = true := fun i ws => isNaN_of_isQuietNaN (hk.isQuietNaN_nanOf i ws)
  have hcbrt : (transaction k .cbrt ⟨x, 0#32, 0#32, 0#32⟩).r0 = cbrt k (nanOf k .cbrt [x]) x := by
    rw [transaction_public rfl, if_pos hx]
    rfl
  have hcbrta : (transaction k .cbrta ⟨x, 0#32, 0#32, 0#32⟩).r0 = cbrta k (nanOf k .cbrta [x]) x := by
    rw [transaction_public rfl, if_pos hx]
    rfl
  refine ⟨?_, ?_⟩
  · intro s0 s1 s2
    have h1 : SameOrNaN (halley (nanOf k .cbrt [x]) s0 x) s1 := sameOrNaN_halley (hnan _ _) (hnan _ _) (.refl s0) x
    rw [hcbrt, cbrt]
    rcases hk.cbrtIters_eq with hone | htwo
    · rw [hone, if_pos rfl]
      exact h1
    · rw [htwo, if_neg (by decide)]
      exact sameOrNaN_halley (hnan _ _) (hnan _ _) h1 x
  · intro s p s2 P D s3 N q
    have hN := hnan .cbrta [x]
    have hs : SameOrNaN (cbrt k (nanOf k .cbrta [x]) x) s :=
      (sameOrNaN_cbrt hN (hnan _ _) k x).trans (.inl hcbrt.symm)
    obtain ⟨hp, he⟩ := sameOrNaN_dfmul hN (hnan .dfmul [s, s]) hs hs
    have hs2 : SameOrNaN (fmul _ two _) s2 := sameOrNaN_fmul hN (hnan _ _) (.refl two) hs
    have hs3 : SameOrNaN (fmul _ negThreeHalves _) s3 := sameOrNaN_fmul hN (hnan _ _) (.refl _) hs
    obtain ⟨hPh, hPl⟩ := sameOrNaN_dfmuls hN (hnan .dfmuls [p.r0, p.r1, s2]) hp he hs2
    obtain ⟨hDh, hDl⟩ := sameOrNaN_dfqts hN (hnan .dfqts [P.r0, P.r1, x]) hPh hPl (.refl x)
    obtain ⟨hNh, hNl⟩ := sameOrNaN_dfmuls hN (hnan .dfmuls [P.r0, P.r1, s3]) hPh hPl hs3
    have hq : SameOrNaN (dfdiv _ _ _ _ _) q := sameOrNaN_dfdiv hN (hnan _ _) hNh hNl hDh hDl
    rw [hcbrta, cbrta, cbrtCorrection, fma_mul_comm]
    exact sameOrNaN_fma hN (hnan _ _) hs (.refl two) hq

end Sys2Proof.Proofs
end

section
/-! PROOFS. When a fused step is exact: binary grids, the rounding error of one fused step as a number on a grid, and
the two errors that the double-float product and the quick two-sum recover (47_doublefloat.md R185, R187). -/

namespace Sys2Proof.Machine

open Sys2Proof.Safety

/-! ## Binary grids -/

/-- `x` is a whole multiple of `2^q`. -/
def OnGrid (q : ℤ) (x : ℚ) : Prop := ∃ m : ℤ, x = m * (2 : ℚ) ^ q

section
variable {q q' : ℤ} {x y : ℚ}

theorem OnGrid.sub (hx : OnGrid q x) (hy : OnGrid q y) : OnGrid q (x - y) := by
  obtain ⟨m, rfl⟩ := hx
  obtain ⟨n, rfl⟩ := hy
  exact ⟨m - n, by rw [Int.cast_sub, sub_mul]⟩

theorem OnGrid.add (hx : OnGrid q x) (hy : OnGrid q y) : OnGrid q (x + y) := by
  obtain ⟨m, rfl⟩ := hx
  obtain ⟨n, rfl⟩ := hy
  exact ⟨m + n, by rw [Int.cast_add, add_mul]⟩

theorem OnGrid.mul (hx : OnGrid q x) (hy : OnGrid q' y) : OnGrid (q + q') (x * y) := by
  obtain ⟨m, rfl⟩ := hx
  obtain ⟨n, rfl⟩ := hy
  exact ⟨m * n, by rw [zpow_add₀ two_ne_zero, Int.cast_mul]; ring⟩

/-- A grid lies on every finer one. -/
theorem OnGrid.of_le (hx : OnGrid q' x) (h : q ≤ q') : OnGrid q x := by
  obtain ⟨m, rfl⟩ := hx
  refine ⟨m * 2 ^ (q' - q).toNat, ?_⟩
  rw [Int.cast_mul, Int.cast_pow, Int.cast_ofNat, ← zpow_natCast, Int.toNat_of_nonneg (by omega), mul_assoc,
    ← zpow_add₀ two_ne_zero, sub_add_cancel]

/-- A grid lies evenly around zero. -/
theorem onGrid_of_abs {n : ℕ} (h : |x| = n * (2 : ℚ) ^ q) : OnGrid q x := by
  rcases abs_choice x with habs | habs
  · exact ⟨n, by rw [← habs, h, Int.cast_natCast]⟩
  · exact ⟨-n, by rw [Int.cast_neg, Int.cast_natCast, neg_mul, ← h, habs, neg_neg]⟩

/-- Only zero is nearer to zero than the spacing of the grid. -/
theorem OnGrid.eq_zero (hx : OnGrid q x) (h : |x| < (2 : ℚ) ^ q) : x = 0 := by
  obtain ⟨m, rfl⟩ := hx
  have hpos : (0 : ℚ) < 2 ^ q := by positivity
  rw [abs_mul, abs_of_pos hpos, mul_lt_iff_lt_one_left hpos] at h
  have hm : m = 0 := Int.abs_lt_one_iff.1 (by exact_mod_cast h)
  rw [hm, Int.cast_zero, zero_mul]

end

/-- A finite word lies on the grid of its last significand bit, with fewer than 2^24 grid points below it. -/
theorem exists_onGrid_val {v : Word} (h : isFinite v = true) :
    ∃ j : ℤ, -149 ≤ j ∧ OnGrid j (val v) ∧ |val v| < 2 ^ 24 * (2 : ℚ) ^ j := by
  obtain ⟨g, j, hg, hj, hval⟩ := exists_abs_val_eq h
  refine ⟨j, hj, onGrid_of_abs hval, ?_⟩
  rw [hval]
  exact mul_lt_mul_of_pos_right (by exact_mod_cast hg) (by positivity)

/-- A grid point is the value of a finite word when at most 2^24 grid points lie below it; the last of them, 2^24
itself, needs the next power of two to be in the range. -/
theorem exists_val_eq_of_onGrid {q : ℤ} {x : ℚ} (hx : OnGrid q x) (hlo : -149 ≤ q) (hhi : q ≤ 103)
    (h : |x| < (2 ^ 24 + 1) * (2 : ℚ) ^ q) : ∃ w, isFinite w = true ∧ val w = x := by
  obtain ⟨m, rfl⟩ := hx
  have hpos : (0 : ℚ) < 2 ^ q := by positivity
  rw [abs_mul, abs_of_pos hpos, mul_lt_mul_iff_left₀ hpos] at h
  have hm : m.natAbs ≤ 2 ^ 24 := by
    have hlt : |m| < 2 ^ 24 + 1 := by exact_mod_cast h
    rw [Int.abs_eq_natAbs] at hlt
    omega
  obtain ⟨k, hk⟩ := Int.eq_ofNat_of_zero_le (show 0 ≤ q + 149 by omega)
  have habs : (m * 2 ^ k).natAbs = m.natAbs * 2 ^ k := by rw [Int.natAbs_mul, Int.natAbs_pow]; rfl
  have hrep : Representable (m * 2 ^ k).natAbs := by
    rw [habs]
    rcases hm.eq_or_lt with htop | hlt
    · exact ⟨2 ^ 23, k + 1, by omega, by omega, by rw [htop]; ring⟩
    · exact ⟨m.natAbs, k, hlt, by omega, rfl⟩
  refine ⟨enc (decide (m * 2 ^ k < 0)) (m * 2 ^ k).natAbs, (enc_representable _ hrep).1, ?_⟩
  have hunits : valUnits (enc (decide (m * 2 ^ k < 0)) (m * 2 ^ k).natAbs) = m * 2 ^ k :=
    valUnits_enc hrep (fun hs => (of_decide_eq_true hs).le) (fun hs => not_lt.1 (of_decide_eq_false hs))
  rw [val_eq_valUnits, hunits, show q = k - 149 by omega, zpow_sub_unit, zpow_natCast, Int.cast_mul, Int.cast_pow,
    Int.cast_ofNat, mul_div_assoc]

end Sys2Proof.Machine

namespace Sys2Proof.Safety

open Sys2Proof.Machine

/-! ## Rounding to a grid (R92) -/

/-- R92's finite result lies on the same side of zero as the exact value. -/
theorem RoundsTo.abs_val_sub {x : ℚ} {w : Word} (h : RoundsTo x w) (hw : isFinite w = true) :
    |val w - x| = |(|val w|) - (|x|)| := by
  obtain ⟨-, q, f, -, -, -, -, hcase⟩ := h
  have hm : 0 ≤ f * (2 : ℚ) ^ q := by positivity
  split_ifs at hcase with hmax hzero hneg
  · rw [hcase, isFinite_eq, isInf_infWord, Bool.not_true, Bool.and_false] at hw
    cases hw
  · rw [hcase, (isZero_iff_val _).1 (isZero_zeroWord _), abs_zero, zero_sub, zero_sub, abs_neg, abs_neg, abs_abs]
  · obtain ⟨-, hval⟩ := hcase
    rw [hval, neg_one_mul, abs_neg, abs_of_nonneg hm, abs_of_neg hneg, sub_neg_eq_add, ← neg_add', abs_neg]
  · obtain ⟨-, hval⟩ := hcase
    rw [hval, one_mul, abs_of_nonneg hm, abs_of_nonneg (not_lt.1 hneg)]

/-- `w` is a finite word nearest to `x`, and `2^q` is R92's spacing there: what the rule says of a finite result, an
exact zero included. -/
structure RoundsOnGrid (q : ℤ) (x : ℚ) (w : Word) : Prop where
  least_le : -149 ≤ q
  le_greatest : q ≤ 104
  onGrid : OnGrid q (val w)
  abs_sub_le_half : |val w - x| ≤ (2 : ℚ) ^ q / 2
  nearest : ∀ v, isFinite v = true → |val w - x| ≤ |val v - x|
  normal : -149 < q → 2 ^ 23 * (2 : ℚ) ^ q ≤ |x|

theorem RoundsTo.exists_roundsOnGrid {x : ℚ} {w : Word} (h : RoundsTo x w) (hw : isFinite w = true) :
    ∃ q, RoundsOnGrid q x w := by
  obtain ⟨q, f, hf, hfin, hval⟩ := h.exists_isRounded
  obtain ⟨hq, -, hlo⟩ := hf.bounds
  have hpos : (0 : ℚ) < 2 ^ q := by positivity
  have hdist : |val w - x| = |f * (2 : ℚ) ^ q - (|x|)| := by rw [h.abs_val_sub hw, hval hw]
  refine ⟨q, hq, ?_, onGrid_of_abs (hval hw), ?_, fun v hv => ?_, hlo⟩
  · by_contra! hgt
    obtain ⟨-, hflo⟩ := hf.significand_bounds
    have hpow : (2 : ℚ) ^ (105 : ℤ) ≤ 2 ^ q := zpow_le_zpow_right₀ one_le_two hgt
    have htop : (2 : ℚ) ^ 23 * 2 ^ (105 : ℤ) = 2 ^ 128 := by norm_num
    linarith [hflo (by omega), hfin.1 hw]
  · obtain ⟨hhalf, -⟩ := hf.isNearestEven
    have hscale : |f * (2 : ℚ) ^ q - (|x|)| = |(|x|) / 2 ^ q - f| * 2 ^ q := by
      rw [← abs_of_pos hpos, ← abs_mul, abs_of_pos hpos, sub_mul, div_mul_cancel₀ _ hpos.ne', abs_sub_comm]
    rw [hdist, hscale, ← one_div_mul_eq_div 2]
    exact mul_le_mul_of_nonneg_right hhalf hpos.le
  · rw [hdist]
    exact (hf.abs_sub_le_of_isFinite hv).trans (abs_abs_sub_abs_le_abs_sub _ _)

section
variable {q j : ℤ} {x : ℚ} {w : Word} (h : RoundsOnGrid q x w)
include h

/-- A value on the grid it is rounded to is kept. -/
theorem RoundsOnGrid.val_eq (hx : OnGrid q x) : val w = x := by
  have hpos : (0 : ℚ) < 2 ^ q := by positivity
  exact sub_eq_zero.1 ((h.onGrid.sub hx).eq_zero (h.abs_sub_le_half.trans_lt (half_lt_self hpos)))

/-- With at most 2^(24 + n) steps of `2^j` below the value, the spacing is at most `2^n` of them. -/
theorem RoundsOnGrid.spacing_le (n : ℕ) (hj : -149 ≤ j) (hbound : |x| < 2 ^ (24 + n) * (2 : ℚ) ^ j) : q ≤ j + n := by
  by_contra! hgt
  have hsteps : (2 : ℚ) ^ (24 + n) * 2 ^ j ≤ 2 ^ 23 * 2 ^ q := by
    rw [← zpow_natCast, ← zpow_natCast, ← zpow_add₀ two_ne_zero, ← zpow_add₀ two_ne_zero]
    exact zpow_le_zpow_right₀ one_le_two (by push_cast; omega)
  linarith [h.normal (by omega)]

/-! ## Errors that are words (R185, R187) -/

/-- A value on the grid it is rounded to leaves no error, and zero is a word. -/
theorem RoundsOnGrid.exists_val_eq_error_of_onGrid (hx : OnGrid q x) :
    ∃ e, isFinite e = true ∧ val e = x - val w :=
  ⟨0#32, rfl, by rw [h.val_eq hx, sub_self, (isZero_iff_val 0#32).1 rfl]⟩

/-- The error of a number with at most 2^48 grid points below it: the spacing is at most 2^24 grid steps, and the
error half of it. -/
theorem RoundsOnGrid.exists_val_eq_error (hj : -149 ≤ j) (hx : OnGrid j x) (hbound : |x| < 2 ^ 48 * (2 : ℚ) ^ j) :
    ∃ e, isFinite e = true ∧ val e = x - val w := by
  rcases le_or_gt q j with hqj | hjq
  · exact h.exists_val_eq_error_of_onGrid (hx.of_le hqj)
  · have hpos : (0 : ℚ) < 2 ^ j := by positivity
    have hspacing : (2 : ℚ) ^ q ≤ 2 ^ 24 * 2 ^ j := by
      rw [mul_comm, ← zpow_natCast, ← zpow_add₀ two_ne_zero]
      exact zpow_le_zpow_right₀ one_le_two (h.spacing_le 24 hj hbound)
    have hmax := h.le_greatest
    refine exists_val_eq_of_onGrid (hx.sub (h.onGrid.of_le hjq.le)) hj (by omega) ?_
    rw [abs_sub_comm]
    linarith [h.abs_sub_le_half]

end

section
variable {q : ℤ} {w a c : Word} (ha : isFinite a = true) (hc : isFinite c = true) (hle : |val c| ≤ |val a|)
  (h : RoundsOnGrid q (val a + val c) w)
include ha hc hle

/-- A grid of both operands on which the smaller has fewer than 2^24 points below it: the finer one of their
own two. -/
theorem exists_common_grid : ∃ j : ℤ, -149 ≤ j ∧ OnGrid j (val a) ∧ OnGrid j (val c) ∧
    |val c| < 2 ^ 24 * (2 : ℚ) ^ j := by
  obtain ⟨i, hi, hagrid, halt⟩ := exists_onGrid_val ha
  obtain ⟨j, hj, hcgrid, hclt⟩ := exists_onGrid_val hc
  refine ⟨min i j, le_min hi hj, hagrid.of_le (min_le_left _ _), hcgrid.of_le (min_le_right _ _), ?_⟩
  rcases min_choice i j with hmin | hmin
  · rw [hmin]
    exact hle.trans_lt halt
  · rwa [hmin]

include h

omit hc in
/-- The larger operand lies on the grid of half the spacing of the sum, which is at most twice as large. -/
theorem RoundsOnGrid.onGrid_half : OnGrid (q - 1) (val a) := by
  obtain ⟨i, hi, hagrid, halt⟩ := exists_onGrid_val ha
  have hsum : |val a + val c| ≤ |val a| + |val c| := abs_add_le _ _
  have hspacing : q ≤ i + 1 := h.spacing_le 1 hi (by rw [pow_succ]; linarith)
  exact hagrid.of_le (by omega)

/-- The error of a sum is no larger than the smaller operand, since the larger one is itself a word. -/
theorem RoundsOnGrid.exists_val_eq_sum_error : ∃ e, isFinite e = true ∧ val e = val a + val c - val w := by
  obtain ⟨j, hj, hagrid, hcgrid, hclt⟩ := exists_common_grid ha hc hle
  rcases le_or_gt q j with hqj | hjq
  · exact h.exists_val_eq_error_of_onGrid ((hagrid.add hcgrid).of_le hqj)
  · have hmax := h.le_greatest
    refine exists_val_eq_of_onGrid ((hagrid.add hcgrid).sub (h.onGrid.of_le hjq.le)) hj (by omega) ?_
    have hnear : |val w - (val a + val c)| ≤ |val c| := by
      have hlarger := h.nearest a ha
      rwa [sub_add_cancel_left, abs_neg] at hlarger
    have hpos : (0 : ℚ) < 2 ^ j := by positivity
    rw [abs_sub_comm]
    linarith

/-- The part of the smaller operand that the sum has taken up. -/
theorem RoundsOnGrid.exists_val_eq_taken : ∃ b, isFinite b = true ∧ val b = val w - val a := by
  obtain ⟨j, hj, hagrid, hcgrid, hclt⟩ := exists_common_grid ha hc hle
  rcases le_or_gt q j with hqj | hjq
  · exact ⟨c, hc, by rw [h.val_eq ((hagrid.add hcgrid).of_le hqj), add_sub_cancel_left]⟩
  · have hgrid : OnGrid (q - 1) (val w - val a) :=
      (h.onGrid.of_le (by omega)).sub (h.onGrid_half ha hle)
    have hmax := h.le_greatest
    refine exists_val_eq_of_onGrid hgrid (by omega) (by omega) ?_
    have hpow : (2 : ℚ) ^ j ≤ 2 ^ (q - 1) := zpow_le_zpow_right₀ one_le_two (by omega)
    have hhalf : (2 : ℚ) ^ q / 2 = 2 ^ (q - 1) := by rw [zpow_sub_one₀ two_ne_zero]; rfl
    have herror := h.abs_sub_le_half
    rw [hhalf] at herror
    calc |val w - val a| = |(val w - (val a + val c)) + val c| := by ring_nf
      _ ≤ |val w - (val a + val c)| + |val c| := abs_add_le _ _
      _ < (2 ^ 24 + 1) * 2 ^ (q - 1) := by linarith

end

end Sys2Proof.Safety

namespace Sys2Proof.Machine

open Sys2Proof.Safety

/-! ## The words of the pairs (R185, R187) -/

theorem dfmul_fst (nan a b : Word) : (dfmul nan a b).1 = fmul nan a b := rfl

theorem dfmul_snd (nan a b : Word) : (dfmul nan a b).2 = fma nan a b (fneg (fmul nan a b)) := rfl

theorem dfqts_fst (nan h l r : Word) : (dfqts nan h l r).1 = fadd nan h r := rfl

theorem dfqts_snd (nan h l r : Word) :
    (dfqts nan h l r).2 = fadd nan (fsub nan r (fsub nan (fadd nan h r) h)) l := rfl

/-! ## The fused step (R93) -/

section
variable (nan : Word) {a b c x y w : Word}

section
variable (ha : isFinite a = true) (hb : isFinite b = true) (hc : isFinite c = true)
include ha hb hc

theorem isZero_fma_of_eq_zero (h : val a * val b + val c = 0) : isZero (fma nan a b c) = true := by
  rw [fma_of_eq_zero nan ha hb hc h]
  split <;> rfl

/-- A finite result of the fused step is a word nearest to its exact value, a zero included. -/
theorem exists_roundsOnGrid_fma (hw : isFinite (fma nan a b c) = true) :
    ∃ q, RoundsOnGrid q (val a * val b + val c) (fma nan a b c) := by
  by_cases h0 : val a * val b + val c = 0
  · have hzero : val (fma nan a b c) = 0 := (isZero_iff_val _).1 (isZero_fma_of_eq_zero nan ha hb hc h0)
    refine ⟨-149, le_rfl, by decide, ⟨0, by rw [hzero, Int.cast_zero, zero_mul]⟩, ?_, fun v _ => ?_,
      fun h => absurd h (lt_irrefl _)⟩
    · rw [hzero, h0, sub_self, abs_zero]
      positivity
    · rw [hzero, h0, sub_self, abs_zero]
      exact abs_nonneg _
  · exact (roundsTo_fma nan ha hb hc rfl h0).exists_roundsOnGrid hw

/-- When the exact value is that of some word, the fused step makes no error. -/
theorem fma_exact (hv : ∃ w, isFinite w = true ∧ val w = val a * val b + val c) :
    isFinite (fma nan a b c) = true ∧ val (fma nan a b c) = val a * val b + val c := by
  obtain ⟨w, hw, hval⟩ := hv
  by_cases h0 : val w = 0
  · have hzero : isZero (fma nan a b c) = true := isZero_fma_of_eq_zero nan ha hb hc (hval ▸ h0)
    exact ⟨isFinite_of_isZero hzero, by rw [(isZero_iff_val _).1 hzero, ← hval, h0]⟩
  · rw [fma_of_val_eq nan ha hb hc hw hval.symm h0]
    exact ⟨hw, hval⟩

end

section
variable (hx : isFinite x = true) (hy : isFinite y = true)
include hx hy

theorem exists_roundsOnGrid_fadd (hs : isFinite (fadd nan x y) = true) :
    ∃ q, RoundsOnGrid q (val x + val y) (fadd nan x y) := by
  obtain ⟨q, hq⟩ := exists_roundsOnGrid_fma nan hx rfl hy hs
  rw [val_one, mul_one] at hq
  exact ⟨q, hq⟩

theorem fadd_exact (hv : ∃ w, isFinite w = true ∧ val w = val x + val y) :
    isFinite (fadd nan x y) = true ∧ val (fadd nan x y) = val x + val y := by
  have hsum : val x * val one + val y = val x + val y := by rw [val_one, mul_one]
  rw [← hsum] at hv ⊢
  exact fma_exact nan hx rfl hy hv

theorem fsub_exact (hv : ∃ w, isFinite w = true ∧ val w = val x - val y) :
    isFinite (fsub nan x y) = true ∧ val (fsub nan x y) = val x - val y := by
  have hdiff : val y * val negOne + val x = val x - val y := by rw [val_negOne]; ring
  rw [← hdiff] at hv ⊢
  exact fma_exact nan hy rfl hx hv

/-! ## The product and its error (R185) -/

/-- The error of a finite product that is a multiple of 2^-149 is a word. -/
theorem exists_val_eq_product_error (hp : isFinite (fmul nan x y) = true) (hunit : OnGrid (-149) (val x * val y)) :
    ∃ e, isFinite e = true ∧ val e = val x * val y - val (fmul nan x y) := by
  have hprod : val x * val y + val negZero = val x * val y := by rw [val_negZero, add_zero]
  obtain ⟨q, hq⟩ := exists_roundsOnGrid_fma nan hx hy rfl hp
  rw [hprod] at hq
  obtain ⟨i, -, hxgrid, hxlt⟩ := exists_onGrid_val hx
  obtain ⟨j, -, hygrid, hylt⟩ := exists_onGrid_val hy
  have hgrid : OnGrid (max (-149) (i + j)) (val x * val y) := by
    rcases max_choice (-149) (i + j) with hmax | hmax
    · rwa [hmax]
    · rw [hmax]
      exact hxgrid.mul hygrid
  refine hq.exists_val_eq_error (le_max_left _ _) hgrid ?_
  have hpow : (2 : ℚ) ^ (i + j) ≤ 2 ^ max (-149) (i + j) := zpow_le_zpow_right₀ one_le_two (le_max_right _ _)
  calc |val x * val y| = |val x| * |val y| := abs_mul _ _
    _ < (2 ^ 24 * 2 ^ i) * (2 ^ 24 * 2 ^ j) := mul_lt_mul'' hxlt hylt (abs_nonneg _) (abs_nonneg _)
    _ = 2 ^ 48 * 2 ^ (i + j) := by rw [zpow_add₀ two_ne_zero]; ring
    _ ≤ 2 ^ 48 * 2 ^ max (-149) (i + j) := mul_le_mul_of_nonneg_left hpow (by positivity)

/-- R185: the two words of the product add up to it. -/
theorem dfmul_exact (hp : isFinite (fmul nan x y) = true) (hunit : OnGrid (-149) (val x * val y)) :
    isFinite (dfmul nan x y).2 = true ∧ val (dfmul nan x y).1 + val (dfmul nan x y).2 = val x * val y := by
  rw [dfmul_fst, dfmul_snd]
  have herror : ∃ e, isFinite e = true ∧ val e = val x * val y + val (fneg (fmul nan x y)) := by
    rw [val_fneg, ← sub_eq_add_neg]
    exact exists_val_eq_product_error nan hx hy hp hunit
  obtain ⟨hfin, hval⟩ := fma_exact nan hx hy ((isFinite_fneg _).trans hp) herror
  refine ⟨hfin, ?_⟩
  rw [hval, val_fneg, ← sub_eq_add_neg, add_sub_cancel]

/-! ## The quick two-sum (R187) -/

/-- R187 with a zero low word: the sum, the part of `y` in it and the rest of `y` are each a word, so only the sum is
rounded. -/
theorem dfqts_exact {l : Word} (hl : isZero l = true) (hle : |val y| ≤ |val x|)
    (hs : isFinite (fadd nan x y) = true) :
    isFinite (dfqts nan x l y).2 = true ∧
      val (dfqts nan x l y).1 + val (dfqts nan x l y).2 = val x + val y := by
  rw [dfqts_fst, dfqts_snd]
  obtain ⟨q, hq⟩ := exists_roundsOnGrid_fadd nan hx hy hs
  obtain ⟨htakenFin, htaken⟩ := fsub_exact nan hs hx (hq.exists_val_eq_taken hx hy hle)
  have hrest : ∃ e, isFinite e = true ∧ val e = val y - val (fsub nan (fadd nan x y) x) := by
    obtain ⟨e, he, hval⟩ := hq.exists_val_eq_sum_error hx hy hle
    exact ⟨e, he, by rw [hval, htaken]; ring⟩
  obtain ⟨hrestFin, hrestVal⟩ := fsub_exact nan hy htakenFin hrest
  obtain ⟨hlowFin, hlow⟩ := fadd_exact nan hrestFin (isFinite_of_isZero hl)
    ⟨_, hrestFin, by rw [(isZero_iff_val l).1 hl, add_zero]⟩
  refine ⟨hlowFin, ?_⟩
  rw [hlow, hrestVal, htaken, (isZero_iff_val l).1 hl]
  ring

end

end

end Sys2Proof.Machine
end

section
/-! PROOFS. The statements on double-float arithmetic (47_doublefloat.md R185 to R188). -/

namespace Sys2Proof.Proofs

open Sys2Proof.Machine Sys2Proof.Safety

/-- Settles O46: the four primitives are the steps of R185 to R188. -/
theorem doubleFloatPrimitivesFollowTheirSteps : Obligations.DoubleFloatPrimitivesFollowTheirSteps :=
  ⟨rfl, rfl, rfl, rfl, fun _ => exec_of_transaction rfl, fun _ => exec_of_transaction rfl,
    fun _ => exec_of_transaction rfl, fun _ => exec_of_transaction rfl⟩

/-- Settles O47: the product has at most 48 significant bits, and its error is at most 2^23 steps of their grid. -/
theorem productErrorIsExact : Obligations.ProductErrorIsExact := fun _ ha hb =>
  ⟨_, _, exec_of_transaction rfl, dfmul_exact _ ha hb⟩

/-- Settles O48: no step after the sum makes an error. -/
theorem quickTwoSumIsExact : Obligations.QuickTwoSumIsExact := fun _ ha hc hb hle =>
  ⟨_, _, exec_of_transaction rfl, dfqts_exact _ ha hc hb hle⟩

end Sys2Proof.Proofs
end

section
/-! PROOFS. The statement on exceptions: there are none (60_exceptions.md R200). -/

namespace Sys2Proof.Machine

/-- Everything a step can do: an assigned command word completes with the words of its transaction, and a reserved one
is refused (60_exceptions.md R200; 30_encoding.md R54). -/
theorem step_completes_or_refuses (s : State) :
    (∃ i, decode s.op = some i ∧ step s = .next { s with out := some (transaction Config.cfg i s.ports) }) ∨
      (decode s.op = none ∧ step s = .refused (.reservedCommand s.op)) := by
  cases h : decode s.op with
  | none => exact .inr ⟨rfl, step_of_decode_none s h⟩
  | some i => exact .inl ⟨i, rfl, step_of_decode_some h⟩

/-- R200: no command word and no operand makes a step fault. -/
theorem step_ne_fault (s : State) (f : Fault) : step s ≠ .fault f := by
  rcases step_completes_or_refuses s with ⟨_, _, hnext⟩ | ⟨_, hrefused⟩
  · simp [hnext]
  · simp [hrefused]

end Sys2Proof.Machine

namespace Sys2Proof.Proofs

open Sys2Proof.Machine

/-- Settles O6: an assigned command word decodes to an operation, whose transaction gives the result words. -/
theorem assignedCommandsAlwaysComplete : Obligations.AssignedCommandsAlwaysComplete := by
  refine ⟨fun s h => ?_, step_ne_fault⟩
  obtain ⟨i, hi⟩ := Option.isSome_iff_exists.1 h
  exact ⟨_, step_of_decode_some hi⟩

end Sys2Proof.Proofs
end
